-- ==== Sys2Proof/Word.lean ====
section
/-! DEFINITION. The word types of the LZW codec core (spec rules R8, R20, R22, R60, R90). -/

namespace Sys2Proof

/-- A Symbol, and an element of `RAW` or `STREAM`: 8 bits (R20, R60). -/
abbrev Symbol := BitVec 8

/-- An element of `CODE`: a Code zero-extended to 16 bits (R22, R60). -/
abbrev Half := BitVec 16

/-- A register word: 32 bits (R8). -/
abbrev Word := BitVec 32

/-- A command word: 16 bits (R90). -/
abbrev CmdWord := BitVec 16

end Sys2Proof
end

