-- ==== Sys2Proof/Config.lean ====
section
/-! DEFINITION. The free values: what the spec leaves unspecified after an event and the machine goes on
(93_implementation_defined U12 to U17). Each is a constant with no body, applied to a draw number (a counter
that State holds) and to which element or register is meant, so that no proof can see a value.
Log entries 5, 6, 7, 8. -/

namespace Sys2Proof.Config

/-- The free contents of 8-bit buffer elements: draw number, element index (R32, R65, R258, R282). -/
opaque freeByte : Nat → Nat → BitVec 8

/-- The free contents of `CODE` elements and of 16-bit working registers: draw number, which one (R32, U17). -/
opaque freeHalf : Nat → Nat → BitVec 16

/-- Free 32-bit words: reads of `ENC_DICT` at or above `ENC_SIZE` (R66), 32-bit working registers (U17). -/
opaque freeWord : Nat → Nat → BitVec 32

/-- The free one-bit working register `CUR_VALID` between commands (U17). -/
opaque freeBit : Nat → Nat → Bool

end Sys2Proof.Config
end

