-- ==== Sys2Proof/Syntax.lean ====
section
/-! DEFINITION. The command set (30_encoding R92), the host's operations (R62, R66, R67, R223, R280) and the
pseudo-commands (R100) as syntax. -/

namespace Sys2Proof

/-- The five commands, one constructor per row of the opcode table (R92). `k` is the code width field K, a
number 0..31 (R95); the flags are KEEP, TESTING and TRAINING (R91, R94). -/
inductive Instr where
  /-- `ENCODE` (R120). -/
  | encode (k : Nat) (keep testing training : Bool)
  /-- `DECODE` (R150). -/
  | decode (k : Nat)
  /-- `PACK` (R180). -/
  | pack (k : Nat)
  /-- `UNPACK` (R200). -/
  | unpack (k : Nat)
  /-- `RESET` (R222). -/
  | reset
  deriving DecidableEq, Repr

/-- One operation of the host: an access of exactly one whole element of one address space (R60, R62, R69), or
the reset input (R280). A write of the register at offset 0 is a command (R24, R220). -/
inductive HostOp where
  /-- `WR`: write a 32-bit word at a byte offset of `REG` (R68, R223). -/
  | writeReg (offset : Nat) (value : Word)
  /-- `RD`: read the word at a byte offset of `REG` (R68, R223). -/
  | readReg (offset : Nat)
  /-- Write one element of `RAW` (R62). -/
  | writeRaw (i : Nat) (v : Symbol)
  /-- Read one element of `RAW` (R62). -/
  | readRaw (i : Nat)
  /-- Write one element of `CODE`, a 16-bit value, not checked (R62). -/
  | writeCode (i : Nat) (v : Half)
  /-- Read one element of `CODE` (R62). -/
  | readCode (i : Nat)
  /-- Write one element of `STREAM` (R62). -/
  | writeStream (i : Nat) (v : Symbol)
  /-- Read one element of `STREAM` (R62). -/
  | readStream (i : Nat)
  /-- Write at `ENC_DICT`: ignored (R66). -/
  | writeDict (c : Nat) (v : Word)
  /-- Read the `ENC_DICT` word of a code (R50, R66). -/
  | readDict (c : Nat)
  /-- The reset input (R280). -/
  | resetInput
  deriving DecidableEq, Repr

/-- The pseudo-commands of R100. -/
inductive Pseudo where
  | compress (k : Nat)
  | decompress (k : Nat)
  | train (k : Nat)
  | trainMore (k : Nat)
  | testPack (k : Nat)
  deriving DecidableEq, Repr

end Sys2Proof
end

