-- ==== Sys2Proof/WellFormed.lean ====
section
/-! DEFINITION. Which commands have a command word: K fits its 5-bit field (R91, R95). Widths 0..8 and 17..31
are representable (they fault when run), so they are well formed. -/

namespace Sys2Proof

/-- K is representable in bits 12:8 of the command word (R95). -/
def kFits (k : Nat) : Bool := decide (k < 32)

/-- The command can be written as a command word. -/
def Instr.wellFormed : Instr → Bool
  | .encode k _ _ _ => kFits k
  | .decode k => kFits k
  | .pack k => kFits k
  | .unpack k => kFits k
  | .reset => true

end Sys2Proof
end

