-- ==== Sys2Proof/Decode.lean ====
section
/-! DEFINITION. Decoding a command word, total on all 65536 words (30_encoding R93), the encoder (R92, R99) and
the opcode table's match and mask (R92). -/

namespace Sys2Proof

/-- Why a word is `Illegal` (R96): each reason is one of the groups R96 lists. All of them raise
`IllegalCommand`; the hardware does not tell them apart. -/
inductive Illegal where
  /-- Bit 7 or one of bits 15:13 is set. -/
  | reservedBits
  /-- DECODE, PACK or UNPACK with one of bits 6:4 set. -/
  | flagBits
  /-- OP 0x0 or 0x5 to 0xE. -/
  | unknownOp
  /-- OP 0xF with any other bit set. -/
  | resetOperand
  deriving DecidableEq, Repr

/-- `OP`, bits 3:0 (R91). -/
def opField (w : CmdWord) : Nat := (w.extractLsb' 0 4).toNat

/-- `K`, bits 12:8, unsigned (R91, R95). -/
def kField (w : CmdWord) : Nat := (w.extractLsb' 8 5).toNat

/-- Bits 6:4, the flag bits as one field (R93). -/
def flagField (w : CmdWord) : Nat := (w.extractLsb' 4 3).toNat

/-- Bits 15:13, reserved (R91). -/
def highField (w : CmdWord) : Nat := (w.extractLsb' 13 3).toNat

/-- A command that has no flag bits: legal when bits 6:4 are 0 (R93). -/
def decodePlain (w : CmdWord) (i : Instr) : Except Illegal Instr :=
  if flagField w = 0 then .ok i else .error .flagBits

/-- `decode(w)` of R93. -/
def decode (w : CmdWord) : Except Illegal Instr :=
  if w = 0x000F#16 then .ok .reset
  else if highField w ≠ 0 ∨ w.getLsbD 7 = true then .error .reservedBits
  else if opField w = 1 then
    .ok (.encode (kField w) (w.getLsbD 6) (w.getLsbD 5) (w.getLsbD 4))
  else if opField w = 2 then decodePlain w (.decode (kField w))
  else if opField w = 3 then decodePlain w (.pack (kField w))
  else if opField w = 4 then decodePlain w (.unpack (kField w))
  else if opField w = 15 then .error .resetOperand
  else .error .unknownOp

/-- One bit shifted to its place in the word. -/
def flagBit (b : Bool) (n : Nat) : CmdWord := (if b then 1#16 else 0#16) <<< n

/-- `K << 8`. -/
def kBits (k : Nat) : CmdWord := BitVec.ofNat 16 k <<< 8

/-- The command word of a command, as R99 writes it. -/
def encode : Instr → CmdWord
  | .encode k keep testing training =>
      0x0001#16 ||| kBits k ||| flagBit training 4 ||| flagBit testing 5 ||| flagBit keep 6
  | .decode k => 0x0002#16 ||| kBits k
  | .pack k => 0x0003#16 ||| kBits k
  | .unpack k => 0x0004#16 ||| kBits k
  | .reset => 0x000F#16

/-- One row of the opcode map (R92): a word selects the row when `w AND mask = match`. -/
structure OpcodeRow where
  mnemonic : String
  pattern : CmdWord
  mask : CmdWord
  deriving DecidableEq, Repr

/-- The opcode map of R92. -/
def opcodeTable : List OpcodeRow :=
  [ ⟨"ENCODE", 0x0001#16, 0xE08F#16⟩,
    ⟨"DECODE", 0x0002#16, 0xE0FF#16⟩,
    ⟨"PACK", 0x0003#16, 0xE0FF#16⟩,
    ⟨"UNPACK", 0x0004#16, 0xE0FF#16⟩,
    ⟨"RESET", 0x000F#16, 0xFFFF#16⟩ ]

/-- The word selects the row (R92). -/
def OpcodeRow.selects (r : OpcodeRow) (w : CmdWord) : Bool := w &&& r.mask == r.pattern

/-- The mnemonic of a command in the opcode map (R92). -/
def Instr.mnemonic : Instr → String
  | .encode _ _ _ _ => "ENCODE"
  | .decode _ => "DECODE"
  | .pack _ => "PACK"
  | .unpack _ => "UNPACK"
  | .reset => "RESET"

/-- What the decoder reads from an opcode-table word of `nbits` bits: bits above `nbits` are 0, and `CMD` takes
bits 15:0 only (R90). -/
def decodeTableWord (nbits w : Nat) : Option Instr :=
  match decode (BitVec.ofNat 16 (w % 2 ^ nbits)) with
  | .ok i => some i
  | .error _ => none

end Sys2Proof
end

