-- ==== Sys2Proof/Machine/State.lean ====
section
/-! DEFINITION. The machine's state as plain data (10_state R23 to R51), the reasons a step can stop, and the
state after reset. -/

namespace Sys2Proof.Machine

/-- The fields of `STATUS` (R25). Bits 3 and 31:8 are reserved and read 0, so they have no storage. -/
structure Status where
  /-- Bit 0: a command is executing. -/
  busy : Bool
  /-- Bit 1: the last accepted command completed without a fault. -/
  done : Bool
  /-- Bit 2: the fault state. -/
  fault : Bool
  /-- Bits 7:4: the cause code, 0 when `fault` is false (R241). -/
  err : BitVec 4
  deriving DecidableEq, Repr

/-- The eight hardware fault causes (R241). A cause is recorded in `STATUS`; it never stops the model. -/
inductive Cause where
  | configurationError
  | decodeError
  | unsupportedWidth
  | framingError
  | codeRangeError
  | seedCapacityError
  | bufferOverflow
  | illegalCommand
  deriving DecidableEq, Repr

/-- A data buffer (R32): its known elements in strictly rising order of index. An element that is not listed is
unspecified (R51, R65, R258, R282): it reads as the free value of draw `epoch` at its index (log 5). -/
structure Buffer (α : Type) where
  epoch : Nat
  cells : List (Nat × α)
  deriving DecidableEq, Repr

/-- One extended dictionary entry: `(PARENT, SYM)` (R33, R40). -/
structure Entry where
  parent : BitVec 16
  sym : Symbol
  deriving DecidableEq, Repr

/-- A dictionary table: the elements that have been written, keyed by code, in strictly rising order (R33, R40). -/
abbrev Table := List (Nat × Entry)

/-- The working registers (R43, R44, R45). Outside the command that initialises them they hold any value (U17). -/
structure Work where
  pos : Word
  wp : Word
  nOut : Word
  curValid : Bool
  cur : BitVec 16
  prev : BitVec 16
  deriving DecidableEq, Repr

/-- The capacities of the three buffers: parameters the spec leaves open (R7), constant while the machine runs
(log 4). A 32-bit number is at most 2^32 - 1, the bound of R7. -/
structure Caps where
  raw : Word
  code : Word
  stream : Word
  deriving DecidableEq, Repr

/-- The state of the machine: the complete inventory of R23, the capacities, and the model's own fields
`pending`, `replies` and `fresh`. -/
structure State where
  /-- `RAW_CAP`, `CODE_CAP`, `STREAM_CAP` (R7). -/
  caps : Caps
  /-- `STATUS` (R25). -/
  status : Status
  /-- `RAW_LEN` (R26). -/
  rawLen : Word
  /-- `CODE_LEN` (R27). -/
  codeLen : Word
  /-- `STREAM_LEN` (R28). -/
  streamLen : Word
  /-- `ENC_SIZE` (R29). -/
  encSize : Word
  /-- `DEC_SIZE` (R30). -/
  decSize : Word
  /-- `ERR_INDEX` (R31). -/
  errIndex : Word
  /-- `RAW` (R32). -/
  raw : Buffer Symbol
  /-- `CODE` (R32). -/
  code : Buffer Half
  /-- `STREAM` (R32). -/
  stream : Buffer Symbol
  /-- `ENC_PARENT`, `ENC_SYM` (R33). -/
  encTable : Table
  /-- `DEC_PARENT`, `DEC_SYM` (R40). -/
  decTable : Table
  /-- `POS`, `WP`, `N_OUT`, `CUR_VALID`, `CUR`, `PREV` (R43 to R45). -/
  work : Work
  /-- The host operations not yet done, oldest first (R224: a run is a finite sequence of them; log 2). -/
  pending : List HostOp
  /-- What the host's reads have returned, newest first (log 3). -/
  replies : List Word
  /-- The draw number of the next free value (log 6). -/
  fresh : Nat
  deriving DecidableEq, Repr

/-- The ways the machine itself stops with a fault: none. Every fault of the spec is a recorded fault with a next
state (R240, R257), and 93_implementation_defined says that nothing in the spec is left as stuck (log 13). -/
inductive Fault where
  deriving DecidableEq, Repr

/-- The host actions that have no meaning in the spec and that it tells a model to refuse (R63, R74, R220, R290). -/
inductive Refusal where
  /-- Raised by `exec` for a command with no meaning yet: none is left. Safe. -/
  | notModelled (mnemonic : String)
  /-- Raised by a host access other than a `STATUS` read or the reset input while `STATUS.BUSY = 1` (R220,
  R290). Safe. -/
  | hostAccessWhileBusy
  /-- Raised by a host access to a buffer at an index at or beyond its capacity (R63), or to `ENC_DICT` beyond
  index 65535 (R60). Safe. -/
  | noSuchElement
  /-- Raised by a host access to `REG` at an offset that is not a multiple of 4 (R74). Safe. -/
  | misalignedRegister
  deriving DecidableEq, Repr

/-- The working registers after reset: 0 (R51). -/
def Work.zero : Work :=
  { pos := 0, wp := 0, nOut := 0, curValid := false, cur := 0, prev := 0 }

/-- `STATUS` after reset: 0 (R51). -/
def Status.zero : Status := { busy := false, done := false, fault := false, err := 0 }

/-- The machine right after the reset input (R51, R281, R282): every register 0, no element of any buffer or
table known. The capacities are the greatest that R7 allows (log 4), and no host operation is pending. -/
def State.reset : State :=
  { caps := { raw := 0xFFFFFFFF#32, code := 0xFFFFFFFF#32, stream := 0xFFFFFFFF#32 }
    status := Status.zero
    rawLen := 0, codeLen := 0, streamLen := 0, encSize := 0, decSize := 0, errIndex := 0
    raw := { epoch := 0, cells := [] }
    code := { epoch := 1, cells := [] }
    stream := { epoch := 2, cells := [] }
    encTable := [], decTable := []
    work := Work.zero
    pending := [], replies := [], fresh := 3 }

end Sys2Proof.Machine
end

