-- ==== Sys2Proof/Machine/Flags.lean ====
section
/-! DEFINITION. The status flags: the cause codes (R241), the `STATUS` word (R25) and how the flags change when a
command is accepted (R220), completes (R225) or faults (R257). -/

namespace Sys2Proof.Machine

/-- The value of `STATUS.ERR` for a cause (R241). -/
def Cause.code : Cause → BitVec 4
  | .configurationError => 1
  | .decodeError => 2
  | .unsupportedWidth => 3
  | .framingError => 4
  | .codeRangeError => 5
  | .seedCapacityError => 6
  | .bufferOverflow => 7
  | .illegalCommand => 8

/-- One bit as a number. -/
def bitNat (b : Bool) : Nat := if b then 1 else 0

/-- The 32-bit `STATUS` word: BUSY in bit 0, DONE in bit 1, FAULT in bit 2, ERR in bits 7:4, the rest 0 (R25). -/
def Status.word (f : Status) : Word :=
  BitVec.ofNat 32 (bitNat f.busy + 2 * bitNat f.done + 4 * bitNat f.fault + 16 * f.err.toNat)

/-- `STATUS.DONE <- 0; STATUS.BUSY <- 1` (R220). -/
def Status.accepted (f : Status) : Status := { f with busy := true, done := false }

/-- `STATUS.DONE <- 1; STATUS.BUSY <- 0` (R220, R225); FAULT and ERR are not changed (R225). -/
def Status.completed (f : Status) : Status := { f with busy := false, done := true }

/-- The flags on fault entry (R257). -/
def Status.faulted (c : Cause) : Status :=
  { busy := false, done := false, fault := true, err := c.code }

end Sys2Proof.Machine
end

