-- ==== Sys2Proof/Machine/Ops.lean ====
section
/-! DEFINITION. The shared operations: canonical element lists, buffer and table accesses (R61 to R65), free
values (log 5 to 8), completion (R225), fault entry (R257, R258) and its return, the reset event (R222, R281,
R282). -/

namespace Sys2Proof.Machine

/-- The element at an index, if it is listed. -/
def cellGet {α : Type} : List (Nat × α) → Nat → Option α
  | [], _ => none
  | (j, v) :: rest, i => if i = j then some v else cellGet rest i

/-- The list with the element at an index replaced or inserted at its place. -/
def cellSet {α : Type} : List (Nat × α) → Nat → α → List (Nat × α)
  | [], i, v => [(i, v)]
  | (j, u) :: rest, i, v =>
    if i < j then (i, v) :: (j, u) :: rest
    else if i = j then (i, v) :: rest
    else (j, u) :: cellSet rest i v

/-- A sequence laid out at consecutive indices from a first one. -/
def cellsFrom {α : Type} : Nat → List α → List (Nat × α)
  | _, [] => []
  | i, v :: vs => (i, v) :: cellsFrom (i + 1) vs

/-- The canonical form of an element list: strictly rising indices. An unlisted element holds no known value,
so no entry can equal it. -/
abbrev cellsWf {α : Type} (cells : List (Nat × α)) : Prop :=
  (cells.map Prod.fst).Pairwise (· < ·)

/-- All element lists of a state are in canonical form. -/
abbrev Memory.wf (s : State) : Prop :=
  cellsWf s.raw.cells ∧ cellsWf s.code.cells ∧ cellsWf s.stream.cells ∧
    cellsWf s.encTable ∧ cellsWf s.decTable

/-- `MemRead(RAW, i)` (R61): the element, or its free value if it is unspecified. -/
def readRaw (s : State) (i : Nat) : Symbol :=
  (cellGet s.raw.cells i).getD (Config.freeByte s.raw.epoch i)

/-- `MemRead(CODE, i)` (R61). -/
def readCode (s : State) (i : Nat) : Half :=
  (cellGet s.code.cells i).getD (Config.freeHalf s.code.epoch i)

/-- `MemRead(STREAM, i)` (R61). -/
def readStream (s : State) (i : Nat) : Symbol :=
  (cellGet s.stream.cells i).getD (Config.freeByte s.stream.epoch i)

/-- `MemWrite(RAW, i, v)` (R61). -/
def writeRaw (i : Nat) (v : Symbol) (s : State) : State :=
  { s with raw := { s.raw with cells := cellSet s.raw.cells i v } }

/-- `MemWrite(CODE, i, v)` (R61). -/
def writeCode (i : Nat) (v : Half) (s : State) : State :=
  { s with code := { s.code with cells := cellSet s.code.cells i v } }

/-- `MemWrite(STREAM, i, v)` (R61). -/
def writeStream (i : Nat) (v : Symbol) (s : State) : State :=
  { s with stream := { s.stream with cells := cellSet s.stream.cells i v } }

/-- What a command leaves in `RAW` as its output buffer: the output sequence from index 0, every other element
unspecified (R65 (b), R258). -/
def produceRaw (out : List Symbol) (s : State) : State :=
  { s with raw := { epoch := s.fresh, cells := cellsFrom 0 out }, fresh := s.fresh + 1 }

/-- What a command leaves in `CODE` as its output buffer (R65 (b), R258). -/
def produceCode (out : List Half) (s : State) : State :=
  { s with code := { epoch := s.fresh, cells := cellsFrom 0 out }, fresh := s.fresh + 1 }

/-- What a command leaves in `STREAM` as its output buffer (R65 (b), R258). -/
def produceStream (out : List Symbol) (s : State) : State :=
  { s with stream := { epoch := s.fresh, cells := cellsFrom 0 out }, fresh := s.fresh + 1 }

/-- The working registers hold any value once their command has ended (U17; log 8). -/
def retire (s : State) : State :=
  { s with
    work :=
      { pos := Config.freeWord s.fresh 0, wp := Config.freeWord s.fresh 1, nOut := Config.freeWord s.fresh 2,
        curValid := Config.freeBit s.fresh 0, cur := Config.freeHalf s.fresh 0, prev := Config.freeHalf s.fresh 1 }
    fresh := s.fresh + 1 }

/-- A command is accepted (R220): `STATUS.DONE <- 0; STATUS.BUSY <- 1`. -/
def accept (s : State) : State := { s with status := s.status.accepted }

/-- The common end of a successful command (R225, R220): DONE is set and BUSY cleared, last. -/
def complete (s : State) : State := { retire s with status := s.status.completed }

/-- What `raise F(idx)` carries (R13). -/
structure Raise where
  cause : Cause
  index : Nat
  deriving DecidableEq, Repr

/-- The command X that raises a fault (R257). -/
inductive Raiser where
  | illegal
  | encode (training : Bool)
  | decode
  | pack
  | unpack
  deriving DecidableEq, Repr

/-- The fault record: `STATUS` and `ERR_INDEX` (R257). -/
def recordFault (e : Raise) (s : State) : State :=
  { s with status := Status.faulted e.cause, errIndex := BitVec.ofNat 32 e.index }

/-- TAKING A FAULT, the effect of `raise F(idx)` in a command X (R257): the fault record; the command's output
length register 0 and its output buffer unspecified (R258); `ENC_SIZE` 0 for ENCODE, `DEC_SIZE` 0 for DECODE.
Nothing is saved and control goes nowhere. It is applied to the state in which the command started: what the
command did before the fault is not observable (R254, R258; log 10). -/
def faultEntry (x : Raiser) (e : Raise) (s : State) : State :=
  match x with
  | .illegal => recordFault e s
  | .encode true => retire { recordFault e s with encSize := 0 }
  | .encode false => retire { produceCode [] (recordFault e s) with codeLen := 0, encSize := 0 }
  | .decode => retire { produceRaw [] (recordFault e s) with rawLen := 0, decSize := 0 }
  | .pack => retire { produceStream [] (recordFault e s) with streamLen := 0 }
  | .unpack => retire { produceCode [] (recordFault e s) with codeLen := 0 }

/-- THE RETURN from the fault state is the reset event (R260): every register takes its reset value (R222, R281);
no buffer or table element is written. -/
def clearRegisters (s : State) : State :=
  { s with
    status := Status.zero
    rawLen := 0, codeLen := 0, streamLen := 0, encSize := 0, decSize := 0, errIndex := 0
    work := Work.zero }

/-- The reset input (R280 to R282): the reset event, and every element of every buffer and table unspecified. -/
def powerOn (s : State) : State :=
  { clearRegisters s with
    raw := { epoch := s.fresh, cells := [] }
    code := { epoch := s.fresh + 1, cells := [] }
    stream := { epoch := s.fresh + 2, cells := [] }
    encTable := [], decTable := []
    fresh := s.fresh + 3 }

/-- A host read returns a value (log 3). -/
def reply (v : Word) (s : State) : State := { s with replies := v :: s.replies }

end Sys2Proof.Machine
end

