-- ==== Sys2Proof/Machine/Operands.lean ====
section
/-! DEFINITION. The operands of the commands: the code width K and its legal range (R6, R22, R95, R244), and the
implicit input sequences fixed per command (R92). -/

namespace Sys2Proof.Machine

/-- `K < 9 or K > 16` is `UnsupportedWidth` (R244); this is its negation. -/
def legalWidth (k : Nat) : Bool := decide (9 ≤ k) && decide (k ≤ 16)

/-- `capacity(K) = 2^K` (R6). -/
def capacity (k : Nat) : Nat := 2 ^ k

/-- `msg = RAW[0 .. RAW_LEN-1]`, the input of ENCODE (R120). -/
def rawInput (s : State) : List Symbol := (List.range s.rawLen.toNat).map (readRaw s)

/-- `CODE[0 .. CODE_LEN-1]`, the input of PACK and DECODE, each a 16-bit unsigned number, never masked to K bits
(R75, R150, R180). -/
def codeInput (s : State) : List Nat := (List.range s.codeLen.toNat).map fun i => (readCode s i).toNat

/-- `STREAM[0 .. STREAM_LEN-1]`, the input of UNPACK (R200). -/
def streamInput (s : State) : List Symbol := (List.range s.streamLen.toNat).map (readStream s)

end Sys2Proof.Machine
end

