-- ==== Sys2Proof/Machine/Sequences.lean ====
section
/-! DEFINITION. The dictionaries as tables: the sequence of a code (R36, R42), the lookup `efind` (R37) and the
insertion of an entry (R124, R158). -/

namespace Sys2Proof.Machine

/-- The symbols of a code from the last to the first, following parents (R36, R42). The first argument bounds the
walk. Parents decrease, so for a dictionary the bound `c + 1` and the unlisted case are never reached (log 9). -/
def symsBack (t : Table) : Nat → Nat → List Symbol
  | 0, c => [BitVec.ofNat 8 c]
  | fuel + 1, c =>
    if c < 256 then [BitVec.ofNat 8 c]
    else
      match cellGet t c with
      | some e => e.sym :: symsBack t fuel e.parent.toNat
      | none => [BitVec.ofNat 8 c]

/-- `eseq(c)` and `dseq(c)` (R36, R42): `[c]` for a root, `seq(PARENT[c]) ++ [SYM[c]]` for an extended entry. -/
def seqOf (t : Table) (c : Nat) : List Symbol := (symsBack t (c + 1) c).reverse

/-- The first symbol of a sequence (R12); a Sequence is never empty (R21), so the default is never taken. -/
def firstSym (q : List Symbol) : Symbol := q.headD 0

/-- `efind(p, b)` (R37): the code c with `256 <= c < ENC_SIZE`, `ENC_PARENT[c] = p` and `ENC_SYM[c] = b`. -/
def efind (t : Table) (size p : Nat) (b : Symbol) : Option Nat :=
  (t.find? fun ce => decide (256 ≤ ce.1) && decide (ce.1 < size) && ce.2.parent.toNat == p && ce.2.sym == b).map
    Prod.fst

/-- `PARENT[size] <- p; SYM[size] <- b` (R124, R158). -/
def insertEntry (t : Table) (size p : Nat) (b : Symbol) : Table :=
  cellSet t size { parent := BitVec.ofNat 16 p, sym := b }

end Sys2Proof.Machine
end

