-- ==== Sys2Proof/Machine/Decoder.lean ====
section
/-! DEFINITION. DECODE: dictionary rebuilder and sequence output (41_decoder R150 to R164). -/

namespace Sys2Proof.Machine

/-- The working data of a running DECODE (R44): `POS`, `PREV`, `DEC_SIZE`, the table, `WP`, and the symbols
written to `RAW` so far, newest first (R61). -/
structure DecRun where
  pos : Nat
  prev : Nat
  size : Nat
  table : Table
  wp : Nat
  out : List Symbol
  deriving DecidableEq, Repr

/-- `append(s)` (R158): symbol by symbol, `BufferOverflow(POS)` at the first that does not fit. -/
def appendSyms (rawCap : Nat) : List Symbol → DecRun → Except Raise DecRun
  | [], r => .ok r
  | x :: xs, r =>
    if rawCap ≤ r.wp then .error ⟨.bufferOverflow, r.pos⟩
    else appendSyms rawCap xs { r with wp := r.wp + 1, out := x :: r.out }

/-- The classification of a later code (R155, R156): known, the special case, or no entry (R157). -/
def decEntry (k c : Nat) (r : DecRun) : Option (List Symbol) :=
  if c < r.size then some (seqOf r.table c)
  else if c = r.size ∧ r.size < capacity k then
    some (seqOf r.table r.prev ++ [firstSym (seqOf r.table r.prev)])
  else none

/-- The insertion of R158: the previous entry extended by the first symbol of the current one, while the
dictionary is not full. -/
def decInsert (k : Nat) (x : Symbol) (r : DecRun) : DecRun :=
  if r.size < capacity k then
    { r with table := insertEntry r.table r.size r.prev x, size := r.size + 1 }
  else r

/-- One later code (R155 to R158): classify, append, insert, update. -/
def decStep (k rawCap c : Nat) (r : DecRun) : Except Raise DecRun :=
  match decEntry k c r with
  | none => .error ⟨.decodeError, r.pos⟩
  | some entry =>
    match appendSyms rawCap entry r with
    | .error e => .error e
    | .ok r' => .ok { decInsert k (firstSym entry) r' with prev := c, pos := r.pos + 1 }

/-- The loop over the later codes: `for POS in 1 .. CODE_LEN-1` (R160). -/
def decScan (k rawCap : Nat) : List Nat → DecRun → Except Raise DecRun
  | [], r => .ok r
  | c :: cs, r =>
    match decStep k rawCap c r with
    | .error e => .error e
    | .ok r' => decScan k rawCap cs r'

/-- Seeding (R152): `DEC_SIZE <- 256; WP <- 0`. `prev` is written before it is read. -/
def decInit (c0 : Nat) (t : Table) : DecRun :=
  { pos := 0, prev := c0, size := 256, table := t, wp := 0, out := [] }

/-- The code sequence as a whole (R153, R154, R160). -/
def decCodes (k rawCap : Nat) (t : Table) : List Nat → Except Raise DecRun
  | [] => .ok (decInit 0 t)
  | c0 :: cs =>
    if 256 ≤ c0 then .error ⟨.decodeError, 0⟩
    else
      match appendSyms rawCap [BitVec.ofNat 8 c0] (decInit c0 t) with
      | .error e => .error e
      | .ok r => decScan k rawCap cs { r with pos := 1 }

/-- The whole command up to completion (R151, R160). -/
def decodeRun (k : Nat) (s : State) : Except Raise DecRun :=
  if !legalWidth k then .error ⟨.unsupportedWidth, 0⟩
  else if s.caps.code.toNat < s.codeLen.toNat then .error ⟨.bufferOverflow, 0⟩
  else decCodes k s.caps.raw.toNat s.decTable (codeInput s)

/-- Completion (R159): `RAW_LEN <- WP`, and `DEC_SIZE` keeps its final value. -/
def decodeFinish (r : DecRun) (s : State) : State :=
  complete
    { produceRaw r.out.reverse s with
      decTable := r.table, decSize := BitVec.ofNat 32 r.size, rawLen := BitVec.ofNat 32 r.wp }

/-- DECODE, complete (R160). -/
def execDecode (k : Nat) (s : State) : Host.Outcome State Fault Refusal :=
  match decodeRun k s with
  | .error e => .next (faultEntry .decode e s)
  | .ok r => .next (decodeFinish r s)

end Sys2Proof.Machine
end

