-- ==== Sys2Proof/Machine/Encoder.lean ====
section
/-! DEFINITION. ENCODE: dictionary builder and code generator (40_encoder R120 to R135). -/

namespace Sys2Proof.Machine

/-- What is fixed during one ENCODE: K, the mode flags (R120) and `CODE_CAP`. -/
structure EncArgs where
  k : Nat
  testing : Bool
  training : Bool
  codeCap : Nat
  deriving DecidableEq, Repr

/-- The working data of a running ENCODE (R43): `POS`, `N_OUT`, `CUR` (absent while `CUR_VALID = 0`), `ENC_SIZE`,
the table, and the codes written to `CODE` so far, newest first (code j from the end is `CODE[j]`, R61). Counts
and codes are natural numbers, as in the rules (R9, R22). -/
structure EncRun where
  pos : Nat
  nOut : Nat
  cur : Option Nat
  size : Nat
  table : Table
  out : List Half
  deriving DecidableEq, Repr

/-- The start checks in their order, and the size the dictionary is seeded to (R122, R123). -/
def encodeStart (k : Nat) (keep testing training : Bool) (s : State) : Except Raise Nat :=
  if training && testing then .error ⟨.configurationError, 0⟩
  else if !legalWidth k then .error ⟨.unsupportedWidth, 0⟩
  else if s.caps.raw.toNat < s.rawLen.toNat then .error ⟨.bufferOverflow, 0⟩
  else if !keep || s.encSize == 0 then .ok 256
  else if capacity k < s.encSize.toNat then .error ⟨.seedCapacityError, 0⟩
  else .ok s.encSize.toNat

/-- `emit(c)` (R125). -/
def emit (a : EncArgs) (c : Nat) (r : EncRun) : Except Raise EncRun :=
  if a.training then .ok { r with nOut := r.nOut + 1 }
  else if a.codeCap ≤ r.nOut then .error ⟨.bufferOverflow, r.pos⟩
  else .ok { r with nOut := r.nOut + 1, out := BitVec.ofNat 16 c :: r.out }

/-- The insertion of the miss branch (R124): only below capacity and not in testing mode. -/
def encInsert (a : EncArgs) (p : Nat) (b : Symbol) (r : EncRun) : EncRun :=
  if r.size < capacity a.k ∧ a.testing = false then
    { r with table := insertEntry r.table r.size p b, size := r.size + 1 }
  else r

/-- The next symbol, with `seq` the sequence of code `c` (the loop's increment of `POS`, R133). -/
def encAdvance (c : Nat) (r : EncRun) : EncRun := { r with cur := some c, pos := r.pos + 1 }

/-- The per-symbol step (R124). The code of `seq` is emitted before the candidate is inserted, and the lookup uses
the dictionary as it is before the insertion. -/
def encStep (a : EncArgs) (b : Symbol) (r : EncRun) : Except Raise EncRun :=
  match r.cur with
  | none => .ok (encAdvance b.toNat r)
  | some p =>
    match efind r.table r.size p b with
    | some c => .ok (encAdvance c r)
    | none =>
      match emit a p r with
      | .error e => .error e
      | .ok r' => .ok (encAdvance b.toNat (encInsert a p b r'))

/-- The scan: `for POS in 0 .. RAW_LEN-1: step(RAW[POS])` (R133). -/
def encScan (a : EncArgs) : List Symbol → EncRun → Except Raise EncRun
  | [], r => .ok r
  | b :: bs, r =>
    match encStep a b r with
    | .error e => .error e
    | .ok r' => encScan a bs r'

/-- The flush of the final pending match (R126). -/
def encFlush (a : EncArgs) (r : EncRun) : Except Raise EncRun :=
  match r.cur with
  | none => .ok r
  | some p => emit a p r

/-- The state of the run when the scan starts (R133): `CUR_VALID <- 0; N_OUT <- 0`. -/
def encInit (size : Nat) (t : Table) : EncRun :=
  { pos := 0, nOut := 0, cur := none, size := size, table := t, out := [] }

/-- What is fixed during the command. -/
def encArgs (k : Nat) (testing training : Bool) (s : State) : EncArgs :=
  { k := k, testing := testing, training := training, codeCap := s.caps.code.toNat }

/-- The whole command up to completion (R133): the final run, or the fault raised. -/
def encodeRun (k : Nat) (keep testing training : Bool) (s : State) : Except Raise EncRun :=
  match encodeStart k keep testing training s with
  | .error e => .error e
  | .ok size =>
    match encScan (encArgs k testing training s) (rawInput s) (encInit size s.encTable) with
    | .error e => .error e
    | .ok r => encFlush (encArgs k testing training s) r

/-- The encode dictionary after a successful ENCODE (R127): kept by training and testing, discarded by compress
mode. -/
def encodeKeep (testing training : Bool) (r : EncRun) (s : State) : State :=
  { s with
    encSize := if training || testing then BitVec.ofNat 32 r.size else 0
    encTable := r.table }

/-- Completion (R127): the codes, `CODE_LEN` last (R225), and the dictionary. Training leaves `CODE` and
`CODE_LEN` untouched (R129). -/
def encodeFinish (testing training : Bool) (r : EncRun) (s : State) : State :=
  if training then complete (encodeKeep testing training r s)
  else
    complete
      { produceCode r.out.reverse (encodeKeep testing training r s) with codeLen := BitVec.ofNat 32 r.nOut }

/-- ENCODE, complete (R133). -/
def execEncode (k : Nat) (keep testing training : Bool) (s : State) : Host.Outcome State Fault Refusal :=
  match encodeRun k keep testing training s with
  | .error e => .next (faultEntry (.encode training) e s)
  | .ok r => .next (encodeFinish testing training r s)

end Sys2Proof.Machine
end

