-- ==== Sys2Proof/Machine/Bits.lean ====
section
/-! DEFINITION. Bitstrings (R11): `bin_N`, `val`, consecutive groups, and the padding of the compressed stream
(R72, R182). -/

namespace Sys2Proof.Machine

/-- `bin_N(v)`: the N-bit bitstring of v, most-significant bit first; position i is `v[N-1-i]` (R11). -/
def binN (n v : Nat) : List Bool := (List.range n).map fun i => v.testBit (n - 1 - i)

/-- `val(s)`: the number a bitstring spells, leftmost bit most significant (R11). -/
def val (bits : List Bool) : Nat := bits.foldl (fun acc b => 2 * acc + bitNat b) 0

/-- The first `count` consecutive groups of `size` bits (R184, R204). -/
def groups (size : Nat) : Nat → List Bool → List (List Bool)
  | 0, _ => []
  | count + 1, bits => bits.take size :: groups size count (bits.drop size)

/-- `pad_size = (8 - (T mod 8)) mod 8` with `T = K*n` (R72, R182). -/
def padSize (k n : Nat) : Nat := (8 - k * n % 8) % 8

/-- `nbody = (T + pad_size) div 8` (R72, R184). -/
def bodyLen (k n : Nat) : Nat := (k * n + padSize k n) / 8

end Sys2Proof.Machine
end

