-- ==== Sys2Proof/Machine/Packer.lean ====
section
/-! DEFINITION. PACK: the bit-packer (42_bitpacker R180 to R192; the stream format R72). -/

namespace Sys2Proof.Machine

/-- `B` (R183): every code as exactly K bits, then the zero pad bits. -/
def packBits (k : Nat) (codes : List Nat) : List Bool :=
  codes.flatMap (binN k) ++ List.replicate (padSize k codes.length) false

/-- The compressed stream of a code sequence (R72, R185): the header byte, then the body bytes (R184). -/
def packStream (k : Nat) (codes : List Nat) : List Symbol :=
  BitVec.ofNat 8 (padSize k codes.length) ::
    (groups 8 (bodyLen k codes.length) (packBits k codes)).map fun g => BitVec.ofNat 8 (val g)

/-- The least index of a code of 2^K or more (R186). -/
def codeOutOfRange (k : Nat) (codes : List Nat) : Option Nat :=
  codes.findIdx? fun c => decide (capacity k ≤ c)

/-- The whole command up to completion (R181, R187): the bytes of the stream, or the fault raised. -/
def packRun (k : Nat) (s : State) : Except Raise (List Symbol) :=
  if !legalWidth k then .error ⟨.unsupportedWidth, 0⟩
  else if s.caps.code.toNat < s.codeLen.toNat then .error ⟨.bufferOverflow, 0⟩
  else if s.caps.stream.toNat < 1 + bodyLen k s.codeLen.toNat then .error ⟨.bufferOverflow, 0⟩
  else
    match codeOutOfRange k (codeInput s) with
    | some i => .error ⟨.codeRangeError, i⟩
    | none => .ok (packStream k (codeInput s))

/-- Completion (R185): the writes, then `STREAM_LEN <- 1 + nbody`. -/
def packFinish (bytes : List Symbol) (s : State) : State :=
  complete { produceStream bytes s with streamLen := BitVec.ofNat 32 bytes.length }

/-- PACK, complete (R187). -/
def execPack (k : Nat) (s : State) : Host.Outcome State Fault Refusal :=
  match packRun k s with
  | .error e => .next (faultEntry .pack e s)
  | .ok bytes => .next (packFinish bytes s)

end Sys2Proof.Machine
end

