-- ==== Sys2Proof/Machine/System.lean ====
section
/-! DEFINITION. The RESET command (44_system R222). -/

namespace Sys2Proof.Machine

/-- RESET (R222): every register takes its reset value; no buffer or table element is written; DONE is not set. -/
def execReset (s : State) : Host.Outcome State Fault Refusal := .next (clearRegisters s)

end Sys2Proof.Machine
end

