-- ==== Sys2Proof/Machine/Unpacker.lean ====
section
/-! DEFINITION. UNPACK: the bit-unpacker (43_bitunpacker R200 to R212). -/

namespace Sys2Proof.Machine

/-- The bits of the body bytes, each rendered most-significant bit first (R204). -/
def bodyBits (body : List Symbol) : List Bool := body.flatMap fun b => binN 8 b.toNat

/-- The extraction (R204): drop the pad, split into K-bit groups. The dropped bits are not examined (R206). -/
def unpackCodes (k payload : Nat) (body : List Symbol) : List Half :=
  (groups k (payload / k) ((bodyBits body).take payload)).map fun g => BitVec.ofNat 16 (val g)

/-- The framing checks b to d on the header and the number of body bytes (R203): the payload in bits. The whole
header byte is the number (R202). -/
def framePayload (k header nbody : Nat) : Except Raise Nat :=
  if 7 < header then .error ⟨.framingError, 0⟩
  else if 8 * nbody < header then .error ⟨.framingError, 0⟩
  else if (8 * nbody - header) % k ≠ 0 then .error ⟨.framingError, 0⟩
  else .ok (8 * nbody - header)

/-- The stream as a whole (R203 a, R207): the codes, or the fault raised. -/
def unpackStream (k codeCap : Nat) : List Symbol → Except Raise (List Half)
  | [] => .error ⟨.framingError, 0⟩
  | header :: body =>
    match framePayload k header.toNat body.length with
    | .error e => .error e
    | .ok payload =>
      if codeCap < payload / k then .error ⟨.bufferOverflow, 0⟩
      else .ok (unpackCodes k payload body)

/-- The whole command up to completion (R201, R207). -/
def unpackRun (k : Nat) (s : State) : Except Raise (List Half) :=
  if !legalWidth k then .error ⟨.unsupportedWidth, 0⟩
  else if s.caps.stream.toNat < s.streamLen.toNat then .error ⟨.bufferOverflow, 0⟩
  else unpackStream k s.caps.code.toNat (streamInput s)

/-- Completion (R205): the codes, then `CODE_LEN <- n`. -/
def unpackFinish (codes : List Half) (s : State) : State :=
  complete { produceCode codes s with codeLen := BitVec.ofNat 32 codes.length }

/-- UNPACK, complete (R207). -/
def execUnpack (k : Nat) (s : State) : Host.Outcome State Fault Refusal :=
  match unpackRun k s with
  | .error e => .next (faultEntry .unpack e s)
  | .ok codes => .next (unpackFinish codes s)

end Sys2Proof.Machine
end

