-- ==== Sys2Proof/Machine/Dispatch.lean ====
section
/-! DEFINITION. One arm per command of the opcode table (30_encoding R92). -/

namespace Sys2Proof.Machine

def exec (i : Instr) (s : State) : Host.Outcome State Fault Refusal :=
  match i with
  | .encode k keep testing training => Sys2Proof.Machine.execEncode k keep testing training s
  | .decode k => Sys2Proof.Machine.execDecode k s
  | .pack k => Sys2Proof.Machine.execPack k s
  | .unpack k => Sys2Proof.Machine.execUnpack k s
  | .reset => Sys2Proof.Machine.execReset s

end Sys2Proof.Machine
end

