-- ==== Sys2Proof/Machine/HostPort.lean ====
section
/-! DEFINITION. What the host does to the block: command issue (44_system R220), register operations (R223, R67,
R68), element accesses (R62 to R64), the dictionary window (R50, R66) and the reset input (R280). -/

namespace Sys2Proof.Machine

/-- The registers of `REG` (R68). -/
inductive Reg where
  | cmd
  | status
  | rawLen
  | codeLen
  | streamLen
  | encSize
  | decSize
  | errIndex
  deriving DecidableEq, Repr

/-- The register at a byte offset, if the offset is listed in R68. -/
def regAt (offset : Nat) : Option Reg :=
  if offset = 0x00 then some .cmd
  else if offset = 0x04 then some .status
  else if offset = 0x08 then some .rawLen
  else if offset = 0x0C then some .codeLen
  else if offset = 0x10 then some .streamLen
  else if offset = 0x14 then some .encSize
  else if offset = 0x18 then some .decSize
  else if offset = 0x1C then some .errIndex
  else none

/-- The value a read of a register returns; `CMD` reads 0 (R24, R223). -/
def regValue (s : State) : Reg → Word
  | .cmd => 0
  | .status => s.status.word
  | .rawLen => s.rawLen
  | .codeLen => s.codeLen
  | .streamLen => s.streamLen
  | .encSize => s.encSize
  | .decSize => s.decSize
  | .errIndex => s.errIndex

/-- The value a read at an offset returns; an offset not listed reads 0 (R67). -/
def readOffset (s : State) (offset : Nat) : Word :=
  match regAt offset with
  | some r => regValue s r
  | none => 0

/-- A host write of the command word w to `CMD` in an idle block (R220). In the fault state only RESET is done
and everything else is ignored (R259); otherwise the command is accepted and runs to its end, or its word is
illegal and raises `IllegalCommand` (R249). -/
def issue (w : CmdWord) (s : State) : Host.Outcome State Fault Refusal :=
  if s.status.fault then
    match decode w with
    | .ok .reset => exec .reset s
    | _ => .next s
  else
    match decode w with
    | .error _ => .next (faultEntry .illegal ⟨.illegalCommand, 0⟩ (accept s))
    | .ok i => exec i (accept s)

/-- `WR reg, v` at an offset (R223, R67): `CMD` takes bits 15:0, the length registers take v, anything else is
ignored. -/
def writeOffset (offset : Nat) (v : Word) (s : State) : Host.Outcome State Fault Refusal :=
  match regAt offset with
  | some .cmd => issue (v.setWidth 16) s
  | some .rawLen => .next { s with rawLen := v }
  | some .codeLen => .next { s with codeLen := v }
  | some .streamLen => .next { s with streamLen := v }
  | _ => .next s

/-- The word of one entry of the encode dictionary (R50): SYM in 7:0, PARENT in 23:8, ROOT in bit 24. -/
def dictWord (root : Bool) (parent sym : Nat) : Word :=
  BitVec.ofNat 32 (sym + 256 * parent + 2 ^ 24 * bitNat root)

/-- The entry of a code below `ENC_SIZE` (R50). A table element below `ENC_SIZE` is always written (R33); the
unlisted case is not reached from reset and has no value (log 9). -/
def dictEntry (s : State) (c : Nat) : Option Word :=
  if s.encSize.toNat ≤ c then none
  else if c < 256 then some (dictWord true 0 c)
  else (cellGet s.encTable c).map fun e => dictWord false e.parent.toNat e.sym.toNat

/-- A host read of `ENC_DICT` (R50, R66): exact below `ENC_SIZE`, a free value elsewhere, drawn anew at each read
(log 7). -/
def readDict (c : Nat) (s : State) : State :=
  match dictEntry s c with
  | some v => reply v s
  | none => reply (Config.freeWord s.fresh c) { s with fresh := s.fresh + 1 }

/-- An access to an element that exists (R63). -/
def within (i bound : Nat) (t : State) : Host.Outcome State Fault Refusal :=
  if i < bound then .next t else .refused .noSuchElement

/-- A host operation on an idle block (R62, R66, R67, R223, R280). -/
def idleOp (op : HostOp) (s : State) : Host.Outcome State Fault Refusal :=
  match op with
  | .writeReg offset v =>
    if offset % 4 = 0 then writeOffset offset v s else .refused .misalignedRegister
  | .readReg offset =>
    if offset % 4 = 0 then .next (reply (readOffset s offset) s) else .refused .misalignedRegister
  | .writeRaw i v => within i s.caps.raw.toNat (writeRaw i v s)
  | .readRaw i => within i s.caps.raw.toNat (reply ((readRaw s i).setWidth 32) s)
  | .writeCode i v => within i s.caps.code.toNat (writeCode i v s)
  | .readCode i => within i s.caps.code.toNat (reply ((readCode s i).setWidth 32) s)
  | .writeStream i v => within i s.caps.stream.toNat (writeStream i v s)
  | .readStream i => within i s.caps.stream.toNat (reply ((readStream s i).setWidth 32) s)
  | .writeDict c _ => within c 65536 s
  | .readDict c => within c 65536 (readDict c s)
  | .resetInput => .next (powerOn s)

/-- A host operation while `STATUS.BUSY = 1` (R220, R223, R290): a read of `STATUS` is defined, the reset input
acts (R280), anything else is refused. -/
def busyOp (op : HostOp) (s : State) : Host.Outcome State Fault Refusal :=
  match op with
  | .readReg offset =>
    if offset = 0x04 then .next (reply s.status.word s) else .refused .hostAccessWhileBusy
  | .resetInput => .next (powerOn s)
  | _ => .refused .hostAccessWhileBusy

/-- One host operation. -/
def hostOp (op : HostOp) (s : State) : Host.Outcome State Fault Refusal :=
  if s.status.busy then busyOp op s else idleOp op s

/-- The next host operation is taken and done; with none pending the block waits and loses nothing (R267). -/
def stepHost (s : State) : Host.Outcome State Fault Refusal :=
  match s.pending with
  | [] => .next s
  | op :: rest => hostOp op { s with pending := rest }

/-- The host write that issues a command word (R99: `CMD <- w`). -/
def issueOp (w : CmdWord) : HostOp := .writeReg 0x00 (w.setWidth 32)

/-- The host write of an opcode-table word of `nbits` bits to `CMD`, placed before all other pending operations. -/
def placeWord (s : State) (nbits w : Nat) : State :=
  { s with pending := .writeReg 0x00 (BitVec.ofNat 32 (w % 2 ^ nbits)) :: s.pending }

end Sys2Proof.Machine
end

