-- ==== Sys2Proof/Machine/Step.lean ====
section
/-! DEFINITION. One step: the next operation of the host, a command being one atomic transition (R221, R297).
The block has no program counter and fetches nothing (R46, R81); the next instruction is the command word of the
next host write to `CMD` (log 2). -/

namespace Sys2Proof.Machine

/-- One step of the machine. -/
def step (s : State) : Host.Outcome State Fault Refusal := stepHost s

/-- The state with a command word as what the next step takes: the host's write of it to `CMD`. -/
def State.withFetchWord (s : State) (nbits w : Nat) : State := placeWord s nbits w

end Sys2Proof.Machine
end

