-- ==== Sys2Proof/Machine/Accumulator.lean ====
section
/-! DEFINITION. The equivalent bit-accumulator forms of PACK (42_bitpacker R188) and UNPACK (43_bitunpacker R208).
The accumulator is not architectural state (R45); these functions are here so that their equality with the
bitstring forms can be stated. -/

namespace Sys2Proof.Machine

/-- `while len(ACC) >= 8`: write the first eight bits as a byte and drop them (R188). The bytes written are given
newest first. -/
def drainBytes : List Bool → List Symbol → List Bool × List Symbol
  | b7 :: b6 :: b5 :: b4 :: b3 :: b2 :: b1 :: b0 :: rest, out =>
    drainBytes rest (BitVec.ofNat 8 (val [b7, b6, b5, b4, b3, b2, b1, b0]) :: out)
  | acc, out => (acc, out)

/-- The loop over the codes (R188): `ACC` and the body bytes written, newest first. -/
def packLoop (k : Nat) : List Nat → List Bool × List Symbol → List Bool × List Symbol
  | [], st => st
  | c :: cs, st => packLoop k cs (drainBytes (st.1 ++ binN k c) st.2)

/-- The bytes of R188: the header, the body bytes, and the last byte filled with pad bits if bits are pending. -/
def packByAccumulator (k : Nat) (codes : List Nat) : List Symbol :=
  let pad := padSize k codes.length
  let st := packLoop k codes ([], [])
  let last := if st.1.isEmpty then [] else [BitVec.ofNat 8 (val (st.1 ++ List.replicate pad false))]
  BitVec.ofNat 8 pad :: (st.2.reverse ++ last)

/-- One body byte of R208: append its bits, emit a code if K bits are pending. The codes are given newest first. -/
def unpackByte (k : Nat) (b : Symbol) (st : List Bool × List Half) : List Bool × List Half :=
  let acc := st.1 ++ binN 8 b.toNat
  if k ≤ acc.length then (acc.drop k, BitVec.ofNat 16 (val (acc.take k)) :: st.2) else (acc, st.2)

/-- The loop over the body bytes (R208): the bits left in `ACC` and the codes, newest first. -/
def unpackLoop (k : Nat) : List Symbol → List Bool × List Half → List Bool × List Half
  | [], st => st
  | b :: bs, st => unpackLoop k bs (unpackByte k b st)

end Sys2Proof.Machine
end

