-- ==== Sys2Proof/Machine/HostProgram.lean ====
section
/-! DEFINITION. Host programs: the textual forms LOAD, WR, RD and DUMP of R99 and the pseudo-commands of R100, as
sequences of host operations. They are a way of writing programs down, not an interface of the hardware. -/

namespace Sys2Proof.Machine

/-- Element writes at consecutive indices. -/
def writesFrom {α : Type} (op : Nat → α → HostOp) : Nat → List α → List HostOp
  | _, [] => []
  | i, v :: vs => op i v :: writesFrom op (i + 1) vs

/-- `LOAD RAW, [...]`: the elements, then `RAW_LEN` (R99). -/
def loadRaw (vs : List Symbol) : List HostOp :=
  writesFrom .writeRaw 0 vs ++ [.writeReg 0x08 (BitVec.ofNat 32 vs.length)]

/-- `LOAD CODE, [...]`: the elements, then `CODE_LEN` (R99). -/
def loadCode (vs : List Half) : List HostOp :=
  writesFrom .writeCode 0 vs ++ [.writeReg 0x0C (BitVec.ofNat 32 vs.length)]

/-- `LOAD STREAM, [...]`: the elements, then `STREAM_LEN` (R99). -/
def loadStream (vs : List Symbol) : List HostOp :=
  writesFrom .writeStream 0 vs ++ [.writeReg 0x10 (BitVec.ofNat 32 vs.length)]

/-- `DUMP RAW` of n elements (R99). -/
def dumpRaw (n : Nat) : List HostOp := (List.range n).map .readRaw

/-- `DUMP CODE` of n elements (R99). -/
def dumpCode (n : Nat) : List HostOp := (List.range n).map .readCode

/-- `DUMP STREAM` of n elements (R99). -/
def dumpStream (n : Nat) : List HostOp := (List.range n).map .readStream

/-- The commands a pseudo-command expands to (R100). -/
def expandPseudo : Pseudo → List Instr
  | .compress k => [.encode k false false false, .pack k]
  | .decompress k => [.unpack k, .decode k]
  | .train k => [.encode k false false true]
  | .trainMore k => [.encode k true false true]
  | .testPack k => [.encode k true true false, .pack k]

/-- Commands as the host's writes of their words to `CMD`. -/
def issueAll (is : List Instr) : List HostOp := is.map fun i => issueOp (encode i)

/-- A given number of steps, stopping at the first stop; used to run a host program of that length. -/
def runSteps : Nat → State → Host.Outcome State Fault Refusal
  | 0, s => .next s
  | n + 1, s =>
    match step s with
    | .next t => runSteps n t
    | .fault f => .fault f
    | .refused r => .refused r

end Sys2Proof.Machine
end

