-- ==== Sys2Proof/Machine/SourceLevel.lean ====
section
/-! DEFINITION. The source's own encoder and decoder on sequences (40_encoder R124 and 41_decoder R154 to R158,
quoting the source's algorithms; R21, R34, R39): a dictionary as the list of its sequences in order of their codes,
`seq` as a sequence. The machine runs the table forms of R33 and R40; these forms are here so that their agreement
can be stated, and where an output ends or does not fit. No step uses them (log 21). -/

namespace Sys2Proof.Machine

/-- The source's encoder at some point of the scan. `codes` are the codes emitted and `missed` the candidates that
were no key (R132), both oldest first. -/
structure SrcRun where
  seq : List Symbol
  dict : List (List Symbol)
  codes : List Nat
  missed : List (List Symbol)
  deriving DecidableEq, Repr

/-- The 256 single-symbol sequences, mapped to codes 0..255 (R34). -/
def rootKeys : List (List Symbol) := (List.range 256).map fun i => [BitVec.ofNat 8 i]

/-- The code bound to a key: its place in the order of insertion (R22, R34). -/
def keyCode (dict : List (List Symbol)) (q : List Symbol) : Nat := dict.idxOf q

/-- "For each incoming symbol b" (R124, the source's three steps). -/
def srcStep (k : Nat) (testing : Bool) (b : Symbol) (r : SrcRun) : SrcRun :=
  let candidate := r.seq ++ [b]
  if candidate ∈ r.dict then { r with seq := candidate }
  else
    { seq := [b]
      dict := if r.dict.length < capacity k ∧ testing = false then r.dict ++ [candidate] else r.dict
      codes := r.codes ++ [keyCode r.dict r.seq]
      missed := r.missed ++ [candidate] }

/-- The scan. -/
def srcScan (k : Nat) (testing : Bool) : List Symbol → SrcRun → SrcRun
  | [], r => r
  | b :: bs, r => srcScan k testing bs (srcStep k testing b r)

/-- "seq, initially empty" (R43), a given dictionary, nothing emitted. -/
def srcInit (dict : List (List Symbol)) : SrcRun := { seq := [], dict := dict, codes := [], missed := [] }

/-- The scan and "flush of the final pending match" (R126). -/
def srcEncode (k : Nat) (testing : Bool) (dict : List (List Symbol)) (msg : List Symbol) : SrcRun :=
  let r := srcScan k testing msg (srcInit dict)
  if r.seq = [] then r else { r with codes := r.codes ++ [keyCode r.dict r.seq] }

/-- How many codes the scan has emitted when the first p symbols are processed: `N_OUT` at `POS = p` (R125, R133). -/
def emittedBefore (k : Nat) (testing : Bool) (dict : List (List Symbol)) (msg : List Symbol) (p : Nat) : Nat :=
  (srcScan k testing (msg.take p) (srcInit dict)).codes.length

/-- A dictionary table as the sequences in order of their codes (R34, R42): `seq(c)` for `0 <= c < size`. -/
def tableKeys (t : Table) (size : Nat) : List (List Symbol) := (List.range size).map (seqOf t)

/-- The source's decoder at some point. `entries` are the sequences of the codes read, oldest first: the output is
their concatenation. -/
structure SrcDec where
  seq : List Symbol
  dict : List (List Symbol)
  entries : List (List Symbol)
  deriving DecidableEq, Repr

/-- The entry of a later code (R155, R156, R157, the source's sentences): a known key, the dictionary's next index,
or none. -/
def srcDecEntry (k c : Nat) (r : SrcDec) : Option (List Symbol) :=
  if c < r.dict.length then r.dict[c]?
  else if c = r.dict.length ∧ r.dict.length < capacity k then some (r.seq ++ [firstSym r.seq])
  else none

/-- "Append `entry` to the output. If dictionary size < 2^k, insert ... Set `seq = entry`." (R158). -/
def srcDecUpdate (k : Nat) (entry : List Symbol) (r : SrcDec) : SrcDec :=
  { seq := entry
    dict := if r.dict.length < capacity k then r.dict ++ [r.seq ++ [firstSym entry]] else r.dict
    entries := r.entries ++ [entry] }

/-- The later codes; no result where a code has no entry (R157). -/
def srcDecScan (k : Nat) : List Nat → SrcDec → Option SrcDec
  | [], r => some r
  | c :: cs, r =>
    match srcDecEntry k c r with
    | none => none
    | some entry => srcDecScan k cs (srcDecUpdate k entry r)

/-- The source's decoder: nothing for no code (R153), else the first code and the later ones (R154). -/
def srcDecode (k : Nat) : List Nat → Option SrcDec
  | [] => some { seq := [], dict := rootKeys, entries := [] }
  | c0 :: cs =>
    match rootKeys[c0]? with
    | none => none
    | some q => srcDecScan k cs { seq := q, dict := rootKeys, entries := [q] }

/-- The output of the source's decoder (R154, R158). -/
def SrcDec.output (r : SrcDec) : List Symbol := r.entries.flatten

end Sys2Proof.Machine
end

