-- ==== Sys2Proof/Safety.lean ====
section
/-! DEFINITION. What counts as a sound state, in the terms the claims use: the invariants that the spec states of
every reachable state. -/

namespace Sys2Proof.Machine

/-- The flags are as R25 says: BUSY is never seen (R297), DONE and FAULT are never both 1, `ERR` is 0 and so is
`ERR_INDEX` (R31) when FAULT is 0, and a cause of R241 when FAULT is 1. -/
structure Status.Sound (f : Status) (errIndex : Word) : Prop where
  idle : f.busy = false
  notBoth : ¬(f.done = true ∧ f.fault = true)
  clear : f.fault = false → f.err = 0 ∧ errIndex = 0
  cause : f.fault = true → 1 ≤ f.err.toNat ∧ f.err.toNat ≤ 8

/-- The size registers hold 0 or 256..65536 (R29, R30). -/
def sizeLegal (n : Word) : Prop := n = 0 ∨ (256 ≤ n.toNat ∧ n.toNat ≤ 65536)

/-- Every code from 256 up to the size has an entry, whose parent is a smaller code (R33, R35 (a), R40). -/
def parentsSmaller (t : Table) (size : Nat) : Prop :=
  ∀ c, 256 ≤ c → c < size → ∃ e, cellGet t c = some e ∧ e.parent.toNat < c

/-- No two codes below the size have the same entry (R35 (b)). -/
def entriesDistinct (t : Table) (size : Nat) : Prop :=
  ∀ c d e, 256 ≤ c → c < size → 256 ≤ d → d < size →
    cellGet t c = some e → cellGet t d = some e → c = d

/-- Only elements that exist are listed. -/
def cellsBelow {α : Type} (cells : List (Nat × α)) (bound : Nat) : Prop := ∀ x ∈ cells, x.1 < bound

/-- Only extended codes have table elements (R33, R40). -/
def tableCodes (t : Table) : Prop := ∀ x ∈ t, 256 ≤ x.1 ∧ x.1 < 65536

/-- The encode dictionary is well formed (R33, R35). -/
structure EncDictSound (s : State) : Prop where
  canonical : cellsWf s.encTable
  size : sizeLegal s.encSize
  codes : tableCodes s.encTable
  parents : parentsSmaller s.encTable s.encSize.toNat
  distinct : entriesDistinct s.encTable s.encSize.toNat

/-- The decode dictionary is well formed (R30, R40); its sequences need not be distinct (R41). -/
structure DecDictSound (s : State) : Prop where
  size : sizeLegal s.decSize
  codes : tableCodes s.decTable
  parents : parentsSmaller s.decTable s.decSize.toNat

/-- The buffers list only elements that exist (R60, R63), every capacity is at least 1 (R7), all element lists
are in canonical form, and no buffer holds a draw that is still to come. -/
structure BuffersSound (s : State) : Prop where
  canonical : Memory.wf s
  raw : cellsBelow s.raw.cells s.caps.raw.toNat
  code : cellsBelow s.code.cells s.caps.code.toNat
  stream : cellsBelow s.stream.cells s.caps.stream.toNat
  capacities : 1 ≤ s.caps.raw.toNat ∧ 1 ≤ s.caps.code.toNat ∧ 1 ≤ s.caps.stream.toNat
  draws : s.raw.epoch < s.fresh ∧ s.code.epoch < s.fresh ∧ s.stream.epoch < s.fresh

/-- A command that has completed (R225, R220): BUSY is 0, DONE is 1, and FAULT, ERR and ERR_INDEX are as they were. -/
structure Completed (s t : State) : Prop where
  status : t.status = { busy := false, done := true, fault := s.status.fault, err := s.status.err }
  errIndex : t.errIndex = s.errIndex

/-- Every register has its reset value (R51, R222, R281). -/
structure RegistersAtReset (t : State) : Prop where
  status : t.status = { busy := false, done := false, fault := false, err := 0 }
  rawLen : t.rawLen = 0
  codeLen : t.codeLen = 0
  streamLen : t.streamLen = 0
  encSize : t.encSize = 0
  decSize : t.decSize = 0
  errIndex : t.errIndex = 0
  work : t.work = { pos := 0, wp := 0, nOut := 0, curValid := false, cur := 0, prev := 0 }

/-- No element of any buffer or table has a known value (R51, R282). -/
structure NothingKnown (t : State) : Prop where
  raw : t.raw.cells = []
  code : t.code.cells = []
  stream : t.stream.cells = []
  encTable : t.encTable = []
  decTable : t.decTable = []

/-- ENCODE starts from the 256 root entries: KEEP = 0, or no dictionary is held (R123). -/
def FreshStart (keep : Bool) (s : State) : Prop := keep = false ∨ s.encSize = 0

/-- The size ENCODE's dictionary starts with (R123). -/
def startSize (keep : Bool) (s : State) : Nat := if keep = true ∧ s.encSize ≠ 0 then s.encSize.toNat else 256

/-- The code at index j of `CODE` may stand there for DECODE (41_decoder R163 (c), (d)): at most
`min(255 + j, 2^K - 1)`. -/
def Admissible (k : Nat) (s : State) (j : Nat) : Prop :=
  (readCode s j).toNat ≤ 255 + j ∧ (readCode s j).toNat < 2 ^ k

/-- The two states hold the same byte sequence in `RAW` (R26). -/
structure SameRaw (s t : State) : Prop where
  len : t.rawLen = s.rawLen
  elements : ∀ i, i < s.rawLen.toNat → readRaw t i = readRaw s i

/-- The two states hold the same code sequence in `CODE` (R27). -/
structure SameCode (s t : State) : Prop where
  len : t.codeLen = s.codeLen
  elements : ∀ i, i < s.codeLen.toNat → readCode t i = readCode s i

/-- The two states hold the same byte sequence in `STREAM` (R28). -/
structure SameStream (s t : State) : Prop where
  len : t.streamLen = s.streamLen
  elements : ∀ i, i < s.streamLen.toNat → readStream t i = readStream s i

/-- The two blocks have the same capacities and the same flags. -/
structure SameSetting (s t : State) : Prop where
  caps : t.caps = s.caps
  status : t.status = s.status
  errIndex : t.errIndex = s.errIndex

/-- The host operation issues the command word w (R24, R90: bits 31:16 are ignored). -/
def Issues (op : HostOp) (w : CmdWord) : Prop := ∃ v : Word, op = .writeReg 0 v ∧ v.setWidth 16 = w

/-- The words R96 lists as illegal. -/
def ReservedWord (w : CmdWord) : Prop :=
  w.toNat % 16 = 0 ∨ (5 ≤ w.toNat % 16 ∧ w.toNat % 16 ≤ 14) ∨ (w.toNat % 16 = 15 ∧ w.toNat ≠ 15) ∨
    w.toNat / 128 % 2 = 1 ∨ w.toNat / 8192 ≠ 0 ∨
    ((w.toNat % 16 = 2 ∨ w.toNat % 16 = 3 ∨ w.toNat % 16 = 4) ∧ w.toNat / 16 % 8 ≠ 0)

/-- The invariant of the machine. -/
structure Inv (s : State) : Prop where
  status : s.status.Sound s.errIndex
  enc : EncDictSound s
  dec : DecDictSound s
  buffers : BuffersSound s

end Sys2Proof.Machine
end

