-- ==== Sys2Proof/Certificates/Slice0/Obligations.lean ====
section
/-! DEFINITION. The statements for the provers, from the numbered rules of the spec. -/

open Sys2Proof Sys2Proof.Machine

-- Encoding

/-- R91, R93, R99: the word of a well-formed command decodes to it, every field at every value. -/
def Obligations.DecodeInvertsEncode : Prop :=
  ∀ i : Instr, i.wellFormed = true → decode (encode i) = .ok i

/-- R93: a word that decodes is the word of the command it decodes to; no two words decode alike. -/
def Obligations.EncodeInvertsDecode : Prop :=
  ∀ (w : CmdWord) (i : Instr), decode w = .ok i → i.wellFormed = true ∧ encode i = w

/-- R96, R249: which words are illegal, and that an illegal word given to an idle, unfaulted block raises
`IllegalCommand` with `ERR_INDEX = 0` and changes nothing else. -/
def Obligations.ReservedWordsRaiseIllegalCommand : Prop :=
  (∀ w : CmdWord, (∃ r, decode w = .error r) ↔ ReservedWord w) ∧
  ∀ (s : State) (op : HostOp) (rest : List HostOp) (w : CmdWord),
    s.pending = op :: rest → Issues op w → s.status.busy = false → s.status.fault = false → ReservedWord w →
    step s = .next
      { s with pending := rest, status := { busy := false, done := false, fault := true, err := 8 }, errIndex := 0 }

/-- R99's example encodings. -/
def Obligations.ExampleWordsDecode : Prop :=
  decode 0x0901#16 = .ok (.encode 9 false false false) ∧
  decode 0x0911#16 = .ok (.encode 9 false false true) ∧
  decode 0x0961#16 = .ok (.encode 9 true true false) ∧
  decode 0x0C41#16 = .ok (.encode 12 true false false) ∧
  decode 0x1001#16 = .ok (.encode 16 false false false) ∧
  decode 0x0902#16 = .ok (.decode 9) ∧
  decode 0x0903#16 = .ok (.pack 9) ∧
  decode 0x1004#16 = .ok (.unpack 16) ∧
  decode 0x000F#16 = .ok .reset

-- Command issue

/-- R220, R221: a step runs the command whose word the host writes to `CMD`, after the acceptance flags; with
nothing pending a step changes nothing (R267). -/
def Obligations.StepRunsTheIssuedCommand : Prop :=
  (∀ (s : State) (op : HostOp) (rest : List HostOp) (w : CmdWord) (i : Instr),
    s.pending = op :: rest → Issues op w → s.status.busy = false → s.status.fault = false → decode w = .ok i →
    step s = exec i { s with pending := rest, status := { s.status with busy := true, done := false } }) ∧
  ∀ s : State, s.pending = [] → step s = .next s

/-- R259: in the fault state every word but RESET's is ignored, host accesses work as when idle, and `STATUS`
reads `0x04 | ERR<<4` with DONE = 0. -/
def Obligations.FaultStateIgnoresAllButReset : Prop :=
  (∀ (s : State) (op : HostOp) (rest : List HostOp) (w : CmdWord),
    s.pending = op :: rest → Issues op w → s.status.busy = false → s.status.fault = true →
    (w = 0x000F#16 → step s = exec .reset { s with pending := rest }) ∧
    (w ≠ 0x000F#16 → step s = .next { s with pending := rest })) ∧
  (∀ (s t : State) (op : HostOp) (f : Status),
    s.status.busy = false → f.busy = false → (∀ w, ¬Issues op w) → op ≠ .resetInput → op ≠ .readReg 0x04 →
    hostOp op s = .next t → hostOp op { s with status := f } = .next { t with status := f }) ∧
  ∀ s : State, s.status.Sound s.errIndex → s.status.fault = true →
    s.status.word = BitVec.ofNat 32 (0x04 + 16 * s.status.err.toNat) ∧ s.status.done = false

/-- R220, R223, R280, R290: while BUSY = 1 a read of `STATUS` is answered, the reset input acts, and any other host
access is refused. -/
def Obligations.BusyBlockRefusesTheHost : Prop :=
  ∀ (s : State) (op : HostOp) (rest : List HostOp), s.pending = op :: rest → s.status.busy = true →
    (op = .readReg 0x04 → step s = .next { s with pending := rest, replies := s.status.word :: s.replies }) ∧
    (op = .resetInput → ∃ t, step s = .next t ∧ RegistersAtReset t) ∧
    (op ≠ .readReg 0x04 → op ≠ .resetInput → step s = .refused .hostAccessWhileBusy)

/-- R222: RESET gives every register its reset value and writes nothing else; it is accepted when idle and in the
fault state; nothing but it and the reset input leaves the fault state. -/
def Obligations.ResetCommandClearsTheRegisters : Prop :=
  (∀ s : State, exec .reset s = .next
    { s with
      status := { busy := false, done := false, fault := false, err := 0 }
      rawLen := 0, codeLen := 0, streamLen := 0, encSize := 0, decSize := 0, errIndex := 0
      work := { pos := 0, wp := 0, nOut := 0, curValid := false, cur := 0, prev := 0 } }) ∧
  (∀ (s : State) (op : HostOp) (rest : List HostOp), s.pending = op :: rest → Issues op 0x000F#16 →
    s.status.busy = false → step s = exec .reset { s with pending := rest }) ∧
  ∀ (s t : State) (op : HostOp) (rest : List HostOp), s.pending = op :: rest → s.status.fault = true →
    step s = .next t → t.status.fault = false → op = .resetInput ∨ Issues op 0x000F#16

/-- R51, R281, R282: the values after power-on; the reset input, in any state, sets every register to them and
leaves every buffer and table element unspecified; the RESET command sets the same values and leaves buffers and
tables as they were. -/
def Obligations.ResetEventSetsResetValues : Prop :=
  (RegistersAtReset State.reset ∧ NothingKnown State.reset) ∧
  (∀ (s : State) (rest : List HostOp), s.pending = .resetInput :: rest →
    ∃ t, step s = .next t ∧ RegistersAtReset t ∧ NothingKnown t) ∧
  ∀ (s : State) (op : HostOp) (rest : List HostOp), s.pending = op :: rest → Issues op 0x000F#16 →
    s.status.busy = false →
    ∃ t, step s = .next t ∧ RegistersAtReset t ∧ t.raw = s.raw ∧ t.code = s.code ∧ t.stream = s.stream ∧
      t.encTable = s.encTable ∧ t.decTable = s.decTable

-- Faults

/-- R65, R254, R257, R258: what taking a fault does, for each raising command; and a data command either completes or takes
a fault in this way. Two clauses are the model's readings, not the spec's words: that a faulting training ENCODE keeps
`CODE` (log 15, from R65 (c)), and that the fault is entered from the state in which the command started, tables
included (log 10, from R254). -/
def Obligations.FaultEntryRecordsTheFault : Prop :=
  (∀ (x : Raiser) (c : Cause) (idx : Nat) (s t : State), t = faultEntry x ⟨c, idx⟩ s →
    t.status = { busy := false, done := false, fault := true, err := c.code } ∧
    t.errIndex = BitVec.ofNat 32 idx ∧
    t.rawLen = (if x = .decode then 0 else s.rawLen) ∧
    t.codeLen = (if x = .encode false ∨ x = .unpack then 0 else s.codeLen) ∧
    t.streamLen = (if x = .pack then 0 else s.streamLen) ∧
    t.encSize = (if x = .encode true ∨ x = .encode false then 0 else s.encSize) ∧
    t.decSize = (if x = .decode then 0 else s.decSize) ∧
    (if x = .decode then t.raw.cells = [] else t.raw = s.raw) ∧
    (if x = .encode false ∨ x = .unpack then t.code.cells = [] else t.code = s.code) ∧
    (if x = .pack then t.stream.cells = [] else t.stream = s.stream)) ∧
  (∀ (k : Nat) (keep testing training : Bool) (s : State),
    ∃ t, exec (.encode k keep testing training) s = .next t ∧
      (Completed s t ∨ ∃ c idx, t = faultEntry (.encode training) ⟨c, idx⟩ s)) ∧
  (∀ (k : Nat) (s : State), ∃ t, exec (.decode k) s = .next t ∧
    (Completed s t ∨ ∃ c idx, t = faultEntry .decode ⟨c, idx⟩ s)) ∧
  (∀ (k : Nat) (s : State), ∃ t, exec (.pack k) s = .next t ∧
    (Completed s t ∨ ∃ c idx, t = faultEntry .pack ⟨c, idx⟩ s)) ∧
  ∀ (k : Nat) (s : State), ∃ t, exec (.unpack k) s = .next t ∧
    (Completed s t ∨ ∃ c idx, t = faultEntry .unpack ⟨c, idx⟩ s)

/-- R224, R226: every issued command ends, with BUSY = 0 and exactly one of DONE and FAULT, or for RESET neither. -/
def Obligations.EveryCommandEndsDoneOrFaulted : Prop :=
  ∀ (s : State) (op : HostOp) (rest : List HostOp) (w : CmdWord),
    s.pending = op :: rest → Issues op w → s.status.busy = false → s.status.Sound s.errIndex →
    ∃ t, step s = .next t ∧ t.status.busy = false ∧
      (w = 0x000F#16 → t.status.done = false ∧ t.status.fault = false) ∧
      (w ≠ 0x000F#16 →
        (t.status.done = true ∧ t.status.fault = false) ∨ (t.status.done = false ∧ t.status.fault = true))

/-- R253: at most one fault is ever recorded: a step from the fault state that stays in it keeps the flags and
`ERR_INDEX`. -/
def Obligations.FirstFaultIsKept : Prop :=
  ∀ s t : State, s.status.fault = true → step s = .next t → t.status.fault = true →
    t.status = s.status ∧ t.errIndex = s.errIndex

-- The invariant

/-- The state after reset meets the invariant. The capacities of State.reset are the model's choice (log 4). -/
def Obligations.InvAtReset : Prop := Inv State.reset

/-- R25, R29, R30, R33, R35, R39, R40, R63: every step keeps the invariant. -/
def Obligations.StepKeepsInv : Prop :=
  ∀ s t : State, Inv s → step s = .next t → Inv t

/-- The capacities never change (R7), a step takes the oldest pending operation, replies are only added, and free
values are drawn in order (the model's own fields, log 2, 3, 6). -/
def Obligations.StepKeepsTheParameters : Prop :=
  ∀ s t : State, step s = .next t →
    t.caps = s.caps ∧ t.pending = s.pending.tail ∧
    (t.replies = s.replies ∨ ∃ v, t.replies = v :: s.replies) ∧ s.fresh ≤ t.fresh

-- ENCODE

/-- R122: the start checks of ENCODE, in their order. -/
def Obligations.EncodeStartChecks : Prop :=
  (∀ (k : Nat) (keep : Bool) (s : State),
    exec (.encode k keep true true) s = .next (faultEntry (.encode true) ⟨.configurationError, 0⟩ s)) ∧
  ∀ (k : Nat) (keep testing training : Bool) (s : State), ¬(testing = true ∧ training = true) →
    (k < 9 ∨ 16 < k →
      exec (.encode k keep testing training) s =
        .next (faultEntry (.encode training) ⟨.unsupportedWidth, 0⟩ s)) ∧
    (9 ≤ k → k ≤ 16 → s.caps.raw.toNat < s.rawLen.toNat →
      exec (.encode k keep testing training) s =
        .next (faultEntry (.encode training) ⟨.bufferOverflow, 0⟩ s)) ∧
    (9 ≤ k → k ≤ 16 → s.rawLen.toNat ≤ s.caps.raw.toNat → keep = true → 2 ^ k < s.encSize.toNat →
      exec (.encode k keep testing training) s =
        .next (faultEntry (.encode training) ⟨.seedCapacityError, 0⟩ s))

/-- R133, R134 (a), (c), R248: when ENCODE completes, and how many codes it can write. -/
def Obligations.EncodeCompletes : Prop :=
  ∀ (k : Nat) (keep testing training : Bool) (s : State),
    ¬(testing = true ∧ training = true) → 9 ≤ k → k ≤ 16 → s.rawLen.toNat ≤ s.caps.raw.toNat →
    startSize keep s ≤ 2 ^ k → (training = false → s.rawLen.toNat ≤ s.caps.code.toNat) →
    ∃ t, exec (.encode k keep testing training) s = .next t ∧ Completed s t ∧
      (training = false → t.codeLen.toNat ≤ s.rawLen.toNat ∧ (s.rawLen ≠ 0 → t.codeLen ≠ 0)) ∧
      (training = true → t.codeLen = s.codeLen ∧ t.code = s.code)

/-- R34, R38, R124 to R127: ENCODE does what the source's algorithm on sequences does: the same codes, and the
same dictionary where it is kept. `CODE` need only have room for the codes themselves. -/
def Obligations.EncodeMatchesTheSourceAlgorithm : Prop :=
  ∀ (k : Nat) (keep testing training : Bool) (s : State) (r : SrcRun),
    ¬(testing = true ∧ training = true) → 9 ≤ k → k ≤ 16 → s.rawLen.toNat ≤ s.caps.raw.toNat →
    startSize keep s ≤ 2 ^ k → cellsWf s.encTable → (FreshStart keep s ∨ EncDictSound s) →
    r = srcEncode k testing (tableKeys s.encTable (startSize keep s)) (rawInput s) →
    (training = false → r.codes.length ≤ s.caps.code.toNat) →
    ∃ t, exec (.encode k keep testing training) s = .next t ∧ Completed s t ∧
      (training = false → codeInput t = r.codes) ∧
      (training = true ∨ testing = true → tableKeys t.encTable t.encSize.toNat = r.dict) ∧
      (training = false → testing = false → t.encSize = 0)

/-- R125, R126, R248 (c), R250: an ENCODE that writes codes and finds no room at an emission faults with the index
of the symbol it is processing, or `RAW_LEN` at the flush. The fault is entered from the state in which the command
started, tables included (the model's reading of R254, log 10). -/
def Obligations.EncodeOverflowsAtTheCodeThatDoesNotFit : Prop :=
  ∀ (k : Nat) (keep testing : Bool) (s : State) (dict : List (List Symbol)),
    9 ≤ k → k ≤ 16 → s.rawLen.toNat ≤ s.caps.raw.toNat → startSize keep s ≤ 2 ^ k →
    cellsWf s.encTable → (FreshStart keep s ∨ EncDictSound s) →
    dict = tableKeys s.encTable (startSize keep s) →
    (∀ p, p < s.rawLen.toNat → emittedBefore k testing dict (rawInput s) p = s.caps.code.toNat →
      emittedBefore k testing dict (rawInput s) (p + 1) = s.caps.code.toNat + 1 →
      exec (.encode k keep testing false) s = .next (faultEntry (.encode false) ⟨.bufferOverflow, p⟩ s)) ∧
    (s.rawLen ≠ 0 → emittedBefore k testing dict (rawInput s) s.rawLen.toNat = s.caps.code.toNat →
      exec (.encode k keep testing false) s =
        .next (faultEntry (.encode false) ⟨.bufferOverflow, s.rawLen.toNat⟩ s))

/-- R131: the capacity bound. -/
def Obligations.EncodeCapacityBound : Prop :=
  (∀ (k : Nat) (keep testing training : Bool) (s : State) (n : Nat), sizeLegal s.encSize →
    encodeStart k keep testing training s = .ok n → 256 ≤ n ∧ n ≤ 2 ^ k) ∧
  ∀ (a : EncArgs) (msg : List Symbol) (r r₁ r₂ : EncRun), 256 ≤ r.size → r.size ≤ 2 ^ a.k →
    encScan a msg r = .ok r₁ → encFlush a r₁ = .ok r₂ →
    256 ≤ r₁.size ∧ r₁.size ≤ 2 ^ a.k ∧ r.size ≤ r₁.size ∧ r₁.size + r.nOut ≤ r.size + r₁.nOut ∧
      (r.size = 2 ^ a.k → r₁.size = 2 ^ a.k) ∧ r₂.size = r₁.size

/-- R130: every code of a successful ENCODE fits K bits, so a PACK at the same K never raises `CodeRangeError`. -/
def Obligations.EncodedCodesFitTheWidth : Prop :=
  ∀ (k : Nat) (keep testing : Bool) (s t : State), (FreshStart keep s ∨ EncDictSound s) →
    exec (.encode k keep testing false) s = .next t → t.status.fault = false →
    (∀ i, i < t.codeLen.toNat → (readCode t i).toNat < 2 ^ k) ∧
    ∀ u, exec (.pack k) t = .next u → u.status.fault = true → u.status.err = Cause.bufferOverflow.code

/-- R128: testing mode inserts nothing; from the root entries it writes one code per symbol, the symbol itself. -/
def Obligations.TestingModeFreezesTheDictionary : Prop :=
  (∀ (k : Nat) (keep training : Bool) (s t : State), exec (.encode k keep true training) s = .next t →
    t.status.fault = false → t.encTable = s.encTable ∧ t.encSize.toNat = startSize keep s) ∧
  ∀ (k : Nat) (keep : Bool) (s : State), FreshStart keep s → 9 ≤ k → k ≤ 16 →
    s.rawLen.toNat ≤ s.caps.raw.toNat → s.rawLen.toNat ≤ s.caps.code.toNat →
    ∃ t, exec (.encode k keep true false) s = .next t ∧ Completed s t ∧ t.encSize = 256 ∧
      t.codeLen = s.rawLen ∧ ∀ i, i < s.rawLen.toNat → readCode t i = (readRaw s i).setWidth 16

/-- R129: training mode writes no code, and builds the dictionary that the compress-mode scan builds. -/
def Obligations.TrainingModeBuildsTheDictionary : Prop :=
  (∀ (k : Nat) (keep testing : Bool) (s t : State), exec (.encode k keep testing true) s = .next t →
    t.code = s.code ∧ t.codeLen = s.codeLen) ∧
  ∀ (k : Nat) (keep : Bool) (s : State) (r : EncRun), encodeRun k keep false false s = .ok r →
    ∃ t, exec (.encode k keep false true) s = .next t ∧ Completed s t ∧
      t.encSize = BitVec.ofNat 32 r.size ∧ t.encTable = r.table

/-- R132: training is determined by the input and K; the size is 256 plus the number of distinct candidates that
missed, at most 2^K. -/
def Obligations.TrainedSizeCountsDistinctMisses : Prop :=
  (∀ (k : Nat) (keep : Bool) (s t : State), FreshStart keep s → cellsWf s.encTable →
    exec (.encode k keep false true) s = .next t → t.status.fault = false →
    t.encSize.toNat = min (256 + (srcEncode k false rootKeys (rawInput s)).missed.dedup.length) (2 ^ k)) ∧
  ∀ (k : Nat) (keep₁ keep₂ : Bool) (s₁ s₂ t₁ t₂ : State),
    FreshStart keep₁ s₁ → FreshStart keep₂ s₂ → cellsWf s₁.encTable → cellsWf s₂.encTable → SameRaw s₁ s₂ →
    exec (.encode k keep₁ false true) s₁ = .next t₁ → t₁.status.fault = false →
    exec (.encode k keep₂ false true) s₂ = .next t₂ → t₂.status.fault = false →
    t₁.encSize = t₂.encSize ∧
      ∀ c, 256 ≤ c → c < t₁.encSize.toNat → cellGet t₁.encTable c = cellGet t₂.encTable c

/-- R285: what becomes of the encode dictionary in each event. -/
def Obligations.EncodeDictionaryLifecycle : Prop :=
  (∀ (k : Nat) (keep : Bool) (s t : State), exec (.encode k keep false false) s = .next t → t.encSize = 0) ∧
  (∀ (k : Nat) (keep testing training : Bool) (s t : State), s.status.fault = false →
    exec (.encode k keep testing training) s = .next t → t.status.fault = true → t.encSize = 0) ∧
  (∀ (k : Nat) (keep : Bool) (s t : State), exec (.encode k keep true false) s = .next t →
    t.status.fault = false → t.encSize.toNat = startSize keep s ∧ t.encTable = s.encTable) ∧
  (∀ (k : Nat) (keep : Bool) (s t : State), sizeLegal s.encSize →
    exec (.encode k keep false true) s = .next t → t.status.fault = false →
    startSize keep s ≤ t.encSize.toNat ∧
      ∀ c, c < startSize keep s → cellGet t.encTable c = cellGet s.encTable c) ∧
  (∀ (k : Nat) (s t : State), exec (.decode k) s = .next t ∨ exec (.pack k) s = .next t ∨
    exec (.unpack k) s = .next t → t.encSize = s.encSize ∧ t.encTable = s.encTable) ∧
  (∀ s t : State, exec .reset s = .next t → t.encSize = 0) ∧
  ∀ (s t : State) (rest : List HostOp), s.pending = .resetInput :: rest → step s = .next t → t.encSize = 0

/-- R35 (c): in a well-formed encode dictionary no two codes have the same sequence, and the sequence of an
extended entry without its last symbol is the sequence of its parent. -/
def Obligations.EncodeDictionaryKeysAreUnique : Prop :=
  ∀ s : State, EncDictSound s →
    (∀ c d, c < s.encSize.toNat → d < s.encSize.toNat → seqOf s.encTable c = seqOf s.encTable d → c = d) ∧
    (∀ c, c < s.encSize.toNat → ∀ p, p <+: seqOf s.encTable c → p ≠ [] →
      ∃ d, d < s.encSize.toNat ∧ seqOf s.encTable d = p)

/-- R38: whether a candidate is a key is decided by `efind`, and then its code is what `efind` finds; a candidate of
one symbol is always a key, with its own value as code. -/
def Obligations.CandidateIsKeyWhenFound : Prop :=
  ∀ (s : State) (p : Nat) (b : Symbol), EncDictSound s → p < s.encSize.toNat →
    (seqOf s.encTable p ++ [b] ∈ tableKeys s.encTable s.encSize.toNat ↔
      efind s.encTable s.encSize.toNat p b ≠ none) ∧
    (∀ c, efind s.encTable s.encSize.toNat p b = some c →
      c < s.encSize.toNat ∧ seqOf s.encTable c = seqOf s.encTable p ++ [b]) ∧
    (b.toNat < s.encSize.toNat ∧ seqOf s.encTable b.toNat = [b])

-- DECODE

/-- R151: the start checks of DECODE, in their order. -/
def Obligations.DecodeStartChecks : Prop :=
  ∀ (k : Nat) (s : State),
    (k < 9 ∨ 16 < k → exec (.decode k) s = .next (faultEntry .decode ⟨.unsupportedWidth, 0⟩ s)) ∧
    (9 ≤ k → k ≤ 16 → s.caps.code.toNat < s.codeLen.toNat →
      exec (.decode k) s = .next (faultEntry .decode ⟨.bufferOverflow, 0⟩ s))

/-- R153: the empty input. -/
def Obligations.DecodeOfNothingIsEmpty : Prop :=
  ∀ (k : Nat) (s : State), 9 ≤ k → k ≤ 16 → s.codeLen = 0 →
    ∃ t, exec (.decode k) s = .next t ∧ Completed s t ∧ t.rawLen = 0 ∧ t.decSize = 256

/-- R154 to R159: when DECODE completes, and with what. The source's decoder has a result exactly when every code
may stand where it stands; if `RAW` has room for its output, DECODE completes with that output, which is the
sequences of the codes in order, with its dictionary, in which each later code inserted the previous sequence
extended by its own first symbol, and with the size of R158. -/
def Obligations.DecodeWritesTheCodesSequences : Prop :=
  (∀ (k : Nat) (s : State), 9 ≤ k → k ≤ 16 →
    ((∃ r, srcDecode k (codeInput s) = some r) ↔ ∀ j, j < s.codeLen.toNat → Admissible k s j)) ∧
  ∀ (k : Nat) (s : State) (r : SrcDec), 9 ≤ k → k ≤ 16 → s.codeLen.toNat ≤ s.caps.code.toNat →
    srcDecode k (codeInput s) = some r → r.output.length ≤ s.caps.raw.toNat →
    ∃ t, exec (.decode k) s = .next t ∧ Completed s t ∧ rawInput t = r.output ∧
      rawInput t = (codeInput s).flatMap (seqOf t.decTable) ∧
      tableKeys t.decTable t.decSize.toNat = r.dict ∧
      t.decSize.toNat = min (256 + (s.codeLen.toNat - 1)) (2 ^ k) ∧
      ∀ j, 1 ≤ j → j < s.codeLen.toNat → 255 + j < 2 ^ k →
        cellGet t.decTable (255 + j) =
          some { parent := readCode s (j - 1), sym := firstSym (seqOf t.decTable (readCode s j).toNat) }

/-- R243, R157, R163 (c), (d): DECODE raises `DecodeError` exactly at the first code that may not stand where it
stands, if the output before it fits. The fault is entered from the state in which the command started (the model's
reading of R254, log 10). -/
def Obligations.DecodeErrorNamesTheFirstBadCode : Prop :=
  (∀ (k : Nat) (s t : State), exec (.decode k) s = .next t → t.status.done = false →
    t.status.err = Cause.decodeError.code →
    t.errIndex.toNat < s.codeLen.toNat ∧ ¬Admissible k s t.errIndex.toNat ∧
      ∀ j, j < t.errIndex.toNat → Admissible k s j) ∧
  ∀ (k : Nat) (s : State) (n : Nat), 9 ≤ k → k ≤ 16 → s.codeLen.toNat ≤ s.caps.code.toNat →
    n < s.codeLen.toNat → ¬Admissible k s n → (∀ j, j < n → Admissible k s j) →
    ∃ r, srcDecode k ((codeInput s).take n) = some r ∧
      (r.output.length ≤ s.caps.raw.toNat →
        exec (.decode k) s = .next (faultEntry .decode ⟨.decodeError, n⟩ s))

/-- R158, R163 (g), R248 (d), R250: a DECODE whose output outgrows `RAW` faults with the index of the code whose
sequence does not fit. The fault is entered from the state in which the command started (the model's reading of
R254, log 10). -/
def Obligations.DecodeOverflowsAtTheCodeThatDoesNotFit : Prop :=
  ∀ (k : Nat) (s : State) (n : Nat) (before withIt : SrcDec), 9 ≤ k → k ≤ 16 →
    s.codeLen.toNat ≤ s.caps.code.toNat → n < s.codeLen.toNat →
    srcDecode k ((codeInput s).take n) = some before →
    srcDecode k ((codeInput s).take (n + 1)) = some withIt →
    before.output.length ≤ s.caps.raw.toNat → s.caps.raw.toNat < withIt.output.length →
    exec (.decode k) s = .next (faultEntry .decode ⟨.bufferOverflow, n⟩ s)

/-- R162: DECODE inverts an ENCODE that started from the root entries and wrote codes, at the same K, and rebuilds
its dictionary. -/
def Obligations.DecodeInvertsEncodeCommand : Prop :=
  ∀ (k : Nat) (keep testing : Bool) (s t : State) (r : EncRun), FreshStart keep s → cellsWf s.encTable →
    encodeRun k keep testing false s = .ok r →
    exec (.encode k keep testing false) s = .next t →
    ∃ u, exec (.decode k) t = .next u ∧ Completed t u ∧ SameRaw s u ∧
      ∀ c, c < r.size → c < u.decSize.toNat → seqOf u.decTable c = seqOf r.table c

/-- R163 (h): a fresh-dictionary ENCODE decoded at another width gives the right output or a `DecodeError`, and the
right output if the decoder's width is not the smaller one. -/
def Obligations.DecodeAtAnotherWidthIsRightOrFaults : Prop :=
  ∀ (ke kd : Nat) (keep testing : Bool) (s t u : State), FreshStart keep s → cellsWf s.encTable →
    9 ≤ kd → kd ≤ 16 →
    exec (.encode ke keep testing false) s = .next t → t.status.fault = false →
    exec (.decode kd) t = .next u →
    ((Completed t u ∧ SameRaw s u) ∨
      (u.status = { busy := false, done := false, fault := true, err := Cause.decodeError.code })) ∧
    (ke ≤ kd → Completed t u ∧ SameRaw s u)

-- PACK

/-- R181: the start checks of PACK, in their order. -/
def Obligations.PackStartChecks : Prop :=
  ∀ (k : Nat) (s : State),
    (k < 9 ∨ 16 < k → exec (.pack k) s = .next (faultEntry .pack ⟨.unsupportedWidth, 0⟩ s)) ∧
    (9 ≤ k → k ≤ 16 → s.caps.code.toNat < s.codeLen.toNat →
      exec (.pack k) s = .next (faultEntry .pack ⟨.bufferOverflow, 0⟩ s)) ∧
    (9 ≤ k → k ≤ 16 → s.codeLen.toNat ≤ s.caps.code.toNat →
      s.caps.stream.toNat < 1 + (k * s.codeLen.toNat + 7) / 8 →
      exec (.pack k) s = .next (faultEntry .pack ⟨.bufferOverflow, 0⟩ s))

/-- R186: `CodeRangeError` at the first code of 2^K or more; at K = 16 it cannot occur. -/
def Obligations.PackFaultsAtTheFirstWideCode : Prop :=
  (∀ (k : Nat) (s : State) (i : Nat), 9 ≤ k → k ≤ 16 → s.codeLen.toNat ≤ s.caps.code.toNat →
    1 + (k * s.codeLen.toNat + 7) / 8 ≤ s.caps.stream.toNat → i < s.codeLen.toNat →
    2 ^ k ≤ (readCode s i).toNat → (∀ j, j < i → (readCode s j).toNat < 2 ^ k) →
    exec (.pack k) s = .next (faultEntry .pack ⟨.codeRangeError, i⟩ s)) ∧
  ∀ s t : State, exec (.pack 16) s = .next t → t.status ≠ Status.faulted .codeRangeError

/-- R72, R73, R182 to R185: when PACK completes, and the stream it writes, bit by bit. -/
def Obligations.PackWritesTheStream : Prop :=
  ∀ (k : Nat) (s : State), 9 ≤ k → k ≤ 16 → s.codeLen.toNat ≤ s.caps.code.toNat →
    1 + (k * s.codeLen.toNat + 7) / 8 ≤ s.caps.stream.toNat →
    (∀ i, i < s.codeLen.toNat → (readCode s i).toNat < 2 ^ k) →
    ∃ t, exec (.pack k) s = .next t ∧ Completed s t ∧
      t.streamLen.toNat = 1 + (k * s.codeLen.toNat + 7) / 8 ∧
      (readStream t 0).toNat = (8 - k * s.codeLen.toNat % 8) % 8 ∧
      (∀ j i, j < (k * s.codeLen.toNat + 7) / 8 → i < 8 →
        (readStream t (1 + j)).getLsbD i =
          if 8 * j + (7 - i) < k * s.codeLen.toNat then
            (readCode s ((8 * j + (7 - i)) / k)).getLsbD (k - 1 - (8 * j + (7 - i)) % k)
          else false) ∧
      ∀ q m, q < s.codeLen.toNat → m < k →
        (readCode s q).getLsbD m =
          (readStream t (1 + (q * k + (k - 1 - m)) / 8)).getLsbD (7 - (q * k + (k - 1 - m)) % 8)

/-- R189: the padding and the length of a successful PACK. -/
def Obligations.PackPaddingIsCorrect : Prop :=
  ∀ (k : Nat) (s t : State), exec (.pack k) s = .next t → t.status.fault = false →
    (readStream t 0).toNat ≤ 7 ∧ (readStream t 0).toNat < k ∧
    t.streamLen.toNat = 1 + (k * s.codeLen.toNat + 7) / 8 ∧
    8 * (t.streamLen.toNat - 1) = k * s.codeLen.toNat + (readStream t 0).toNat

/-- R188: the bit-accumulator form writes the same bytes. -/
def Obligations.PackAccumulatorWritesTheSameBytes : Prop :=
  ∀ (k : Nat) (codes : List Nat), 9 ≤ k → k ≤ 16 → packByAccumulator k codes = packStream k codes

-- UNPACK

/-- R201, R203: the start and framing checks of UNPACK, in their order. -/
def Obligations.UnpackStartChecks : Prop :=
  ∀ (k : Nat) (s : State),
    (k < 9 ∨ 16 < k → exec (.unpack k) s = .next (faultEntry .unpack ⟨.unsupportedWidth, 0⟩ s)) ∧
    (9 ≤ k → k ≤ 16 → s.caps.stream.toNat < s.streamLen.toNat →
      exec (.unpack k) s = .next (faultEntry .unpack ⟨.bufferOverflow, 0⟩ s)) ∧
    (9 ≤ k → k ≤ 16 → s.streamLen.toNat ≤ s.caps.stream.toNat →
      (s.streamLen = 0 ∨ 7 < (readStream s 0).toNat ∨ 8 * (s.streamLen.toNat - 1) < (readStream s 0).toNat ∨
        (8 * (s.streamLen.toNat - 1) - (readStream s 0).toNat) % k ≠ 0) →
      exec (.unpack k) s = .next (faultEntry .unpack ⟨.framingError, 0⟩ s)) ∧
    (9 ≤ k → k ≤ 16 → s.streamLen.toNat ≤ s.caps.stream.toNat → s.streamLen ≠ 0 →
      (readStream s 0).toNat ≤ 7 → (readStream s 0).toNat ≤ 8 * (s.streamLen.toNat - 1) →
      (8 * (s.streamLen.toNat - 1) - (readStream s 0).toNat) % k = 0 →
      s.caps.code.toNat < (8 * (s.streamLen.toNat - 1) - (readStream s 0).toNat) / k →
      exec (.unpack k) s = .next (faultEntry .unpack ⟨.bufferOverflow, 0⟩ s))

/-- R204, R205: when UNPACK completes, and the codes it writes, bit by bit. -/
def Obligations.UnpackWritesTheCodes : Prop :=
  ∀ (k : Nat) (s : State) (n : Nat), 9 ≤ k → k ≤ 16 → s.streamLen.toNat ≤ s.caps.stream.toNat →
    s.streamLen ≠ 0 → (readStream s 0).toNat ≤ 7 →
    8 * (s.streamLen.toNat - 1) = k * n + (readStream s 0).toNat → n ≤ s.caps.code.toNat →
    ∃ t, exec (.unpack k) s = .next t ∧ Completed s t ∧ t.codeLen.toNat = n ∧
      ∀ q m, q < n → m < 16 →
        (readCode t q).getLsbD m =
          if m < k then
            (readStream s (1 + (q * k + (k - 1 - m)) / 8)).getLsbD (7 - (q * k + (k - 1 - m)) % 8)
          else false

/-- R206: the dropped pad bits are not examined: two streams that differ only there unpack alike. -/
def Obligations.UnpackIgnoresThePadBits : Prop :=
  ∀ (k : Nat) (s₁ s₂ t₁ t₂ : State), SameSetting s₁ s₂ → s₂.streamLen = s₁.streamLen →
    2 ≤ s₁.streamLen.toNat →
    (∀ j, j + 1 < s₁.streamLen.toNat → readStream s₂ j = readStream s₁ j) →
    (∀ i, (readStream s₁ 0).toNat ≤ i → i < 8 →
      (readStream s₂ (s₁.streamLen.toNat - 1)).getLsbD i = (readStream s₁ (s₁.streamLen.toNat - 1)).getLsbD i) →
    exec (.unpack k) s₁ = .next t₁ → exec (.unpack k) s₂ = .next t₂ →
    t₂.status = t₁.status ∧ t₂.errIndex = t₁.errIndex ∧ SameCode t₁ t₂

/-- R208: the bit-accumulator form gives the same codes and is left with the pad bits. -/
def Obligations.UnpackAccumulatorGivesTheSameCodes : Prop :=
  ∀ (k pad : Nat) (body : List Symbol), 9 ≤ k → k ≤ 16 → pad ≤ 7 → pad ≤ 8 * body.length →
    (8 * body.length - pad) % k = 0 →
    (unpackLoop k body ([], [])).1.length = pad ∧
      (unpackLoop k body ([], [])).2.reverse = unpackCodes k (8 * body.length - pad) body

/-- R209: UNPACK inverts PACK at the same K. -/
def Obligations.UnpackInvertsPack : Prop :=
  ∀ (k : Nat) (s t : State), exec (.pack k) s = .next t → t.status.fault = false →
    ∃ u, exec (.unpack k) t = .next u ∧ Completed t u ∧ SameCode s u

/-- PACK of what UNPACK gave restores the stream, with zero pad bits (the converse of R209, from R203, R206). -/
def Obligations.PackRestoresTheUnpackedStream : Prop :=
  ∀ (k : Nat) (s t : State), exec (.unpack k) s = .next t → t.status.fault = false →
    ∃ u, exec (.pack k) t = .next u ∧ Completed t u ∧ u.streamLen = s.streamLen ∧
      (∀ j, j + 1 < s.streamLen.toNat → readStream u j = readStream s j) ∧
      ∀ i, i < 8 → (readStream u (s.streamLen.toNat - 1)).getLsbD i =
        if i < (readStream s 0).toNat then false else (readStream s (s.streamLen.toNat - 1)).getLsbD i

-- The whole pipeline and the frames

/-- The source's round trip through all four units (R100, R162, R209): `COMPRESS k` then `DECOMPRESS k` from an
idle, unfaulted block gives back the input. -/
def Obligations.CompressDecompressRoundTrip : Prop :=
  ∀ (k : Nat) (s : State), 9 ≤ k → k ≤ 16 → s.status.Sound s.errIndex → s.status.fault = false →
    cellsWf s.encTable → s.rawLen.toNat ≤ s.caps.raw.toNat → s.rawLen.toNat ≤ s.caps.code.toNat →
    1 + (k * s.rawLen.toNat + 7) / 8 ≤ s.caps.stream.toNat →
    s.pending = issueAll (expandPseudo (.compress k) ++ expandPseudo (.decompress k)) →
    ∃ u, runSteps 4 s = .next u ∧ u.pending = [] ∧ u.status.word = 0x02#32 ∧ SameRaw s u

/-- R65: a command writes no buffer or length register but its output's, a successful command leaves the elements
beyond its output unspecified, and a frame for everything else it does not write. -/
def Obligations.CommandsWriteOnlyTheirOutput : Prop :=
  (∀ (k : Nat) (keep testing training : Bool) (s t : State),
    exec (.encode k keep testing training) s = .next t →
    t.rawLen = s.rawLen ∧ t.streamLen = s.streamLen ∧ t.decSize = s.decSize ∧ t.decTable = s.decTable ∧
    (∀ i, readRaw t i = readRaw s i) ∧ (∀ i, readStream t i = readStream s i) ∧
    (training = true → t.codeLen = s.codeLen ∧ ∀ i, readCode t i = readCode s i) ∧
    (training = false → ∀ i, t.codeLen.toNat ≤ i → cellGet t.code.cells i = none)) ∧
  (∀ (k : Nat) (s t : State), exec (.decode k) s = .next t →
    t.codeLen = s.codeLen ∧ t.streamLen = s.streamLen ∧ t.encSize = s.encSize ∧ t.encTable = s.encTable ∧
    (∀ i, readCode t i = readCode s i) ∧ (∀ i, readStream t i = readStream s i) ∧
    (∀ i, t.rawLen.toNat ≤ i → cellGet t.raw.cells i = none)) ∧
  (∀ (k : Nat) (s t : State), exec (.pack k) s = .next t →
    t.rawLen = s.rawLen ∧ t.codeLen = s.codeLen ∧ t.encSize = s.encSize ∧ t.encTable = s.encTable ∧
    t.decSize = s.decSize ∧ t.decTable = s.decTable ∧
    (∀ i, readRaw t i = readRaw s i) ∧ (∀ i, readCode t i = readCode s i) ∧
    (∀ i, t.streamLen.toNat ≤ i → cellGet t.stream.cells i = none)) ∧
  (∀ (k : Nat) (s t : State), exec (.unpack k) s = .next t →
    t.rawLen = s.rawLen ∧ t.streamLen = s.streamLen ∧ t.encSize = s.encSize ∧ t.encTable = s.encTable ∧
    t.decSize = s.decSize ∧ t.decTable = s.decTable ∧
    (∀ i, readRaw t i = readRaw s i) ∧ (∀ i, readStream t i = readStream s i) ∧
    (∀ i, t.codeLen.toNat ≤ i → cellGet t.code.cells i = none)) ∧
  ∀ s t : State, exec .reset s = .next t →
    t.encTable = s.encTable ∧ t.decTable = s.decTable ∧ (∀ i, readRaw t i = readRaw s i) ∧
    (∀ i, readCode t i = readCode s i) ∧ ∀ i, readStream t i = readStream s i

/-- R32, R49, R132: a command's result depends on its word, its own input, the capacities and, for ENCODE with
KEEP = 1, the dictionary held. -/
def Obligations.ResultsDependOnTheInputOnly : Prop :=
  (∀ (k : Nat) (keep testing training : Bool) (s₁ s₂ t₁ t₂ : State), SameSetting s₁ s₂ → SameRaw s₁ s₂ →
    cellsWf s₁.encTable → cellsWf s₂.encTable →
    (keep = true → s₂.encSize = s₁.encSize ∧
      ∀ c, 256 ≤ c → c < s₁.encSize.toNat → cellGet s₂.encTable c = cellGet s₁.encTable c) →
    exec (.encode k keep testing training) s₁ = .next t₁ →
    exec (.encode k keep testing training) s₂ = .next t₂ →
    SameSetting t₁ t₂ ∧ t₂.encSize = t₁.encSize ∧ (training = false → SameCode t₁ t₂) ∧
      ∀ c, 256 ≤ c → c < t₁.encSize.toNat → cellGet t₂.encTable c = cellGet t₁.encTable c) ∧
  (∀ (k : Nat) (s₁ s₂ t₁ t₂ : State), SameSetting s₁ s₂ → SameCode s₁ s₂ →
    exec (.decode k) s₁ = .next t₁ → exec (.decode k) s₂ = .next t₂ →
    SameSetting t₁ t₂ ∧ t₂.decSize = t₁.decSize ∧ SameRaw t₁ t₂) ∧
  (∀ (k : Nat) (s₁ s₂ t₁ t₂ : State), SameSetting s₁ s₂ → SameCode s₁ s₂ →
    exec (.pack k) s₁ = .next t₁ → exec (.pack k) s₂ = .next t₂ → SameSetting t₁ t₂ ∧ SameStream t₁ t₂) ∧
  ∀ (k : Nat) (s₁ s₂ t₁ t₂ : State), SameSetting s₁ s₂ → SameStream s₁ s₂ →
    exec (.unpack k) s₁ = .next t₁ → exec (.unpack k) s₂ = .next t₂ → SameSetting t₁ t₂ ∧ SameCode t₁ t₂

/-- R23, R26 to R33, R40: what can change each register, table and buffer: the operations of the "written by" column of
R23, and the reset input. -/
def Obligations.StateIsWrittenOnlyByItsWriters : Prop :=
  ∀ (s t : State) (op : HostOp) (rest : List HostOp) (runs : Instr → Prop),
    s.pending = op :: rest → step s = .next t →
    (∀ i, runs i ↔ ∃ w, Issues op w ∧ decode w = .ok i) →
    (t.status ≠ s.status ∨ t.errIndex ≠ s.errIndex ∨ t.work ≠ s.work → op = .resetInput ∨ ∃ w, Issues op w) ∧
    (t.rawLen ≠ s.rawLen →
      op = .resetInput ∨ runs .reset ∨ (∃ v, op = .writeReg 0x08 v) ∨ ∃ k, runs (.decode k)) ∧
    (t.codeLen ≠ s.codeLen →
      op = .resetInput ∨ runs .reset ∨ (∃ v, op = .writeReg 0x0C v) ∨ (∃ k, runs (.unpack k)) ∨
        ∃ k keep testing, runs (.encode k keep testing false)) ∧
    (t.streamLen ≠ s.streamLen →
      op = .resetInput ∨ runs .reset ∨ (∃ v, op = .writeReg 0x10 v) ∨ ∃ k, runs (.pack k)) ∧
    (t.encSize ≠ s.encSize →
      op = .resetInput ∨ runs .reset ∨ ∃ k keep testing training, runs (.encode k keep testing training)) ∧
    (t.decSize ≠ s.decSize → op = .resetInput ∨ runs .reset ∨ ∃ k, runs (.decode k)) ∧
    (t.encTable ≠ s.encTable →
      op = .resetInput ∨ ∃ k keep training, runs (.encode k keep false training)) ∧
    (t.decTable ≠ s.decTable → op = .resetInput ∨ ∃ k, runs (.decode k)) ∧
    ((∃ i, readRaw t i ≠ readRaw s i) →
      op = .resetInput ∨ (∃ i v, op = .writeRaw i v) ∨ ∃ k, runs (.decode k)) ∧
    ((∃ i, readCode t i ≠ readCode s i) →
      op = .resetInput ∨ (∃ i v, op = .writeCode i v) ∨ (∃ k, runs (.unpack k)) ∨
        ∃ k keep testing, runs (.encode k keep testing false)) ∧
    ((∃ i, readStream t i ≠ readStream s i) →
      op = .resetInput ∨ (∃ i v, op = .writeStream i v) ∨ ∃ k, runs (.pack k))

-- The host's accesses

/-- R25: the layout of the `STATUS` word. -/
def Obligations.StatusWordLayout : Prop :=
  ∀ f : Status,
    f.word.getLsbD 0 = f.busy ∧ f.word.getLsbD 1 = f.done ∧ f.word.getLsbD 2 = f.fault ∧
    f.word.getLsbD 3 = false ∧ f.word.extractLsb' 4 4 = f.err ∧ f.word.extractLsb' 8 24 = 0

/-- R24, R67, R68, R223: the registers at their offsets: what is written, what is read, that `CMD` reads 0 and takes
bits 15:0, and that ignored writes change nothing. That every aligned offset not listed, however large, reads 0 and
ignores writes is the model's reading of R67 (log 12). -/
def Obligations.RegistersAtTheirOffsets : Prop :=
  (∀ (s : State) (rest : List HostOp) (offset : Nat) (v : Word), s.pending = .writeReg offset v :: rest →
    s.status.busy = false → offset % 4 = 0 → offset ≠ 0 →
    step s = .next
      { s with
        pending := rest
        rawLen := if offset = 0x08 then v else s.rawLen
        codeLen := if offset = 0x0C then v else s.codeLen
        streamLen := if offset = 0x10 then v else s.streamLen }) ∧
  (∀ (s : State) (rest : List HostOp) (offset : Nat), s.pending = .readReg offset :: rest →
    s.status.busy = false → offset % 4 = 0 →
    step s = .next
      { s with
        pending := rest
        replies :=
          (if offset = 0x04 then s.status.word
            else if offset = 0x08 then s.rawLen
            else if offset = 0x0C then s.codeLen
            else if offset = 0x10 then s.streamLen
            else if offset = 0x14 then s.encSize
            else if offset = 0x18 then s.decSize
            else if offset = 0x1C then s.errIndex
            else 0) :: s.replies }) ∧
  ∀ (s : State) (rest : List HostOp) (v v' : Word), v.setWidth 16 = v'.setWidth 16 →
    step { s with pending := .writeReg 0x00 v :: rest } = step { s with pending := .writeReg 0x00 v' :: rest }

/-- R62, R64: a host write of an element is read back, changes no other element, and a read has no side effect. -/
def Obligations.BufferElementsReadBack : Prop :=
  (∀ (s : State) (rest : List HostOp) (i : Nat) (v : Symbol), s.pending = .writeRaw i v :: rest →
    s.status.busy = false → i < s.caps.raw.toNat →
    ∃ t, step s = .next t ∧ readRaw t i = v ∧ (∀ j, j ≠ i → readRaw t j = readRaw s j) ∧
      t = { s with pending := rest, raw := t.raw }) ∧
  (∀ (s : State) (rest : List HostOp) (i : Nat) (v : Half), s.pending = .writeCode i v :: rest →
    s.status.busy = false → i < s.caps.code.toNat →
    ∃ t, step s = .next t ∧ readCode t i = v ∧ (∀ j, j ≠ i → readCode t j = readCode s j) ∧
      t = { s with pending := rest, code := t.code }) ∧
  (∀ (s : State) (rest : List HostOp) (i : Nat) (v : Symbol), s.pending = .writeStream i v :: rest →
    s.status.busy = false → i < s.caps.stream.toNat →
    ∃ t, step s = .next t ∧ readStream t i = v ∧ (∀ j, j ≠ i → readStream t j = readStream s j) ∧
      t = { s with pending := rest, stream := t.stream }) ∧
  ∀ (s : State) (op : HostOp) (rest : List HostOp) (i : Nat), s.pending = op :: rest → s.status.busy = false →
    (op = .readRaw i → i < s.caps.raw.toNat →
      step s = .next { s with pending := rest, replies := (readRaw s i).setWidth 32 :: s.replies }) ∧
    (op = .readCode i → i < s.caps.code.toNat →
      step s = .next { s with pending := rest, replies := (readCode s i).setWidth 32 :: s.replies }) ∧
    (op = .readStream i → i < s.caps.stream.toNat →
      step s = .next { s with pending := rest, replies := (readStream s i).setWidth 32 :: s.replies })

/-- R50, R66: the word read at `ENC_DICT` below `ENC_SIZE`; an unspecified word elsewhere; writes are ignored. That
such a word is drawn anew at each read, which moves the counter of draws, is the model's choice (log 7). -/
def Obligations.DictionaryWindowWords : Prop :=
  (∀ (s : State) (rest : List HostOp) (c : Nat), s.pending = .readDict c :: rest → s.status.busy = false →
    c < 65536 →
    (c < s.encSize.toNat → c < 256 →
      ∃ w, step s = .next { s with pending := rest, replies := w :: s.replies } ∧
        (w.extractLsb' 0 8).toNat = c ∧ w.extractLsb' 8 16 = 0 ∧ w.getLsbD 24 = true ∧ w.extractLsb' 25 7 = 0) ∧
    (∀ e, c < s.encSize.toNat → 256 ≤ c → cellGet s.encTable c = some e →
      ∃ w, step s = .next { s with pending := rest, replies := w :: s.replies } ∧
        w.extractLsb' 0 8 = e.sym ∧ w.extractLsb' 8 16 = e.parent ∧ w.getLsbD 24 = false ∧
        w.extractLsb' 25 7 = 0) ∧
    (s.encSize.toNat ≤ c →
      ∃ w, step s = .next { s with pending := rest, replies := w :: s.replies, fresh := s.fresh + 1 })) ∧
  ∀ (s : State) (rest : List HostOp) (c : Nat) (v : Word), s.pending = .writeDict c v :: rest →
    s.status.busy = false → c < 65536 → step s = .next { s with pending := rest }

/-- R60, R63, R74, R290: a step is refused exactly for a host access outside the domain, and never stops with a
fault. Accesses to `ENC_DICT` beyond index 65535 are refused by the model's reading of R60 (log 11). -/
def Obligations.OnlyAccessesOutsideTheDomainStop : Prop :=
  ∀ (s : State) (op : HostOp) (rest : List HostOp), s.pending = op :: rest →
    ((∃ r, step s = .refused r) ↔
      (s.status.busy = true ∧ op ≠ .readReg 0x04 ∧ op ≠ .resetInput) ∨
      (s.status.busy = false ∧
        ((∃ offset v, op = .writeReg offset v ∧ offset % 4 ≠ 0) ∨
          (∃ offset, op = .readReg offset ∧ offset % 4 ≠ 0) ∨
          (∃ i v, op = .writeRaw i v ∧ s.caps.raw.toNat ≤ i) ∨ (∃ i, op = .readRaw i ∧ s.caps.raw.toNat ≤ i) ∨
          (∃ i v, op = .writeCode i v ∧ s.caps.code.toNat ≤ i) ∨
          (∃ i, op = .readCode i ∧ s.caps.code.toNat ≤ i) ∨
          (∃ i v, op = .writeStream i v ∧ s.caps.stream.toNat ≤ i) ∨
          (∃ i, op = .readStream i ∧ s.caps.stream.toNat ≤ i) ∨
          (∃ c v, op = .writeDict c v ∧ 65536 ≤ c) ∨ (∃ c, op = .readDict c ∧ 65536 ≤ c)))) ∧
    ∀ f, step s ≠ .fault f
end

