-- ==== Sys2Proof/Laws/Bits.lean ====
section
/-! SUPPORT. Lengths and elements of bitstrings and groups. -/

namespace Sys2Proof.Machine

@[simp] theorem length_binN (n v : Nat) : (binN n v).length = n := by simp [binN]

theorem getElem?_binN {n v i : Nat} (h : i < n) : (binN n v)[i]? = some (v.testBit (n - 1 - i)) := by
  simp [binN, h]

theorem val_append_singleton (bits : List Bool) (b : Bool) : val (bits ++ [b]) = 2 * val bits + bitNat b := by
  simp [val]

@[simp] theorem length_groups (size count : Nat) (bits : List Bool) : (groups size count bits).length = count := by
  induction count generalizing bits with
  | zero => rfl
  | succ n ih => simp [groups, ih]

theorem getElem?_groups (size count : Nat) (bits : List Bool) {j : Nat} (h : j < count) :
    (groups size count bits)[j]? = some ((bits.drop (size * j)).take size) := by
  induction count generalizing bits j with
  | zero => omega
  | succ n ih =>
    cases j with
    | zero => simp [groups]
    | succ j =>
      rw [groups, List.getElem?_cons_succ, ih _ (by omega), List.drop_drop]
      congr 3
      ring

theorem padSize_lt (k n : Nat) : padSize k n < 8 := Nat.mod_lt _ (by decide)

/-- The body is a whole number of bytes. -/
theorem eight_mul_bodyLen (k n : Nat) : 8 * bodyLen k n = k * n + padSize k n := by
  unfold bodyLen padSize
  omega

end Sys2Proof.Machine
end

