-- ==== Sys2Proof/Laws/Cells.lean ====
section
/-! SUPPORT. Element lists: read after write, a write leaves every other index alone, the canonical form is kept. -/

namespace Sys2Proof.Machine

variable {α : Type}

@[simp] theorem cellGet_nil (i : Nat) : cellGet ([] : List (Nat × α)) i = none := rfl

theorem cellGet_cons (j : Nat) (v : α) (rest : List (Nat × α)) (i : Nat) :
    cellGet ((j, v) :: rest) i = if i = j then some v else cellGet rest i := rfl

@[simp] theorem cellGet_cellSet_self (cells : List (Nat × α)) (i : Nat) (v : α) :
    cellGet (cellSet cells i v) i = some v := by
  induction cells with
  | nil => simp [cellSet, cellGet]
  | cons x rest ih =>
    obtain ⟨j, u⟩ := x
    by_cases h1 : i < j
    · simp [cellSet, h1, cellGet]
    · by_cases h2 : i = j
      · simp [cellSet, h2, cellGet]
      · simp [cellSet, h1, h2, cellGet, ih]

@[simp] theorem cellGet_cellSet_ne (cells : List (Nat × α)) {i j : Nat} (v : α) (h : j ≠ i) :
    cellGet (cellSet cells i v) j = cellGet cells j := by
  induction cells with
  | nil => simp [cellSet, cellGet, h]
  | cons x rest ih =>
    obtain ⟨k, u⟩ := x
    by_cases h1 : i < k
    · simp [cellSet, h1, cellGet, h]
    · by_cases h2 : i = k
      · subst h2
        simp [cellSet, cellGet, h]
      · simp [cellSet, h1, h2, cellGet, ih]

theorem mem_cellSet {cells : List (Nat × α)} {i : Nat} {v : α} {x : Nat × α} (h : x ∈ cellSet cells i v) :
    x = (i, v) ∨ x ∈ cells := by
  induction cells with
  | nil => simpa [cellSet] using h
  | cons y rest ih =>
    obtain ⟨j, u⟩ := y
    by_cases h1 : i < j
    · simpa [cellSet, h1] using h
    · by_cases h2 : i = j
      · simp only [cellSet, h2, if_true, if_false, List.mem_cons, lt_irrefl] at h
        rcases h with h | h
        · exact .inl (by rw [h, h2])
        · exact .inr (List.mem_cons_of_mem _ h)
      · simp only [cellSet, h1, h2, if_false, List.mem_cons] at h
        rcases h with h | h
        · exact .inr (by simp [h])
        · rcases ih h with h | h
          · exact .inl h
          · exact .inr (List.mem_cons_of_mem _ h)

/-- A write keeps the canonical form. -/
theorem cellSet_wf {cells : List (Nat × α)} (h : cellsWf cells) (i : Nat) (v : α) : cellsWf (cellSet cells i v) := by
  induction cells with
  | nil => simp [cellSet, cellsWf]
  | cons y rest ih =>
    obtain ⟨j, u⟩ := y
    have hr : cellsWf rest := by
      simp only [cellsWf, List.map_cons, List.pairwise_cons] at h
      exact h.2
    have hj : ∀ x ∈ rest, j < x.1 := by
      simp only [cellsWf, List.map_cons, List.pairwise_cons, List.mem_map] at h
      exact fun x hx => h.1 x.1 ⟨x, hx, rfl⟩
    by_cases h1 : i < j
    · simp only [cellSet, h1, if_true, cellsWf, List.map_cons, List.pairwise_cons, List.mem_cons, List.mem_map]
      refine ⟨?_, ?_, hr⟩
      · rintro a (rfl | ⟨x, hx, rfl⟩)
        · exact h1
        · exact lt_trans h1 (hj x hx)
      · rintro a ⟨x, hx, rfl⟩
        exact hj x hx
    · by_cases h2 : i = j
      · subst h2
        simpa [cellSet, cellsWf] using h
      · simp only [cellSet, h1, h2, if_false, cellsWf, List.map_cons, List.pairwise_cons, List.mem_map]
        refine ⟨?_, ih hr⟩
        rintro a ⟨x, hx, rfl⟩
        rcases mem_cellSet hx with rfl | hx
        · show j < i
          omega
        · exact hj x hx

theorem cellGet_cellsFrom (i : Nat) (vs : List α) (j : Nat) :
    cellGet (cellsFrom i vs) j = if j < i then none else vs[j - i]? := by
  induction vs generalizing i with
  | nil => simp [cellsFrom]
  | cons v vs ih =>
    simp only [cellsFrom, cellGet, ih]
    by_cases h1 : j = i
    · simp [h1]
    · by_cases h2 : j < i
      · have : j < i + 1 := by omega
        simp [h1, h2, this]
      · have h3 : ¬ j < i + 1 := by omega
        have h4 : j - i = (j - (i + 1)) + 1 := by omega
        simp only [h1, h2, h3, if_false]
        rw [h4, List.getElem?_cons_succ]

/-- An output laid out from index 0 reads back as the sequence. -/
@[simp] theorem cellGet_cellsFrom_zero (vs : List α) (j : Nat) : cellGet (cellsFrom 0 vs) j = vs[j]? := by
  simp [cellGet_cellsFrom]

theorem mem_cellsFrom {i : Nat} {vs : List α} {x : Nat × α} (h : x ∈ cellsFrom i vs) :
    i ≤ x.1 ∧ x.1 < i + vs.length := by
  induction vs generalizing i with
  | nil => simp [cellsFrom] at h
  | cons v vs ih =>
    simp only [cellsFrom, List.mem_cons] at h
    rcases h with rfl | h
    · simp
    · have := ih h
      simp only [List.length_cons]
      omega

/-- An output sequence is in canonical form. -/
theorem cellsFrom_wf (i : Nat) (vs : List α) : cellsWf (cellsFrom i vs) := by
  induction vs generalizing i with
  | nil => simp [cellsFrom, cellsWf]
  | cons v vs ih =>
    simp only [cellsWf, cellsFrom, List.map_cons, List.pairwise_cons, List.mem_map]
    refine ⟨?_, ih (i + 1)⟩
    rintro a ⟨x, hx, rfl⟩
    have := (mem_cellsFrom hx).1
    omega

theorem mem_of_cellGet {cells : List (Nat × α)} {i : Nat} {v : α} (h : cellGet cells i = some v) :
    (i, v) ∈ cells := by
  induction cells with
  | nil => simp at h
  | cons y rest ih =>
    obtain ⟨j, u⟩ := y
    rw [cellGet_cons] at h
    split at h
    · simp_all
    · exact List.mem_cons_of_mem _ (ih h)

/-- In canonical form an entry is what its index reads as. -/
theorem cellGet_of_mem {cells : List (Nat × α)} (hw : cellsWf cells) {i : Nat} {v : α} (h : (i, v) ∈ cells) :
    cellGet cells i = some v := by
  induction cells with
  | nil => simp at h
  | cons y rest ih =>
    obtain ⟨j, u⟩ := y
    simp only [cellsWf, List.map_cons, List.pairwise_cons, List.mem_map] at hw
    rw [cellGet_cons]
    rcases List.mem_cons.1 h with h | h
    · simp_all
    · have : j < i := hw.1 i ⟨(i, v), h, rfl⟩
      rw [if_neg (by omega), ih hw.2 h]

end Sys2Proof.Machine
end

