-- ==== Sys2Proof/Laws/State.lean ====
section
/-! SUPPORT. One lemma per field per named update of the state, so that no later proof unfolds an update. -/

namespace Sys2Proof.Machine

variable (s : State)

-- accept: accepting a command (R220)
@[simp] theorem accept_caps : (accept s).caps = s.caps := rfl
@[simp] theorem accept_status : (accept s).status = s.status.accepted := rfl
@[simp] theorem accept_rawLen : (accept s).rawLen = s.rawLen := rfl
@[simp] theorem accept_codeLen : (accept s).codeLen = s.codeLen := rfl
@[simp] theorem accept_streamLen : (accept s).streamLen = s.streamLen := rfl
@[simp] theorem accept_encSize : (accept s).encSize = s.encSize := rfl
@[simp] theorem accept_decSize : (accept s).decSize = s.decSize := rfl
@[simp] theorem accept_errIndex : (accept s).errIndex = s.errIndex := rfl
@[simp] theorem accept_raw : (accept s).raw = s.raw := rfl
@[simp] theorem accept_code : (accept s).code = s.code := rfl
@[simp] theorem accept_stream : (accept s).stream = s.stream := rfl
@[simp] theorem accept_encTable : (accept s).encTable = s.encTable := rfl
@[simp] theorem accept_decTable : (accept s).decTable = s.decTable := rfl
@[simp] theorem accept_work : (accept s).work = s.work := rfl
@[simp] theorem accept_pending : (accept s).pending = s.pending := rfl
@[simp] theorem accept_replies : (accept s).replies = s.replies := rfl
@[simp] theorem accept_fresh : (accept s).fresh = s.fresh := rfl

-- complete: completing a command (R225)
@[simp] theorem complete_caps : (complete s).caps = s.caps := rfl
@[simp] theorem complete_status : (complete s).status = s.status.completed := rfl
@[simp] theorem complete_rawLen : (complete s).rawLen = s.rawLen := rfl
@[simp] theorem complete_codeLen : (complete s).codeLen = s.codeLen := rfl
@[simp] theorem complete_streamLen : (complete s).streamLen = s.streamLen := rfl
@[simp] theorem complete_encSize : (complete s).encSize = s.encSize := rfl
@[simp] theorem complete_decSize : (complete s).decSize = s.decSize := rfl
@[simp] theorem complete_errIndex : (complete s).errIndex = s.errIndex := rfl
@[simp] theorem complete_raw : (complete s).raw = s.raw := rfl
@[simp] theorem complete_code : (complete s).code = s.code := rfl
@[simp] theorem complete_stream : (complete s).stream = s.stream := rfl
@[simp] theorem complete_encTable : (complete s).encTable = s.encTable := rfl
@[simp] theorem complete_decTable : (complete s).decTable = s.decTable := rfl
@[simp] theorem complete_work : (complete s).work = (retire s).work := rfl
@[simp] theorem complete_pending : (complete s).pending = s.pending := rfl
@[simp] theorem complete_replies : (complete s).replies = s.replies := rfl
@[simp] theorem complete_fresh : (complete s).fresh = s.fresh + 1 := rfl

-- retire: the working registers after a command (U17)
@[simp] theorem retire_caps : (retire s).caps = s.caps := rfl
@[simp] theorem retire_status : (retire s).status = s.status := rfl
@[simp] theorem retire_rawLen : (retire s).rawLen = s.rawLen := rfl
@[simp] theorem retire_codeLen : (retire s).codeLen = s.codeLen := rfl
@[simp] theorem retire_streamLen : (retire s).streamLen = s.streamLen := rfl
@[simp] theorem retire_encSize : (retire s).encSize = s.encSize := rfl
@[simp] theorem retire_decSize : (retire s).decSize = s.decSize := rfl
@[simp] theorem retire_errIndex : (retire s).errIndex = s.errIndex := rfl
@[simp] theorem retire_raw : (retire s).raw = s.raw := rfl
@[simp] theorem retire_code : (retire s).code = s.code := rfl
@[simp] theorem retire_stream : (retire s).stream = s.stream := rfl
@[simp] theorem retire_encTable : (retire s).encTable = s.encTable := rfl
@[simp] theorem retire_decTable : (retire s).decTable = s.decTable := rfl
@[simp] theorem retire_pending : (retire s).pending = s.pending := rfl
@[simp] theorem retire_replies : (retire s).replies = s.replies := rfl
@[simp] theorem retire_fresh : (retire s).fresh = s.fresh + 1 := rfl

-- recordFault: the fault record (R257)
@[simp] theorem recordFault_caps (e : Raise) : (recordFault e s).caps = s.caps := rfl
@[simp] theorem recordFault_status (e : Raise) : (recordFault e s).status = Status.faulted e.cause := rfl
@[simp] theorem recordFault_rawLen (e : Raise) : (recordFault e s).rawLen = s.rawLen := rfl
@[simp] theorem recordFault_codeLen (e : Raise) : (recordFault e s).codeLen = s.codeLen := rfl
@[simp] theorem recordFault_streamLen (e : Raise) : (recordFault e s).streamLen = s.streamLen := rfl
@[simp] theorem recordFault_encSize (e : Raise) : (recordFault e s).encSize = s.encSize := rfl
@[simp] theorem recordFault_decSize (e : Raise) : (recordFault e s).decSize = s.decSize := rfl
@[simp] theorem recordFault_errIndex (e : Raise) : (recordFault e s).errIndex = BitVec.ofNat 32 e.index := rfl
@[simp] theorem recordFault_raw (e : Raise) : (recordFault e s).raw = s.raw := rfl
@[simp] theorem recordFault_code (e : Raise) : (recordFault e s).code = s.code := rfl
@[simp] theorem recordFault_stream (e : Raise) : (recordFault e s).stream = s.stream := rfl
@[simp] theorem recordFault_encTable (e : Raise) : (recordFault e s).encTable = s.encTable := rfl
@[simp] theorem recordFault_decTable (e : Raise) : (recordFault e s).decTable = s.decTable := rfl
@[simp] theorem recordFault_work (e : Raise) : (recordFault e s).work = s.work := rfl
@[simp] theorem recordFault_pending (e : Raise) : (recordFault e s).pending = s.pending := rfl
@[simp] theorem recordFault_replies (e : Raise) : (recordFault e s).replies = s.replies := rfl
@[simp] theorem recordFault_fresh (e : Raise) : (recordFault e s).fresh = s.fresh := rfl

-- produceRaw: an output buffer (R65)
@[simp] theorem produceRaw_caps (out : List Symbol) : (produceRaw out s).caps = s.caps := rfl
@[simp] theorem produceRaw_status (out : List Symbol) : (produceRaw out s).status = s.status := rfl
@[simp] theorem produceRaw_rawLen (out : List Symbol) : (produceRaw out s).rawLen = s.rawLen := rfl
@[simp] theorem produceRaw_codeLen (out : List Symbol) : (produceRaw out s).codeLen = s.codeLen := rfl
@[simp] theorem produceRaw_streamLen (out : List Symbol) : (produceRaw out s).streamLen = s.streamLen := rfl
@[simp] theorem produceRaw_encSize (out : List Symbol) : (produceRaw out s).encSize = s.encSize := rfl
@[simp] theorem produceRaw_decSize (out : List Symbol) : (produceRaw out s).decSize = s.decSize := rfl
@[simp] theorem produceRaw_errIndex (out : List Symbol) : (produceRaw out s).errIndex = s.errIndex := rfl
@[simp] theorem produceRaw_raw (out : List Symbol) : (produceRaw out s).raw = { epoch := s.fresh, cells := cellsFrom 0 out } := rfl
@[simp] theorem produceRaw_code (out : List Symbol) : (produceRaw out s).code = s.code := rfl
@[simp] theorem produceRaw_stream (out : List Symbol) : (produceRaw out s).stream = s.stream := rfl
@[simp] theorem produceRaw_encTable (out : List Symbol) : (produceRaw out s).encTable = s.encTable := rfl
@[simp] theorem produceRaw_decTable (out : List Symbol) : (produceRaw out s).decTable = s.decTable := rfl
@[simp] theorem produceRaw_work (out : List Symbol) : (produceRaw out s).work = s.work := rfl
@[simp] theorem produceRaw_pending (out : List Symbol) : (produceRaw out s).pending = s.pending := rfl
@[simp] theorem produceRaw_replies (out : List Symbol) : (produceRaw out s).replies = s.replies := rfl
@[simp] theorem produceRaw_fresh (out : List Symbol) : (produceRaw out s).fresh = s.fresh + 1 := rfl

-- produceCode: an output buffer (R65)
@[simp] theorem produceCode_caps (out : List Half) : (produceCode out s).caps = s.caps := rfl
@[simp] theorem produceCode_status (out : List Half) : (produceCode out s).status = s.status := rfl
@[simp] theorem produceCode_rawLen (out : List Half) : (produceCode out s).rawLen = s.rawLen := rfl
@[simp] theorem produceCode_codeLen (out : List Half) : (produceCode out s).codeLen = s.codeLen := rfl
@[simp] theorem produceCode_streamLen (out : List Half) : (produceCode out s).streamLen = s.streamLen := rfl
@[simp] theorem produceCode_encSize (out : List Half) : (produceCode out s).encSize = s.encSize := rfl
@[simp] theorem produceCode_decSize (out : List Half) : (produceCode out s).decSize = s.decSize := rfl
@[simp] theorem produceCode_errIndex (out : List Half) : (produceCode out s).errIndex = s.errIndex := rfl
@[simp] theorem produceCode_raw (out : List Half) : (produceCode out s).raw = s.raw := rfl
@[simp] theorem produceCode_code (out : List Half) : (produceCode out s).code = { epoch := s.fresh, cells := cellsFrom 0 out } := rfl
@[simp] theorem produceCode_stream (out : List Half) : (produceCode out s).stream = s.stream := rfl
@[simp] theorem produceCode_encTable (out : List Half) : (produceCode out s).encTable = s.encTable := rfl
@[simp] theorem produceCode_decTable (out : List Half) : (produceCode out s).decTable = s.decTable := rfl
@[simp] theorem produceCode_work (out : List Half) : (produceCode out s).work = s.work := rfl
@[simp] theorem produceCode_pending (out : List Half) : (produceCode out s).pending = s.pending := rfl
@[simp] theorem produceCode_replies (out : List Half) : (produceCode out s).replies = s.replies := rfl
@[simp] theorem produceCode_fresh (out : List Half) : (produceCode out s).fresh = s.fresh + 1 := rfl

-- produceStream: an output buffer (R65)
@[simp] theorem produceStream_caps (out : List Symbol) : (produceStream out s).caps = s.caps := rfl
@[simp] theorem produceStream_status (out : List Symbol) : (produceStream out s).status = s.status := rfl
@[simp] theorem produceStream_rawLen (out : List Symbol) : (produceStream out s).rawLen = s.rawLen := rfl
@[simp] theorem produceStream_codeLen (out : List Symbol) : (produceStream out s).codeLen = s.codeLen := rfl
@[simp] theorem produceStream_streamLen (out : List Symbol) : (produceStream out s).streamLen = s.streamLen := rfl
@[simp] theorem produceStream_encSize (out : List Symbol) : (produceStream out s).encSize = s.encSize := rfl
@[simp] theorem produceStream_decSize (out : List Symbol) : (produceStream out s).decSize = s.decSize := rfl
@[simp] theorem produceStream_errIndex (out : List Symbol) : (produceStream out s).errIndex = s.errIndex := rfl
@[simp] theorem produceStream_raw (out : List Symbol) : (produceStream out s).raw = s.raw := rfl
@[simp] theorem produceStream_code (out : List Symbol) : (produceStream out s).code = s.code := rfl
@[simp] theorem produceStream_stream (out : List Symbol) : (produceStream out s).stream = { epoch := s.fresh, cells := cellsFrom 0 out } := rfl
@[simp] theorem produceStream_encTable (out : List Symbol) : (produceStream out s).encTable = s.encTable := rfl
@[simp] theorem produceStream_decTable (out : List Symbol) : (produceStream out s).decTable = s.decTable := rfl
@[simp] theorem produceStream_work (out : List Symbol) : (produceStream out s).work = s.work := rfl
@[simp] theorem produceStream_pending (out : List Symbol) : (produceStream out s).pending = s.pending := rfl
@[simp] theorem produceStream_replies (out : List Symbol) : (produceStream out s).replies = s.replies := rfl
@[simp] theorem produceStream_fresh (out : List Symbol) : (produceStream out s).fresh = s.fresh + 1 := rfl

-- writeRaw: a host write (R62)
@[simp] theorem writeRaw_caps (i : Nat) (v : Symbol) : (writeRaw i v s).caps = s.caps := rfl
@[simp] theorem writeRaw_status (i : Nat) (v : Symbol) : (writeRaw i v s).status = s.status := rfl
@[simp] theorem writeRaw_rawLen (i : Nat) (v : Symbol) : (writeRaw i v s).rawLen = s.rawLen := rfl
@[simp] theorem writeRaw_codeLen (i : Nat) (v : Symbol) : (writeRaw i v s).codeLen = s.codeLen := rfl
@[simp] theorem writeRaw_streamLen (i : Nat) (v : Symbol) : (writeRaw i v s).streamLen = s.streamLen := rfl
@[simp] theorem writeRaw_encSize (i : Nat) (v : Symbol) : (writeRaw i v s).encSize = s.encSize := rfl
@[simp] theorem writeRaw_decSize (i : Nat) (v : Symbol) : (writeRaw i v s).decSize = s.decSize := rfl
@[simp] theorem writeRaw_errIndex (i : Nat) (v : Symbol) : (writeRaw i v s).errIndex = s.errIndex := rfl
@[simp] theorem writeRaw_raw (i : Nat) (v : Symbol) : (writeRaw i v s).raw = { s.raw with cells := cellSet s.raw.cells i v } := rfl
@[simp] theorem writeRaw_code (i : Nat) (v : Symbol) : (writeRaw i v s).code = s.code := rfl
@[simp] theorem writeRaw_stream (i : Nat) (v : Symbol) : (writeRaw i v s).stream = s.stream := rfl
@[simp] theorem writeRaw_encTable (i : Nat) (v : Symbol) : (writeRaw i v s).encTable = s.encTable := rfl
@[simp] theorem writeRaw_decTable (i : Nat) (v : Symbol) : (writeRaw i v s).decTable = s.decTable := rfl
@[simp] theorem writeRaw_work (i : Nat) (v : Symbol) : (writeRaw i v s).work = s.work := rfl
@[simp] theorem writeRaw_pending (i : Nat) (v : Symbol) : (writeRaw i v s).pending = s.pending := rfl
@[simp] theorem writeRaw_replies (i : Nat) (v : Symbol) : (writeRaw i v s).replies = s.replies := rfl
@[simp] theorem writeRaw_fresh (i : Nat) (v : Symbol) : (writeRaw i v s).fresh = s.fresh := rfl

-- writeCode: a host write (R62)
@[simp] theorem writeCode_caps (i : Nat) (v : Half) : (writeCode i v s).caps = s.caps := rfl
@[simp] theorem writeCode_status (i : Nat) (v : Half) : (writeCode i v s).status = s.status := rfl
@[simp] theorem writeCode_rawLen (i : Nat) (v : Half) : (writeCode i v s).rawLen = s.rawLen := rfl
@[simp] theorem writeCode_codeLen (i : Nat) (v : Half) : (writeCode i v s).codeLen = s.codeLen := rfl
@[simp] theorem writeCode_streamLen (i : Nat) (v : Half) : (writeCode i v s).streamLen = s.streamLen := rfl
@[simp] theorem writeCode_encSize (i : Nat) (v : Half) : (writeCode i v s).encSize = s.encSize := rfl
@[simp] theorem writeCode_decSize (i : Nat) (v : Half) : (writeCode i v s).decSize = s.decSize := rfl
@[simp] theorem writeCode_errIndex (i : Nat) (v : Half) : (writeCode i v s).errIndex = s.errIndex := rfl
@[simp] theorem writeCode_raw (i : Nat) (v : Half) : (writeCode i v s).raw = s.raw := rfl
@[simp] theorem writeCode_code (i : Nat) (v : Half) : (writeCode i v s).code = { s.code with cells := cellSet s.code.cells i v } := rfl
@[simp] theorem writeCode_stream (i : Nat) (v : Half) : (writeCode i v s).stream = s.stream := rfl
@[simp] theorem writeCode_encTable (i : Nat) (v : Half) : (writeCode i v s).encTable = s.encTable := rfl
@[simp] theorem writeCode_decTable (i : Nat) (v : Half) : (writeCode i v s).decTable = s.decTable := rfl
@[simp] theorem writeCode_work (i : Nat) (v : Half) : (writeCode i v s).work = s.work := rfl
@[simp] theorem writeCode_pending (i : Nat) (v : Half) : (writeCode i v s).pending = s.pending := rfl
@[simp] theorem writeCode_replies (i : Nat) (v : Half) : (writeCode i v s).replies = s.replies := rfl
@[simp] theorem writeCode_fresh (i : Nat) (v : Half) : (writeCode i v s).fresh = s.fresh := rfl

-- writeStream: a host write (R62)
@[simp] theorem writeStream_caps (i : Nat) (v : Symbol) : (writeStream i v s).caps = s.caps := rfl
@[simp] theorem writeStream_status (i : Nat) (v : Symbol) : (writeStream i v s).status = s.status := rfl
@[simp] theorem writeStream_rawLen (i : Nat) (v : Symbol) : (writeStream i v s).rawLen = s.rawLen := rfl
@[simp] theorem writeStream_codeLen (i : Nat) (v : Symbol) : (writeStream i v s).codeLen = s.codeLen := rfl
@[simp] theorem writeStream_streamLen (i : Nat) (v : Symbol) : (writeStream i v s).streamLen = s.streamLen := rfl
@[simp] theorem writeStream_encSize (i : Nat) (v : Symbol) : (writeStream i v s).encSize = s.encSize := rfl
@[simp] theorem writeStream_decSize (i : Nat) (v : Symbol) : (writeStream i v s).decSize = s.decSize := rfl
@[simp] theorem writeStream_errIndex (i : Nat) (v : Symbol) : (writeStream i v s).errIndex = s.errIndex := rfl
@[simp] theorem writeStream_raw (i : Nat) (v : Symbol) : (writeStream i v s).raw = s.raw := rfl
@[simp] theorem writeStream_code (i : Nat) (v : Symbol) : (writeStream i v s).code = s.code := rfl
@[simp] theorem writeStream_stream (i : Nat) (v : Symbol) : (writeStream i v s).stream = { s.stream with cells := cellSet s.stream.cells i v } := rfl
@[simp] theorem writeStream_encTable (i : Nat) (v : Symbol) : (writeStream i v s).encTable = s.encTable := rfl
@[simp] theorem writeStream_decTable (i : Nat) (v : Symbol) : (writeStream i v s).decTable = s.decTable := rfl
@[simp] theorem writeStream_work (i : Nat) (v : Symbol) : (writeStream i v s).work = s.work := rfl
@[simp] theorem writeStream_pending (i : Nat) (v : Symbol) : (writeStream i v s).pending = s.pending := rfl
@[simp] theorem writeStream_replies (i : Nat) (v : Symbol) : (writeStream i v s).replies = s.replies := rfl
@[simp] theorem writeStream_fresh (i : Nat) (v : Symbol) : (writeStream i v s).fresh = s.fresh := rfl

-- reply: a host read
@[simp] theorem reply_caps (v : Word) : (reply v s).caps = s.caps := rfl
@[simp] theorem reply_status (v : Word) : (reply v s).status = s.status := rfl
@[simp] theorem reply_rawLen (v : Word) : (reply v s).rawLen = s.rawLen := rfl
@[simp] theorem reply_codeLen (v : Word) : (reply v s).codeLen = s.codeLen := rfl
@[simp] theorem reply_streamLen (v : Word) : (reply v s).streamLen = s.streamLen := rfl
@[simp] theorem reply_encSize (v : Word) : (reply v s).encSize = s.encSize := rfl
@[simp] theorem reply_decSize (v : Word) : (reply v s).decSize = s.decSize := rfl
@[simp] theorem reply_errIndex (v : Word) : (reply v s).errIndex = s.errIndex := rfl
@[simp] theorem reply_raw (v : Word) : (reply v s).raw = s.raw := rfl
@[simp] theorem reply_code (v : Word) : (reply v s).code = s.code := rfl
@[simp] theorem reply_stream (v : Word) : (reply v s).stream = s.stream := rfl
@[simp] theorem reply_encTable (v : Word) : (reply v s).encTable = s.encTable := rfl
@[simp] theorem reply_decTable (v : Word) : (reply v s).decTable = s.decTable := rfl
@[simp] theorem reply_work (v : Word) : (reply v s).work = s.work := rfl
@[simp] theorem reply_pending (v : Word) : (reply v s).pending = s.pending := rfl
@[simp] theorem reply_replies (v : Word) : (reply v s).replies = v :: s.replies := rfl
@[simp] theorem reply_fresh (v : Word) : (reply v s).fresh = s.fresh := rfl

-- clearRegisters: the reset event (R222)
@[simp] theorem clearRegisters_caps : (clearRegisters s).caps = s.caps := rfl
@[simp] theorem clearRegisters_status : (clearRegisters s).status = Status.zero := rfl
@[simp] theorem clearRegisters_rawLen : (clearRegisters s).rawLen = 0 := rfl
@[simp] theorem clearRegisters_codeLen : (clearRegisters s).codeLen = 0 := rfl
@[simp] theorem clearRegisters_streamLen : (clearRegisters s).streamLen = 0 := rfl
@[simp] theorem clearRegisters_encSize : (clearRegisters s).encSize = 0 := rfl
@[simp] theorem clearRegisters_decSize : (clearRegisters s).decSize = 0 := rfl
@[simp] theorem clearRegisters_errIndex : (clearRegisters s).errIndex = 0 := rfl
@[simp] theorem clearRegisters_raw : (clearRegisters s).raw = s.raw := rfl
@[simp] theorem clearRegisters_code : (clearRegisters s).code = s.code := rfl
@[simp] theorem clearRegisters_stream : (clearRegisters s).stream = s.stream := rfl
@[simp] theorem clearRegisters_encTable : (clearRegisters s).encTable = s.encTable := rfl
@[simp] theorem clearRegisters_decTable : (clearRegisters s).decTable = s.decTable := rfl
@[simp] theorem clearRegisters_work : (clearRegisters s).work = Work.zero := rfl
@[simp] theorem clearRegisters_pending : (clearRegisters s).pending = s.pending := rfl
@[simp] theorem clearRegisters_replies : (clearRegisters s).replies = s.replies := rfl
@[simp] theorem clearRegisters_fresh : (clearRegisters s).fresh = s.fresh := rfl

-- powerOn: the reset input (R281, R282)
@[simp] theorem powerOn_caps : (powerOn s).caps = s.caps := rfl
@[simp] theorem powerOn_status : (powerOn s).status = Status.zero := rfl
@[simp] theorem powerOn_rawLen : (powerOn s).rawLen = 0 := rfl
@[simp] theorem powerOn_codeLen : (powerOn s).codeLen = 0 := rfl
@[simp] theorem powerOn_streamLen : (powerOn s).streamLen = 0 := rfl
@[simp] theorem powerOn_encSize : (powerOn s).encSize = 0 := rfl
@[simp] theorem powerOn_decSize : (powerOn s).decSize = 0 := rfl
@[simp] theorem powerOn_errIndex : (powerOn s).errIndex = 0 := rfl
@[simp] theorem powerOn_raw : (powerOn s).raw = { epoch := s.fresh, cells := [] } := rfl
@[simp] theorem powerOn_code : (powerOn s).code = { epoch := s.fresh + 1, cells := [] } := rfl
@[simp] theorem powerOn_stream : (powerOn s).stream = { epoch := s.fresh + 2, cells := [] } := rfl
@[simp] theorem powerOn_encTable : (powerOn s).encTable = [] := rfl
@[simp] theorem powerOn_decTable : (powerOn s).decTable = [] := rfl
@[simp] theorem powerOn_work : (powerOn s).work = Work.zero := rfl
@[simp] theorem powerOn_pending : (powerOn s).pending = s.pending := rfl
@[simp] theorem powerOn_replies : (powerOn s).replies = s.replies := rfl
@[simp] theorem powerOn_fresh : (powerOn s).fresh = s.fresh + 3 := rfl

-- faultEntry: taking a fault (R257, R258), one lemma per field over all raising commands
variable (x : Raiser) (e : Raise)

@[simp] theorem faultEntry_caps : (faultEntry x e s).caps = s.caps := by
  rcases x with _ | (_ | _) | _ | _ | _ <;> rfl
@[simp] theorem faultEntry_status : (faultEntry x e s).status = Status.faulted e.cause := by
  rcases x with _ | (_ | _) | _ | _ | _ <;> rfl
@[simp] theorem faultEntry_errIndex : (faultEntry x e s).errIndex = BitVec.ofNat 32 e.index := by
  rcases x with _ | (_ | _) | _ | _ | _ <;> rfl
@[simp] theorem faultEntry_encTable : (faultEntry x e s).encTable = s.encTable := by
  rcases x with _ | (_ | _) | _ | _ | _ <;> rfl
@[simp] theorem faultEntry_decTable : (faultEntry x e s).decTable = s.decTable := by
  rcases x with _ | (_ | _) | _ | _ | _ <;> rfl
@[simp] theorem faultEntry_pending : (faultEntry x e s).pending = s.pending := by
  rcases x with _ | (_ | _) | _ | _ | _ <;> rfl
@[simp] theorem faultEntry_replies : (faultEntry x e s).replies = s.replies := by
  rcases x with _ | (_ | _) | _ | _ | _ <;> rfl
@[simp] theorem faultEntry_rawLen : (faultEntry x e s).rawLen = if x = .decode then 0 else s.rawLen := by
  rcases x with _ | (_ | _) | _ | _ | _ <;> rfl
@[simp] theorem faultEntry_codeLen : (faultEntry x e s).codeLen = if x = .encode false ∨ x = .unpack then 0 else s.codeLen := by
  rcases x with _ | (_ | _) | _ | _ | _ <;> rfl
@[simp] theorem faultEntry_streamLen : (faultEntry x e s).streamLen = if x = .pack then 0 else s.streamLen := by
  rcases x with _ | (_ | _) | _ | _ | _ <;> rfl
@[simp] theorem faultEntry_decSize : (faultEntry x e s).decSize = if x = .decode then 0 else s.decSize := by
  rcases x with _ | (_ | _) | _ | _ | _ <;> rfl
@[simp] theorem faultEntry_encSize_encode (training : Bool) :
    (faultEntry (.encode training) e s).encSize = 0 := by
  cases training <;> rfl
@[simp] theorem faultEntry_encSize_other (h : ∀ b, x ≠ .encode b) :
    (faultEntry x e s).encSize = s.encSize := by
  rcases x with _ | b | _ | _ | _
  · rfl
  · exact absurd rfl (h b)
  all_goals rfl
@[simp] theorem faultEntry_raw (h : x ≠ .decode) : (faultEntry x e s).raw = s.raw := by
  rcases x with _ | (_ | _) | _ | _ | _ <;> first | rfl | exact absurd rfl h
@[simp] theorem faultEntry_code (h : x ≠ .encode false) (h' : x ≠ .unpack) :
    (faultEntry x e s).code = s.code := by
  rcases x with _ | (_ | _) | _ | _ | _ <;> first | rfl | exact absurd rfl h | exact absurd rfl h'
@[simp] theorem faultEntry_stream (h : x ≠ .pack) : (faultEntry x e s).stream = s.stream := by
  rcases x with _ | (_ | _) | _ | _ | _ <;> first | rfl | exact absurd rfl h
@[simp] theorem faultEntry_decode_raw : (faultEntry .decode e s).raw = { epoch := s.fresh, cells := [] } := rfl
@[simp] theorem faultEntry_encode_code :
    (faultEntry (.encode false) e s).code = { epoch := s.fresh, cells := [] } := rfl
@[simp] theorem faultEntry_unpack_code : (faultEntry .unpack e s).code = { epoch := s.fresh, cells := [] } := rfl
@[simp] theorem faultEntry_pack_stream : (faultEntry .pack e s).stream = { epoch := s.fresh, cells := [] } := rfl
theorem faultEntry_fresh : s.fresh ≤ (faultEntry x e s).fresh ∧ (faultEntry x e s).fresh ≤ s.fresh + 2 := by
  rcases x with _ | (_ | _) | _ | _ | _ <;> simp [faultEntry] <;> omega

end Sys2Proof.Machine
end

