-- ==== Sys2Proof/Laws/Memory.lean ====
section
/-! SUPPORT. Reads after writes of the three buffers, and the canonical form under every memory operation. -/

namespace Sys2Proof.Machine

variable (s : State)

@[simp] theorem readRaw_writeRaw_self (i : Nat) (v : Symbol) : readRaw (writeRaw i v s) i = v := by
  simp [readRaw]

@[simp] theorem readRaw_writeRaw_ne {i j : Nat} (v : Symbol) (h : j ≠ i) :
    readRaw (writeRaw i v s) j = readRaw s j := by
  simp [readRaw, h]

@[simp] theorem readCode_writeCode_self (i : Nat) (v : Half) : readCode (writeCode i v s) i = v := by
  simp [readCode]

@[simp] theorem readCode_writeCode_ne {i j : Nat} (v : Half) (h : j ≠ i) :
    readCode (writeCode i v s) j = readCode s j := by
  simp [readCode, h]

@[simp] theorem readStream_writeStream_self (i : Nat) (v : Symbol) : readStream (writeStream i v s) i = v := by
  simp [readStream]

@[simp] theorem readStream_writeStream_ne {i j : Nat} (v : Symbol) (h : j ≠ i) :
    readStream (writeStream i v s) j = readStream s j := by
  simp [readStream, h]

/-- Buffers that agree read alike. -/
theorem readRaw_congr {s t : State} (h : t.raw = s.raw) (i : Nat) : readRaw t i = readRaw s i := by
  simp [readRaw, h]

theorem readCode_congr {s t : State} (h : t.code = s.code) (i : Nat) : readCode t i = readCode s i := by
  simp [readCode, h]

theorem readStream_congr {s t : State} (h : t.stream = s.stream) (i : Nat) : readStream t i = readStream s i := by
  simp [readStream, h]

/-- An output buffer reads as the output sequence on its prefix. -/
theorem readRaw_produceRaw {out : List Symbol} {i : Nat} (h : i < out.length) :
    readRaw (produceRaw out s) i = out[i] := by
  simp [readRaw, h]

theorem readCode_produceCode {out : List Half} {i : Nat} (h : i < out.length) :
    readCode (produceCode out s) i = out[i] := by
  simp [readCode, h]

theorem readStream_produceStream {out : List Symbol} {i : Nat} (h : i < out.length) :
    readStream (produceStream out s) i = out[i] := by
  simp [readStream, h]

-- the canonical form

theorem reset_memory_wf : Memory.wf State.reset := by
  simp [Memory.wf, State.reset, cellsWf]

variable {s}

theorem writeRaw_memory_wf (h : Memory.wf s) (i : Nat) (v : Symbol) : Memory.wf (writeRaw i v s) :=
  ⟨cellSet_wf h.1 i v, h.2⟩

theorem writeCode_memory_wf (h : Memory.wf s) (i : Nat) (v : Half) : Memory.wf (writeCode i v s) :=
  ⟨h.1, cellSet_wf h.2.1 i v, h.2.2⟩

theorem writeStream_memory_wf (h : Memory.wf s) (i : Nat) (v : Symbol) : Memory.wf (writeStream i v s) :=
  ⟨h.1, h.2.1, cellSet_wf h.2.2.1 i v, h.2.2.2⟩

theorem produceRaw_memory_wf (h : Memory.wf s) (out : List Symbol) : Memory.wf (produceRaw out s) :=
  ⟨cellsFrom_wf 0 out, h.2⟩

theorem produceCode_memory_wf (h : Memory.wf s) (out : List Half) : Memory.wf (produceCode out s) :=
  ⟨h.1, cellsFrom_wf 0 out, h.2.2⟩

theorem produceStream_memory_wf (h : Memory.wf s) (out : List Symbol) : Memory.wf (produceStream out s) :=
  ⟨h.1, h.2.1, cellsFrom_wf 0 out, h.2.2.2⟩

theorem faultEntry_memory_wf (h : Memory.wf s) (x : Raiser) (e : Raise) : Memory.wf (faultEntry x e s) := by
  rcases x with _ | (_ | _) | _ | _ | _
  · exact h
  · exact produceCode_memory_wf (s := recordFault e s) h []
  · exact h
  · exact produceRaw_memory_wf (s := recordFault e s) h []
  · exact produceStream_memory_wf (s := recordFault e s) h []
  · exact produceCode_memory_wf (s := recordFault e s) h []

theorem clearRegisters_memory_wf (h : Memory.wf s) : Memory.wf (clearRegisters s) := h

theorem powerOn_memory_wf : Memory.wf (powerOn s) := by
  simp [Memory.wf, powerOn, cellsWf]

theorem insertEntry_wf {t : Table} (h : cellsWf t) (size p : Nat) (b : Symbol) : cellsWf (insertEntry t size p b) :=
  cellSet_wf h _ _

theorem encodeFinish_memory_wf (h : Memory.wf s) {r : EncRun} (hr : cellsWf r.table) (testing training : Bool) :
    Memory.wf (encodeFinish testing training r s) := by
  cases training
  · exact ⟨h.1, cellsFrom_wf 0 _, h.2.2.1, hr, h.2.2.2.2⟩
  · exact ⟨h.1, h.2.1, h.2.2.1, hr, h.2.2.2.2⟩

theorem decodeFinish_memory_wf (h : Memory.wf s) {r : DecRun} (hr : cellsWf r.table) :
    Memory.wf (decodeFinish r s) :=
  ⟨cellsFrom_wf 0 _, h.2.1, h.2.2.1, h.2.2.2.1, hr⟩

theorem packFinish_memory_wf (h : Memory.wf s) (bytes : List Symbol) : Memory.wf (packFinish bytes s) :=
  ⟨h.1, h.2.1, cellsFrom_wf 0 _, h.2.2.2⟩

theorem unpackFinish_memory_wf (h : Memory.wf s) (codes : List Half) : Memory.wf (unpackFinish codes s) :=
  ⟨h.1, cellsFrom_wf 0 _, h.2.2⟩

end Sys2Proof.Machine
end

