-- ==== Sys2Proof/Laws/Decoder.lean ====
section
/-! SUPPORT. What each operation of DECODE can do, said once. -/

namespace Sys2Proof.Machine

/-- `append` in one step (R158): it succeeds exactly when the sequence fits. -/
theorem appendSyms_eq (rawCap : Nat) (xs : List Symbol) (r : DecRun) :
    appendSyms rawCap xs r =
      if r.wp + xs.length ≤ rawCap ∨ xs = [] then
        .ok { r with wp := r.wp + xs.length, out := xs.reverse ++ r.out }
      else .error ⟨.bufferOverflow, r.pos⟩ := by
  induction xs generalizing r with
  | nil => simp [appendSyms]
  | cons x xs ih =>
    simp only [appendSyms]
    by_cases h : rawCap ≤ r.wp
    · have h2 : ¬(r.wp + (xs.length + 1) ≤ rawCap) := by omega
      simp [h, h2]
    · rw [if_neg h, ih]
      by_cases h3 : r.wp + (xs.length + 1) ≤ rawCap
      · simp [h3, Nat.add_assoc, Nat.add_comm 1]
      · have h4 : ¬(r.wp + 1 + xs.length ≤ rawCap) := by omega
        have h5 : xs ≠ [] := by
          rintro rfl
          simp only [List.length_nil] at h4
          omega
        simp [h3, h4, h5]

/-- What one later code can do (R155 to R158). -/
theorem decStep_cases {k rawCap c : Nat} {r r' : DecRun} (h : decStep k rawCap c r = .ok r') :
    ∃ entry r₁, decEntry k c r = some entry ∧ appendSyms rawCap entry r = .ok r₁ ∧
      r' = { decInsert k (firstSym entry) r₁ with prev := c, pos := r.pos + 1 } := by
  unfold decStep at h
  split at h
  · cases h
  · split at h
    · cases h
    · exact ⟨_, _, ‹_›, ‹_›, (Except.ok.inj h).symm⟩

/-- When a later code faults: no entry (R157), or its entry does not fit (R248 (d)). -/
theorem decStep_error {k rawCap c : Nat} {r : DecRun} {e : Raise} (h : decStep k rawCap c r = .error e) :
    (decEntry k c r = none ∧ e = ⟨.decodeError, r.pos⟩) ∨
    (∃ entry, decEntry k c r = some entry ∧ appendSyms rawCap entry r = .error e) := by
  unfold decStep at h
  split at h
  · exact .inl ⟨‹_›, (Except.error.inj h).symm⟩
  · split at h
    · exact .inr ⟨_, ‹_›, by rw [‹appendSyms _ _ _ = _›, Except.error.inj h]⟩
    · cases h

/-- When a later code has an entry (R155). -/
theorem decEntry_isSome_iff (k c : Nat) (r : DecRun) :
    (decEntry k c r).isSome ↔ c < r.size ∨ (c = r.size ∧ r.size < capacity k) := by
  unfold decEntry
  split
  · simp [*]
  · split <;> simp_all

theorem decScan_append (k rawCap : Nat) (xs ys : List Nat) (r : DecRun) :
    decScan k rawCap (xs ++ ys) r =
      match decScan k rawCap xs r with
      | .error e => .error e
      | .ok r' => decScan k rawCap ys r' := by
  induction xs generalizing r with
  | nil => rfl
  | cons x xs ih =>
    simp only [List.cons_append, decScan]
    cases decStep k rawCap x r with
    | error e => rfl
    | ok r' => exact ih r'

/-- A property of the run that every code keeps is kept by the loop. -/
theorem decScan_induct {k rawCap : Nat} {P : DecRun → Prop}
    (step : ∀ c r r', P r → decStep k rawCap c r = .ok r' → P r') (xs : List Nat) {r r' : DecRun} (h0 : P r)
    (h : decScan k rawCap xs r = .ok r') : P r' := by
  induction xs generalizing r with
  | nil => cases h; exact h0
  | cons x xs ih =>
    simp only [decScan] at h
    split at h
    · cases h
    · exact ih (step _ _ _ h0 ‹_›) h

/-- DECODE always gives a next state: it completes or takes the fault it raised (R160, R257). -/
theorem execDecode_cases (k : Nat) (s : State) :
    (∃ e, decodeRun k s = .error e ∧ execDecode k s = .next (faultEntry .decode e s)) ∨
    (∃ r, decodeRun k s = .ok r ∧ execDecode k s = .next (decodeFinish r s)) := by
  unfold execDecode
  cases h : decodeRun k s with
  | error e => exact .inl ⟨e, rfl, rfl⟩
  | ok r => exact .inr ⟨r, rfl, rfl⟩

end Sys2Proof.Machine
end

