-- ==== Sys2Proof/Laws/Encoder.lean ====
section
/-! SUPPORT. What each operation of ENCODE can do, said once. -/

namespace Sys2Proof.Machine

/-- What an emission can do (R125). -/
theorem emit_cases {a : EncArgs} {c : Nat} {r r' : EncRun} (h : emit a c r = .ok r') :
    (a.training = true ∧ r' = { r with nOut := r.nOut + 1 }) ∨
    (a.training = false ∧ r.nOut < a.codeCap ∧
      r' = { r with nOut := r.nOut + 1, out := BitVec.ofNat 16 c :: r.out }) := by
  unfold emit at h
  split at h
  · exact .inl ⟨‹_›, (Except.ok.inj h).symm⟩
  · split at h
    · cases h
    · exact .inr ⟨by simp_all, by omega, (Except.ok.inj h).symm⟩

/-- When an emission faults (R125, R248 (c)). -/
theorem emit_error {a : EncArgs} {c : Nat} {r : EncRun} {e : Raise} (h : emit a c r = .error e) :
    a.training = false ∧ a.codeCap ≤ r.nOut ∧ e = ⟨.bufferOverflow, r.pos⟩ := by
  unfold emit at h
  split at h
  · cases h
  · split at h
    · exact ⟨by simp_all, ‹_›, (Except.error.inj h).symm⟩
    · cases h

/-- What one symbol can do (R124): the first symbol, an extended match, or a miss. -/
theorem encStep_cases {a : EncArgs} {b : Symbol} {r r' : EncRun} (h : encStep a b r = .ok r') :
    (r.cur = none ∧ r' = encAdvance b.toNat r) ∨
    (∃ p c, r.cur = some p ∧ efind r.table r.size p b = some c ∧ r' = encAdvance c r) ∨
    (∃ p r₁, r.cur = some p ∧ efind r.table r.size p b = none ∧ emit a p r = .ok r₁ ∧
      r' = encAdvance b.toNat (encInsert a p b r₁)) := by
  unfold encStep at h
  split at h
  · exact .inl ⟨‹_›, (Except.ok.inj h).symm⟩
  · split at h
    · exact .inr (.inl ⟨_, _, ‹_›, ‹_›, (Except.ok.inj h).symm⟩)
    · split at h
      · cases h
      · exact .inr (.inr ⟨_, _, ‹_›, ‹_›, ‹_›, (Except.ok.inj h).symm⟩)

/-- A symbol faults only by its emission. -/
theorem encStep_error {a : EncArgs} {b : Symbol} {r : EncRun} {e : Raise} (h : encStep a b r = .error e) :
    ∃ p, r.cur = some p ∧ efind r.table r.size p b = none ∧ emit a p r = .error e := by
  unfold encStep at h
  split at h
  · cases h
  · split at h
    · cases h
    · split at h
      · exact ⟨_, ‹_›, ‹_›, by rw [‹emit _ _ _ = _›, Except.error.inj h]⟩
      · cases h

/-- The scan of two parts is the scan of the first, then of the second. -/
theorem encScan_append (a : EncArgs) (xs ys : List Symbol) (r : EncRun) :
    encScan a (xs ++ ys) r =
      match encScan a xs r with
      | .error e => .error e
      | .ok r' => encScan a ys r' := by
  induction xs generalizing r with
  | nil => rfl
  | cons x xs ih =>
    simp only [List.cons_append, encScan]
    cases encStep a x r with
    | error e => rfl
    | ok r' => exact ih r'

/-- A property of the run that every symbol keeps is kept by the scan. -/
theorem encScan_induct {a : EncArgs} {P : EncRun → Prop}
    (step : ∀ b r r', P r → encStep a b r = .ok r' → P r') (xs : List Symbol) {r r' : EncRun} (h0 : P r)
    (h : encScan a xs r = .ok r') : P r' := by
  induction xs generalizing r with
  | nil => cases h; exact h0
  | cons x xs ih =>
    simp only [encScan] at h
    split at h
    · cases h
    · exact ih (step _ _ _ h0 ‹_›) h

/-- ENCODE always gives a next state: it completes or takes the fault it raised (R133, R257). -/
theorem execEncode_cases (k : Nat) (keep testing training : Bool) (s : State) :
    (∃ e, encodeRun k keep testing training s = .error e ∧
      execEncode k keep testing training s = .next (faultEntry (.encode training) e s)) ∨
    (∃ r, encodeRun k keep testing training s = .ok r ∧
      execEncode k keep testing training s = .next (encodeFinish testing training r s)) := by
  unfold execEncode
  cases h : encodeRun k keep testing training s with
  | error e => exact .inl ⟨e, rfl, rfl⟩
  | ok r => exact .inr ⟨r, rfl, rfl⟩

/-- A run that ends without a fault: its start, scan and flush (R133). -/
theorem encodeRun_ok {k : Nat} {keep testing training : Bool} {s : State} {r : EncRun}
    (h : encodeRun k keep testing training s = .ok r) :
    ∃ size r₁, encodeStart k keep testing training s = .ok size ∧
      encScan (encArgs k testing training s) (rawInput s) (encInit size s.encTable) = .ok r₁ ∧
      encFlush (encArgs k testing training s) r₁ = .ok r := by
  unfold encodeRun at h
  split at h
  · cases h
  · split at h
    · cases h
    · exact ⟨_, _, ‹_›, ‹_›, h⟩

/-- A command that passes its start checks (R122, R123). -/
theorem encodeStart_ok {k : Nat} {keep testing training : Bool} {s : State} {size : Nat}
    (h : encodeStart k keep testing training s = .ok size) :
    (training && testing) = false ∧ legalWidth k = true ∧ s.rawLen.toNat ≤ s.caps.raw.toNat ∧
      (((keep = false ∨ s.encSize = 0) ∧ size = 256) ∨
        (keep = true ∧ s.encSize ≠ 0 ∧ s.encSize.toNat ≤ capacity k ∧ size = s.encSize.toNat)) := by
  unfold encodeStart at h
  split at h
  · cases h
  · split at h
    · cases h
    · split at h
      · cases h
      · split at h
        · refine ⟨by simp_all, by simp_all, by omega, .inl ⟨?_, (Except.ok.inj h).symm⟩⟩
          simp_all
        · split at h
          · cases h
          · refine ⟨by simp_all, by simp_all, by omega, .inr ⟨?_, ?_, by omega, (Except.ok.inj h).symm⟩⟩ <;>
              simp_all

end Sys2Proof.Machine
end

