-- ==== Sys2Proof/Laws/Packer.lean ====
section
/-! SUPPORT. What PACK and UNPACK can do, said once. -/

namespace Sys2Proof.Machine

theorem length_packStream (k : Nat) (codes : List Nat) :
    (packStream k codes).length = 1 + bodyLen k codes.length := by
  simp [packStream, Nat.add_comm]

/-- A PACK that completes: its checks passed (R181, R186). -/
theorem packRun_ok {k : Nat} {s : State} {bytes : List Symbol} (h : packRun k s = .ok bytes) :
    legalWidth k = true ∧ s.codeLen.toNat ≤ s.caps.code.toNat ∧
      1 + bodyLen k s.codeLen.toNat ≤ s.caps.stream.toNat ∧ codeOutOfRange k (codeInput s) = none ∧
      bytes = packStream k (codeInput s) := by
  unfold packRun at h
  split at h
  · cases h
  · split at h
    · cases h
    · split at h
      · cases h
      · split at h
        · cases h
        · exact ⟨by simp_all, by omega, by omega, ‹_›, (Except.ok.inj h).symm⟩

/-- PACK always gives a next state: it completes or takes the fault it raised (R187, R257). -/
theorem execPack_cases (k : Nat) (s : State) :
    (∃ e, packRun k s = .error e ∧ execPack k s = .next (faultEntry .pack e s)) ∨
    (∃ bytes, packRun k s = .ok bytes ∧ execPack k s = .next (packFinish bytes s)) := by
  unfold execPack
  cases h : packRun k s with
  | error e => exact .inl ⟨e, rfl, rfl⟩
  | ok r => exact .inr ⟨r, rfl, rfl⟩

@[simp] theorem length_bodyBits (body : List Symbol) : (bodyBits body).length = 8 * body.length := by
  induction body with
  | nil => rfl
  | cons b bs ih =>
    simp only [bodyBits, List.flatMap_cons, List.length_append, length_binN, List.length_cons] at ih ⊢
    omega

@[simp] theorem length_unpackCodes (k payload : Nat) (body : List Symbol) :
    (unpackCodes k payload body).length = payload / k := by
  simp [unpackCodes]

/-- When the framing checks pass (R203). -/
theorem framePayload_ok {k header nbody payload : Nat} (h : framePayload k header nbody = .ok payload) :
    header ≤ 7 ∧ header ≤ 8 * nbody ∧ (8 * nbody - header) % k = 0 ∧ payload = 8 * nbody - header := by
  unfold framePayload at h
  split at h
  · cases h
  · split at h
    · cases h
    · split at h
      · cases h
      · exact ⟨by omega, by omega, by simp_all, (Except.ok.inj h).symm⟩

/-- A stream that unpacks (R203, R207). -/
theorem unpackStream_ok {k codeCap : Nat} {bytes : List Symbol} {codes : List Half}
    (h : unpackStream k codeCap bytes = .ok codes) :
    ∃ header body payload, bytes = header :: body ∧
      framePayload k header.toNat body.length = .ok payload ∧ payload / k ≤ codeCap ∧
      codes = unpackCodes k payload body := by
  cases bytes with
  | nil => cases h
  | cons header body =>
    simp only [unpackStream] at h
    split at h
    · cases h
    · split at h
      · cases h
      · exact ⟨_, _, _, rfl, ‹_›, by omega, (Except.ok.inj h).symm⟩

/-- UNPACK always gives a next state: it completes or takes the fault it raised (R207, R257). -/
theorem execUnpack_cases (k : Nat) (s : State) :
    (∃ e, unpackRun k s = .error e ∧ execUnpack k s = .next (faultEntry .unpack e s)) ∨
    (∃ codes, unpackRun k s = .ok codes ∧ execUnpack k s = .next (unpackFinish codes s)) := by
  unfold execUnpack
  cases h : unpackRun k s with
  | error e => exact .inl ⟨e, rfl, rfl⟩
  | ok r => exact .inr ⟨r, rfl, rfl⟩

end Sys2Proof.Machine
end

