-- ==== Sys2Proof/Laws/HostPort.lean ====
section
/-! SUPPORT. What a command and a host operation can do, said once. -/

namespace Sys2Proof.Machine

/-- What a command can do: it completes, takes a fault of its own, or resets. -/
theorem exec_cases (i : Instr) (s : State) :
    (∃ x e, exec i s = .next (faultEntry x e s)) ∨
    (∃ testing training r, exec i s = .next (encodeFinish testing training r s)) ∨
    (∃ r, exec i s = .next (decodeFinish r s)) ∨
    (∃ bytes, exec i s = .next (packFinish bytes s)) ∨
    (∃ codes, exec i s = .next (unpackFinish codes s)) ∨
    exec i s = .next (clearRegisters s) := by
  cases i with
  | encode k keep testing training =>
    rcases execEncode_cases k keep testing training s with ⟨e, _, h⟩ | ⟨r, _, h⟩
    · exact .inl ⟨_, _, h⟩
    · exact .inr (.inl ⟨_, _, _, h⟩)
  | decode k =>
    rcases execDecode_cases k s with ⟨e, _, h⟩ | ⟨r, _, h⟩
    · exact .inl ⟨_, _, h⟩
    · exact .inr (.inr (.inl ⟨_, h⟩))
  | pack k =>
    rcases execPack_cases k s with ⟨e, _, h⟩ | ⟨r, _, h⟩
    · exact .inl ⟨_, _, h⟩
    · exact .inr (.inr (.inr (.inl ⟨_, h⟩)))
  | unpack k =>
    rcases execUnpack_cases k s with ⟨e, _, h⟩ | ⟨r, _, h⟩
    · exact .inl ⟨_, _, h⟩
    · exact .inr (.inr (.inr (.inr (.inl ⟨_, h⟩))))
  | reset => exact .inr (.inr (.inr (.inr (.inr rfl))))

/-- What a write to `CMD` does in an idle block (R220). -/
theorem issue_cases (w : CmdWord) (s : State) :
    (s.status.fault = true ∧ w = 0x000F#16 ∧ issue w s = exec .reset s) ∨
    (s.status.fault = true ∧ w ≠ 0x000F#16 ∧ issue w s = .next s) ∨
    (s.status.fault = false ∧ (∃ r, decode w = .error r) ∧
      issue w s = .next (faultEntry .illegal ⟨.illegalCommand, 0⟩ (accept s))) ∨
    (s.status.fault = false ∧ ∃ i, decode w = .ok i ∧ issue w s = exec i (accept s)) := by
  have hreset : decode w = .ok .reset → w = 0x000F#16 := by
    intro h
    by_contra hw
    unfold decode decodePlain at h
    rw [if_neg hw] at h
    split_ifs at h <;> cases h
  cases hf : s.status.fault with
  | true =>
    by_cases hw : w = 0x000F#16
    · subst hw
      exact .inl ⟨rfl, rfl, by rw [issue, if_pos hf]; rfl⟩
    · refine .inr (.inl ⟨rfl, hw, ?_⟩)
      rw [issue, if_pos hf]
      split
      · exact absurd (hreset ‹_›) hw
      · rfl
  | false =>
    cases hd : decode w with
    | error r => exact .inr (.inr (.inl ⟨rfl, ⟨r, rfl⟩, by simp [issue, hf, hd]⟩))
    | ok i => exact .inr (.inr (.inr ⟨rfl, i, rfl, by simp [issue, hf, hd]⟩))

/-- What an access inside its bounds answers. -/
theorem within_next {i bound : Nat} {t u : State} (h : within i bound t = .next u) : i < bound ∧ u = t := by
  unfold within at h
  split at h
  · cases h; exact ⟨‹_›, rfl⟩
  · cases h

/-- No host operation stops the machine with a fault. -/
theorem step_ne_fault (s : State) (f : Fault) : step s ≠ .fault f := nomatch f

/-- What a write at an aligned register offset can do (R223, R67). -/
theorem writeOffset_cases (offset : Nat) (v : Word) (s : State) :
    (offset = 0 ∧ writeOffset offset v s = issue (v.setWidth 16) s) ∨
    (offset = 0x08 ∧ writeOffset offset v s = .next { s with rawLen := v }) ∨
    (offset = 0x0C ∧ writeOffset offset v s = .next { s with codeLen := v }) ∨
    (offset = 0x10 ∧ writeOffset offset v s = .next { s with streamLen := v }) ∨
    (offset ≠ 0 ∧ offset ≠ 0x08 ∧ offset ≠ 0x0C ∧ offset ≠ 0x10 ∧ writeOffset offset v s = .next s) := by
  by_cases h0 : offset = 0
  · exact .inl ⟨h0, by subst h0; rfl⟩
  by_cases h8 : offset = 0x08
  · exact .inr (.inl ⟨h8, by subst h8; rfl⟩)
  by_cases hC : offset = 0x0C
  · exact .inr (.inr (.inl ⟨hC, by subst hC; rfl⟩))
  by_cases h10 : offset = 0x10
  · exact .inr (.inr (.inr (.inl ⟨h10, by subst h10; rfl⟩)))
  refine .inr (.inr (.inr (.inr ⟨h0, h8, hC, h10, ?_⟩)))
  unfold writeOffset regAt
  simp only [h0, h8, hC, h10, if_false]
  split_ifs <;> rfl

/-- What an idle block's host operation can do when it answers a next state. -/
theorem idleOp_cases {op : HostOp} {s t : State} (h : idleOp op s = .next t) :
    (∃ v, op = .writeReg 0 v ∧ issue (v.setWidth 16) s = .next t) ∨
    (∃ v, op = .writeReg 0x08 v ∧ t = { s with rawLen := v }) ∨
    (∃ v, op = .writeReg 0x0C v ∧ t = { s with codeLen := v }) ∨
    (∃ v, op = .writeReg 0x10 v ∧ t = { s with streamLen := v }) ∨
    (∃ i v, op = .writeRaw i v ∧ i < s.caps.raw.toNat ∧ t = writeRaw i v s) ∨
    (∃ i v, op = .writeCode i v ∧ i < s.caps.code.toNat ∧ t = writeCode i v s) ∨
    (∃ i v, op = .writeStream i v ∧ i < s.caps.stream.toNat ∧ t = writeStream i v s) ∨
    (∃ v, t = reply v s) ∨
    (∃ c v, op = .readDict c ∧ t = reply v { s with fresh := s.fresh + 1 }) ∨
    (op = .resetInput ∧ t = powerOn s) ∨
    t = s := by
  cases op with
  | writeReg offset v =>
    simp only [idleOp] at h
    split at h
    · rcases writeOffset_cases offset v s with ⟨ho, hw⟩ | ⟨ho, hw⟩ | ⟨ho, hw⟩ | ⟨ho, hw⟩ | ⟨_, _, _, _, hw⟩
      · exact .inl ⟨v, by rw [ho], by rw [← hw, h]⟩
      · rw [hw] at h; cases h
        exact .inr (.inl ⟨v, by rw [ho], rfl⟩)
      · rw [hw] at h; cases h
        exact .inr (.inr (.inl ⟨v, by rw [ho], rfl⟩))
      · rw [hw] at h; cases h
        exact .inr (.inr (.inr (.inl ⟨v, by rw [ho], rfl⟩)))
      · rw [hw] at h; cases h
        simp
    · cases h
  | readReg offset =>
    simp only [idleOp] at h
    split at h
    · cases h
      simp only [reduceCtorEq, false_and, exists_false, false_or]
      exact .inl ⟨_, rfl⟩
    · cases h
  | writeRaw i v =>
    obtain ⟨hi, rfl⟩ := within_next h
    exact .inr (.inr (.inr (.inr (.inl ⟨i, v, rfl, hi, rfl⟩))))
  | readRaw i =>
    obtain ⟨-, rfl⟩ := within_next h
    simp only [reduceCtorEq, false_and, exists_false, false_or]
    exact .inl ⟨_, rfl⟩
  | writeCode i v =>
    obtain ⟨hi, rfl⟩ := within_next h
    exact .inr (.inr (.inr (.inr (.inr (.inl ⟨i, v, rfl, hi, rfl⟩)))))
  | readCode i =>
    obtain ⟨-, rfl⟩ := within_next h
    simp only [reduceCtorEq, false_and, exists_false, false_or]
    exact .inl ⟨_, rfl⟩
  | writeStream i v =>
    obtain ⟨hi, rfl⟩ := within_next h
    exact .inr (.inr (.inr (.inr (.inr (.inr (.inl ⟨i, v, rfl, hi, rfl⟩))))))
  | readStream i =>
    obtain ⟨-, rfl⟩ := within_next h
    simp only [reduceCtorEq, false_and, exists_false, false_or]
    exact .inl ⟨_, rfl⟩
  | writeDict c v =>
    obtain ⟨-, rfl⟩ := within_next h
    simp
  | readDict c =>
    obtain ⟨-, rfl⟩ := within_next h
    simp only [reduceCtorEq, false_and, exists_false, false_or]
    unfold readDict
    split
    · exact .inl ⟨_, rfl⟩
    · exact .inr (.inl ⟨c, _, rfl, rfl⟩)
  | resetInput =>
    cases h
    exact .inr (.inr (.inr (.inr (.inr (.inr (.inr (.inr (.inr (.inl ⟨rfl, rfl⟩)))))))))

/-- What a host operation on a busy block can do when it answers a next state (R220, R290). -/
theorem busyOp_cases {op : HostOp} {s t : State} (h : busyOp op s = .next t) :
    (op = .readReg 0x04 ∧ t = reply s.status.word s) ∨ (op = .resetInput ∧ t = powerOn s) := by
  cases op <;> simp only [busyOp, reduceCtorEq] at h
  case readReg offset =>
    split at h
    · cases h
      exact .inl ⟨by simp_all, rfl⟩
    · cases h
  case resetInput =>
    cases h
    exact .inr ⟨rfl, rfl⟩

/-- What a step can do when it answers a next state. -/
theorem step_cases {s t : State} (h : step s = .next t) :
    (s.pending = [] ∧ t = s) ∨
    (∃ op rest, s.pending = op :: rest ∧ s.status.busy = true ∧ busyOp op { s with pending := rest } = .next t) ∨
    (∃ op rest, s.pending = op :: rest ∧ s.status.busy = false ∧ idleOp op { s with pending := rest } = .next t) := by
  unfold step stepHost at h
  split at h
  · cases h
    exact .inl ⟨‹_›, rfl⟩
  · unfold hostOp at h
    split at h
    · exact .inr (.inl ⟨_, _, ‹_›, ‹_›, h⟩)
    · exact .inr (.inr ⟨_, _, ‹_›, by simp_all, h⟩)

end Sys2Proof.Machine
end

