-- ==== Sys2Proof/Laws/PerInstr.lean ====
section
/-! SUPPORT. The family `TableRow` of statements about every command as syntax: the word of a well-formed command
selects exactly its own row of the opcode map (30_encoding R92). -/

namespace Sys2Proof.Laws.TableRow

/-- The command's word selects the row of its mnemonic and no other (R92). -/
def Statement (i : Instr) : Prop :=
  i.wellFormed = true → ∀ row ∈ opcodeTable, row.selects (Sys2Proof.encode i) = true ↔ row.mnemonic = i.mnemonic

theorem encode (k : Nat) (keep testing training : Bool) : Statement (.encode k keep testing training) := by
  intro h
  have hk : k < 32 := by simpa [Instr.wellFormed, kFits] using h
  clear h
  revert keep testing training
  interval_cases k <;> decide

theorem decode (k : Nat) : Statement (.decode k) := by
  intro h
  have hk : k < 32 := by simpa [Instr.wellFormed, kFits] using h
  clear h
  interval_cases k <;> decide

theorem pack (k : Nat) : Statement (.pack k) := by
  intro h
  have hk : k < 32 := by simpa [Instr.wellFormed, kFits] using h
  clear h
  interval_cases k <;> decide

theorem unpack (k : Nat) : Statement (.unpack k) := by
  intro h
  have hk : k < 32 := by simpa [Instr.wellFormed, kFits] using h
  clear h
  interval_cases k <;> decide

theorem reset : Statement .reset := by
  intro _
  decide

end Sys2Proof.Laws.TableRow
end

