-- ==== Sys2Proof/Laws/SourceLevel.lean ====
section
/-! SUPPORT. What the source's encoder and decoder on sequences can do in one step, and how their scans cut. -/

namespace Sys2Proof.Machine

@[simp] theorem length_rootKeys : rootKeys.length = 256 := by simp [rootKeys]

@[simp] theorem length_tableKeys (t : Table) (size : Nat) : (tableKeys t size).length = size := by
  simp [tableKeys]

/-- The sequence of a root code (R34). -/
theorem seqOf_root (t : Table) {c : Nat} (h : c < 256) : seqOf t c = [BitVec.ofNat 8 c] := by
  simp [seqOf, symsBack, h]

/-- A table of the root entries only has the root keys (R34). -/
theorem tableKeys_root (t : Table) : tableKeys t 256 = rootKeys :=
  List.map_congr_left fun _ hc => seqOf_root t (List.mem_range.mp hc)

/-- The first code is known exactly when it is a root (R154). -/
theorem rootKeys_getElem? (c : Nat) : rootKeys[c]? = if c < 256 then some [BitVec.ofNat 8 c] else none := by
  split
  · simp_all [rootKeys]
  · simp_all

/-- One step of the encoder: the candidate is a key and is taken, or its prefix is emitted (R124). -/
theorem srcStep_cases (k : Nat) (testing : Bool) (b : Symbol) (r : SrcRun) :
    (r.seq ++ [b] ∈ r.dict ∧ srcStep k testing b r = { r with seq := r.seq ++ [b] }) ∨
    (r.seq ++ [b] ∉ r.dict ∧ (srcStep k testing b r).seq = [b] ∧
      (srcStep k testing b r).codes = r.codes ++ [keyCode r.dict r.seq]) := by
  by_cases h : r.seq ++ [b] ∈ r.dict
  · exact .inl ⟨h, by simp [srcStep, h]⟩
  · exact .inr ⟨h, by simp [srcStep, h], by simp [srcStep, h]⟩

/-- A step emits at most one code (R124). -/
theorem srcStep_codes_length (k : Nat) (testing : Bool) (b : Symbol) (r : SrcRun) :
    r.codes.length ≤ (srcStep k testing b r).codes.length ∧
      (srcStep k testing b r).codes.length ≤ r.codes.length + 1 := by
  obtain ⟨-, h⟩ | ⟨-, -, h⟩ := srcStep_cases k testing b r <;> simp [h]

/-- The encoder's scan cuts at any point. -/
theorem srcScan_append (k : Nat) (testing : Bool) (xs ys : List Symbol) (r : SrcRun) :
    srcScan k testing (xs ++ ys) r = srcScan k testing ys (srcScan k testing xs r) := by
  induction xs generalizing r with
  | nil => rfl
  | cons b bs ih => exact ih _

@[simp] theorem emittedBefore_zero (k : Nat) (testing : Bool) (dict : List (List Symbol)) (msg : List Symbol) :
    emittedBefore k testing dict msg 0 = 0 := rfl

/-- Processing one more symbol emits at most one more code (R134 (c)). -/
theorem emittedBefore_succ (k : Nat) (testing : Bool) (dict : List (List Symbol)) (msg : List Symbol) (p : Nat) :
    emittedBefore k testing dict msg p ≤ emittedBefore k testing dict msg (p + 1) ∧
      emittedBefore k testing dict msg (p + 1) ≤ emittedBefore k testing dict msg p + 1 := by
  unfold emittedBefore
  rw [List.take_add_one, srcScan_append]
  cases msg[p]? with
  | none => simp [srcScan]
  | some b => exact srcStep_codes_length k testing b _

/-- When the decoder has an entry for a code (R155, R156, R157). -/
theorem srcDecEntry_isSome_iff (k c : Nat) (r : SrcDec) :
    (srcDecEntry k c r).isSome ↔ c < r.dict.length ∨ (c = r.dict.length ∧ r.dict.length < capacity k) := by
  unfold srcDecEntry
  split
  · simp_all
  · split <;> simp_all

/-- The decoder's scan cuts at any point. -/
theorem srcDecScan_append (k : Nat) (xs ys : List Nat) (r : SrcDec) :
    srcDecScan k (xs ++ ys) r = (srcDecScan k xs r).bind (srcDecScan k ys) := by
  induction xs generalizing r with
  | nil => rfl
  | cons c cs ih =>
    simp only [List.cons_append, srcDecScan]
    split
    · rfl
    · exact ih _

/-- An update appends its entry to the output (R158). -/
@[simp] theorem srcDecUpdate_output (k : Nat) (entry : List Symbol) (r : SrcDec) :
    (srcDecUpdate k entry r).output = r.output ++ entry := by
  simp [srcDecUpdate, SrcDec.output]

/-- An update inserts one sequence while the dictionary is not full (R158). -/
theorem srcDecUpdate_dict_length (k : Nat) (entry : List Symbol) (r : SrcDec) :
    (srcDecUpdate k entry r).dict.length =
      if r.dict.length < capacity k then r.dict.length + 1 else r.dict.length := by
  unfold srcDecUpdate
  split <;> simp

end Sys2Proof.Machine
end

