-- ==== Sys2Proof/Tests/Slice0.lean ====
section
/-! SUPPORT. Tests of the model against the spec's own words and vectors (95_test_vectors), and for every
obligation that has hypotheses a state that meets them. Expected values are the spec's, cited at each theorem. -/

namespace Sys2Proof.Tests

open Sys2Proof.Machine

-- Well-formedness: K = 32 does not fit bits 12:8 (R95); K = 0 and K = 31 do

theorem test_wellFormed_refuses_encode : (Instr.encode 32 true true true).wellFormed = false := by decide
theorem test_wellFormed_refuses_decode : (Instr.decode 32).wellFormed = false := by decide
theorem test_wellFormed_refuses_pack : (Instr.pack 32).wellFormed = false := by decide
theorem test_wellFormed_refuses_unpack : (Instr.unpack 32).wellFormed = false := by decide
theorem test_wellFormed_accepts_reset : Instr.reset.wellFormed = true := by decide

-- Decoding: words written bit by bit from R91 (15:13 zero, 12:8 K, 7 zero, 6 KEEP, 5 TESTING, 4 TRAINING, 3:0 OP)

theorem test_decode_encode_word : decode 0b0000100100010001#16 = .ok (.encode 9 false false true) := by decide
theorem test_decode_encode_flags : decode 0b0001111101100001#16 = .ok (.encode 31 true true false) := by decide
theorem test_decode_decode_word : decode 0b0000110100000010#16 = .ok (.decode 13) := by decide
theorem test_decode_pack_word : decode 0b0000101000000011#16 = .ok (.pack 10) := by decide
theorem test_decode_unpack_word : decode 0b0001000000000100#16 = .ok (.unpack 16) := by decide
theorem test_decode_reset_word : decode 0b0000000000001111#16 = .ok .reset := by decide

/-- R96: one word of each group it lists. -/
theorem test_decode_refuses_illegal :
    decode 0x0000#16 = .error .unknownOp ∧ decode 0x090E#16 = .error .unknownOp ∧
    decode 0x0981#16 = .error .reservedBits ∧ decode 0x8902#16 = .error .reservedBits ∧
    decode 0x0912#16 = .error .flagBits ∧ decode 0x0943#16 = .error .flagBits ∧
    decode 0x0924#16 = .error .flagBits ∧ decode 0x010F#16 = .error .resetOperand := by decide

/-- R92: no word selects two rows of the opcode map. -/
theorem test_opcode_rows_disjoint :
    opcodeTable.Pairwise fun a b => a.pattern &&& b.mask &&& a.mask ≠ b.pattern &&& a.mask &&& b.mask := by
  decide

/-- The opcode table's words, read as the host gives them. -/
theorem test_decodeTableWord :
    decodeTableWord 16 0x0901 = some (.encode 9 false false false) ∧
    decodeTableWord 16 0x000F = some .reset ∧ decodeTableWord 16 0x0005 = none := by decide

-- The helper states

/-- The block after reset with three small capacities. -/
def small : State := { State.reset with caps := { raw := 16, code := 16, stream := 16 } }

/-- `LOAD RAW` done by hand (R99). -/
def withRaw (vs : List Symbol) (s : State) : State :=
  { s with raw := { s.raw with cells := cellsFrom 0 vs }, rawLen := BitVec.ofNat 32 vs.length }

/-- `LOAD CODE` done by hand (R99). -/
def withCode (vs : List Half) (s : State) : State :=
  { s with code := { s.code with cells := cellsFrom 0 vs }, codeLen := BitVec.ofNat 32 vs.length }

/-- `LOAD STREAM` done by hand (R99). -/
def withStream (vs : List Symbol) (s : State) : State :=
  { s with stream := { s.stream with cells := cellsFrom 0 vs }, streamLen := BitVec.ofNat 32 vs.length }

/-- The dictionary that training on five bytes 0x41 leaves (95_test_vectors V-SRC-1). -/
def trained : State :=
  { small with encSize := 258, encTable := [(256, ⟨65, 65⟩), (257, ⟨256, 65⟩)] }

/-- V-SRC-1's input. -/
def fiveAs : State := withRaw [0x41, 0x41, 0x41, 0x41, 0x41] small

/-- V-DEC-1's and V-PK-1's input. -/
def scenarioCodes : State := withCode [65, 256, 256] small

/-- V-UP-1's input. -/
def scenarioStream : State := withStream [0x05, 0x20, 0xC0, 0x20, 0x00] small

/-- The state with another `CODE_CAP`. -/
def withCodeCap (n : Word) (s : State) : State := { s with caps := { s.caps with code := n } }

/-- The state with another `RAW_CAP`. -/
def withRawCap (n : Word) (s : State) : State := { s with caps := { s.caps with raw := n } }

/-- A state in the fault state, after `ConfigurationError`. -/
def faulted : State := { small with status := Status.faulted .configurationError }

/-- A state seen while a command executes. No run reaches one (log 1). -/
def busy : State := { small with status := { busy := true, done := false, fault := false, err := 0 } }

/-- The state with one host operation pending. -/
def given (op : HostOp) (s : State) : State := { s with pending := [op] }

/-- The next state of an outcome that has one, else a state as given. -/
def nextOr (s : State) : Host.Outcome State Fault Refusal → State
  | .next t => t
  | _ => s

/-- The next state of a command. -/
def after (i : Instr) (s : State) : State := nextOr s (exec i s)

/-- The next state of a step with one operation pending. -/
def afterOp (op : HostOp) (s : State) : State := nextOr s (step (given op s))

/-- The result of the source's decoder, for codes that have one. -/
def srcDecResult (k : Nat) (codes : List Nat) : SrcDec :=
  (srcDecode k codes).getD { seq := [], dict := [], entries := [] }

theorem exec_after (i : Instr) (s : State) : exec i s = .next (after i s) := by
  cases i <;> simp only [after, exec, execEncode, execDecode, execPack, execUnpack, execReset]
  all_goals first | rfl | (split <;> rfl)

theorem issues_issueOp (w : CmdWord) : Issues (issueOp w) w :=
  ⟨w.setWidth 32, rfl, by simp⟩

theorem trained_sound : EncDictSound trained where
  canonical := by decide
  size := .inr (by decide)
  codes := by unfold tableCodes; decide +kernel
  parents := by
    intro c h1 h2
    have h3 : c < 258 := h2
    obtain rfl | rfl : c = 256 ∨ c = 257 := by omega
    · exact ⟨⟨65, 65⟩, by decide, by decide⟩
    · exact ⟨⟨256, 65⟩, by decide, by decide⟩
  distinct := by
    intro c d e h1 h2 h3 h4 h5 h6
    have h7 : c < 258 := h2
    have h8 : d < 258 := h4
    obtain rfl | rfl : c = 256 ∨ c = 257 := by omega
    · obtain rfl | rfl : d = 256 ∨ d = 257 := by omega
      · rfl
      · exact absurd (h5.trans h6.symm) (by decide)
    · obtain rfl | rfl : d = 256 ∨ d = 257 := by omega
      · exact absurd (h5.trans h6.symm) (by decide)
      · rfl

theorem trained_inv : Inv trained where
  status := ⟨rfl, by decide, by decide, by decide⟩
  enc := trained_sound
  dec := ⟨.inl rfl, fun x h => by simp [trained, small, State.reset] at h,
    fun c h1 h2 => absurd h2 (by change ¬c < 0; omega)⟩
  buffers :=
    ⟨by decide, fun x h => by simp [trained, small, State.reset] at h,
      fun x h => by simp [trained, small, State.reset] at h,
      fun x h => by simp [trained, small, State.reset] at h, by decide, by decide⟩

-- One step of each command on the spec's vectors

/-- V-SRC-1: five bytes 0x41 at K = 9. -/
theorem test_encode_scenario :
    codeInput (after (.encode 9 false false false) fiveAs) = [65, 256, 256] ∧
    (after (.encode 9 false false false) fiveAs).encSize = 0 := by decide +kernel

/-- V-SRC-1: the same in training mode. -/
theorem test_encode_training :
    (after (.encode 9 false false true) fiveAs).encTable = trained.encTable ∧
    (after (.encode 9 false false true) fiveAs).encSize = 258 := by decide +kernel

/-- V-DEC-1, then V-DEC-14: the special case, and a code above the size. -/
theorem test_decode_scenario :
    rawInput (after (.decode 9) scenarioCodes) = [0x41, 0x41, 0x41, 0x41, 0x41] ∧
    (after (.decode 9) scenarioCodes).decSize = 258 := by decide +kernel

theorem test_decode_error :
    (after (.decode 9) (withCode [65, 256, 258] small)).status.word = 0x24#32 ∧
    (after (.decode 9) (withCode [65, 256, 258] small)).errIndex = 2 := by decide +kernel

/-- V-PK-1 and V-PK-23. -/
theorem test_pack_scenario :
    streamInput (after (.pack 9) scenarioCodes) = [0x05, 0x20, 0xC0, 0x20, 0x00] := by decide +kernel

theorem test_pack_width_13 :
    streamInput (after (.pack 13) (withCode [8191, 0, 4097] small)) = [0x01, 0xFF, 0xF8, 0x00, 0x20, 0x02] := by
  decide +kernel

/-- V-UP-2 and V-UP-8b. -/
theorem test_unpack_pad_ignored :
    codeInput (after (.unpack 9) (withStream [0x05, 0x20, 0xC0, 0x20, 0x1F] small)) = [65, 256, 256] := by
  decide +kernel

theorem test_unpack_width_10 :
    codeInput (after (.unpack 10) (withStream [0x04, 0xAB, 0xC1, 0x23] small)) = [687, 18] := by decide +kernel

/-- R222: RESET clears the fault state and does not set DONE. -/
theorem test_reset_clears :
    (after .reset { faulted with rawLen := 5, errIndex := 3 }).status.word = 0 ∧
    (after .reset { faulted with rawLen := 5, errIndex := 3 }).rawLen = 0 := by decide +kernel

/-- R50, V-SRC-1: the words of the dictionary window. -/
theorem test_dictionary_words :
    (afterOp (.readDict 65) trained).replies = [0x01000041] ∧
    (afterOp (.readDict 257) trained).replies = [0x00010041] := by decide +kernel

/-- `withFetchWord` runs the word as the next step: V-SRC-1 through the host's write. -/
theorem test_withFetchWord :
    codeInput (nextOr fiveAs (step (fiveAs.withFetchWord 16 0x0901))) = [65, 256, 256] := by decide +kernel

-- Witnesses: encoding

theorem witness_DecodeInvertsEncode :
    (Instr.encode 31 true true true).wellFormed = true ∧ (Instr.encode 0 false false false).wellFormed = true ∧
    (Instr.decode 31).wellFormed = true ∧ (Instr.pack 0).wellFormed = true ∧ (Instr.unpack 31).wellFormed = true ∧
    Instr.reset.wellFormed = true := by decide

theorem witness_EncodeInvertsDecode :
    decode 0x1F71#16 = .ok (.encode 31 true true true) ∧ decode 0x0002#16 = .ok (.decode 0) := by decide

/-- A boundary value of each group of R96; OP 1, 4 and 15 are not in it. -/
theorem witness_ReservedWords :
    ReservedWord 0x0000#16 ∧ ReservedWord 0x0005#16 ∧ ReservedWord 0x000E#16 ∧ ReservedWord 0x010F#16 ∧
    ReservedWord 0x0081#16 ∧ ReservedWord 0x2001#16 ∧ ReservedWord 0x8004#16 ∧ ReservedWord 0x0012#16 ∧
    ReservedWord 0x0044#16 ∧ ¬ReservedWord 0x1F71#16 ∧ ¬ReservedWord 0x1F04#16 ∧ ¬ReservedWord 0x000F#16 := by
  simp [ReservedWord]

theorem witness_ReservedWordsRaiseIllegalCommand :
    ∃ (s : State) (op : HostOp) (rest : List HostOp) (w : CmdWord), s.pending = op :: rest ∧ Issues op w ∧
      s.status.busy = false ∧ s.status.fault = false ∧
      ReservedWord w :=
  ⟨given (issueOp 0x0000#16) small, issueOp 0x0000#16, [], 0x0000#16, rfl, issues_issueOp _, rfl, rfl,
    witness_ReservedWords.1⟩

-- Witnesses: command issue

theorem witness_StepRunsTheIssuedCommand :
    (∃ (s : State) (op : HostOp) (rest : List HostOp) (w : CmdWord) (i : Instr), s.pending = op :: rest ∧
      Issues op w ∧ s.status.busy = false ∧ s.status.fault = false ∧
      decode w = .ok i) ∧ ∃ s : State, s.pending = [] :=
  ⟨⟨given (issueOp 0x0901#16) fiveAs, issueOp 0x0901#16, [], 0x0901#16, .encode 9 false false false, rfl,
    issues_issueOp _, rfl, rfl, by decide⟩, State.reset, rfl⟩

theorem witness_FaultStateIgnoresAllButReset :
    (∃ (s : State) (op : HostOp) (rest : List HostOp), s.pending = op :: rest ∧ Issues op 0x000F#16 ∧
      s.status.busy = false ∧ s.status.fault = true) ∧
    (∃ (s : State) (op : HostOp) (rest : List HostOp) (w : CmdWord), s.pending = op :: rest ∧ Issues op w ∧
      s.status.busy = false ∧ s.status.fault = true ∧
      w ≠ 0x000F#16) ∧
    (∃ (s t : State) (op : HostOp) (f : Status), s.status.busy = false ∧ f.busy = false ∧ (∀ w, ¬Issues op w) ∧
      op ≠ .resetInput ∧ op ≠ .readReg 0x04 ∧ hostOp op s = .next t) ∧
    ∃ s : State, s.status.Sound s.errIndex ∧ s.status.fault = true :=
  ⟨⟨given (issueOp 0x000F#16) faulted, issueOp 0x000F#16, [], rfl, issues_issueOp _, rfl, rfl⟩,
    ⟨given (issueOp 0x0901#16) faulted, issueOp 0x0901#16, [], 0x0901#16, rfl, issues_issueOp _, rfl, rfl, by decide⟩,
    ⟨small, { small with rawLen := 7 }, .writeReg 0x08 7, faulted.status, rfl, rfl,
      fun w h => by obtain ⟨v, hv, -⟩ := h; simp at hv, by decide, by decide, rfl⟩,
    faulted, ⟨rfl, by decide, by decide, by decide⟩, rfl⟩

theorem witness_BusyBlockRefusesTheHost :
    (∃ (s : State) (rest : List HostOp), s.pending = HostOp.readReg 0x04 :: rest ∧ s.status.busy = true) ∧
    (∃ (s : State) (rest : List HostOp), s.pending = HostOp.resetInput :: rest ∧ s.status.busy = true) ∧
    ∃ (s : State) (op : HostOp) (rest : List HostOp), s.pending = op :: rest ∧ s.status.busy = true ∧
      op ≠ .readReg 0x04 ∧ op ≠ .resetInput :=
  ⟨⟨given (.readReg 0x04) busy, [], rfl, rfl⟩, ⟨given .resetInput busy, [], rfl, rfl⟩,
    given (.readReg 0x08) busy, .readReg 0x08, [], rfl, rfl, by decide, by decide⟩

theorem witness_ResetCommandClearsTheRegisters :
    (∃ (s : State) (op : HostOp) (rest : List HostOp), s.pending = op :: rest ∧ Issues op 0x000F#16 ∧
      s.status.busy = false) ∧
    (∃ (s : State) (t : State) (op : HostOp) (rest : List HostOp), s.pending = op :: rest ∧ s.status.fault = true ∧
      step s = .next t ∧ t.status.fault = false ∧
      Issues op 0x000F#16) ∧
    ∃ (s : State) (t : State) (rest : List HostOp), s.pending = HostOp.resetInput :: rest ∧ s.status.fault = true ∧
      step s = .next t ∧
      t.status.fault = false :=
  ⟨⟨given (issueOp 0x000F#16) fiveAs, issueOp 0x000F#16, [], rfl, issues_issueOp _, rfl⟩,
    ⟨given (issueOp 0x000F#16) faulted, _, issueOp 0x000F#16, [], rfl, rfl, rfl, rfl, issues_issueOp _⟩,
    given .resetInput faulted, _, [], rfl, rfl, rfl, rfl⟩

theorem witness_ResetEventSetsResetValues :
    (∃ (s : State) (rest : List HostOp), s.pending = HostOp.resetInput :: rest) ∧
    ∃ (s : State) (op : HostOp) (rest : List HostOp), s.pending = op :: rest ∧ Issues op 0x000F#16 ∧
      s.status.busy = false :=
  ⟨⟨given .resetInput fiveAs, [], rfl⟩,
    given (issueOp 0x000F#16) fiveAs, issueOp 0x000F#16, [], rfl, issues_issueOp _, rfl⟩

-- Witnesses: faults and the invariant

theorem witness_FaultEntryRecordsTheFault :
    ∃ (x : Raiser) (c : Cause) (idx : Nat) (s t : State), t = faultEntry x ⟨c, idx⟩ s ∧ t.status.word = 0x24#32 :=
  ⟨.decode, .decodeError, 2, scenarioCodes, _, rfl, by decide⟩

theorem witness_EveryCommandEndsDoneOrFaulted :
    (∃ (s : State) (op : HostOp) (rest : List HostOp), s.pending = op :: rest ∧ Issues op 0x000F#16 ∧
      s.status.busy = false ∧
      s.status.Sound s.errIndex) ∧
    ∃ (s : State) (op : HostOp) (rest : List HostOp) (w : CmdWord), s.pending = op :: rest ∧ Issues op w ∧
      s.status.busy = false ∧ s.status.Sound s.errIndex ∧
      w ≠ 0x000F#16 :=
  ⟨⟨given (issueOp 0x000F#16) faulted, issueOp 0x000F#16, [], rfl, issues_issueOp _, rfl,
      ⟨rfl, by decide, by decide, by decide⟩⟩,
    given (issueOp 0x0901#16) fiveAs, issueOp 0x0901#16, [], 0x0901#16, rfl, issues_issueOp _, rfl,
      ⟨rfl, by decide, by decide, by decide⟩, by decide⟩

theorem witness_FirstFaultIsKept :
    ∃ s t : State, s.status.fault = true ∧ step s = .next t ∧ t.status.fault = true :=
  ⟨given (issueOp 0x0901#16) faulted, _, rfl, rfl, rfl⟩

theorem witness_StepKeepsInv : ∃ s t : State, Inv s ∧ step s = .next t :=
  ⟨trained, trained, trained_inv, rfl⟩

theorem witness_StepKeepsTheParameters : ∃ s t : State, step s = .next t ∧ s.pending ≠ [] :=
  ⟨given (.readReg 0x14) trained, _, rfl, by decide⟩

-- Witnesses: ENCODE

/-- For SeedCapacityError the dictionary of V-FLT-18: 639 entries at K = 9. -/
theorem witness_EncodeStartChecks :
    (∃ (k : Nat) (testing training : Bool), ¬(testing = true ∧ training = true) ∧ (k < 9 ∨ 16 < k)) ∧
    (∃ (k : Nat) (s : State), 9 ≤ k ∧ k ≤ 16 ∧ s.caps.raw.toNat < s.rawLen.toNat) ∧
    ∃ (k : Nat) (s : State), 9 ≤ k ∧ k ≤ 16 ∧ s.rawLen.toNat ≤ s.caps.raw.toNat ∧ 2 ^ k < s.encSize.toNat :=
  ⟨⟨8, true, false, by decide, by decide⟩, ⟨9, { small with rawLen := 17 }, by decide⟩,
    9, { small with rawLen := 16, encSize := 639 }, by decide⟩

/-- Every hypothesis at its bound: a full dictionary, RAW full, as many symbols as CODE holds. -/
theorem witness_EncodeCompletes :
    ∃ (k : Nat) (keep testing training : Bool) (s : State),
      ¬(testing = true ∧ training = true) ∧ 9 ≤ k ∧ k ≤ 16 ∧ s.rawLen.toNat ≤ s.caps.raw.toNat ∧
      startSize keep s ≤ 2 ^ k ∧ (training = false → s.rawLen.toNat ≤ s.caps.code.toNat) :=
  ⟨9, true, true, false, { small with rawLen := 16, encSize := 512 }, by decide +kernel⟩

/-- V-SRC-1 with room for exactly its three codes, fewer than its symbols, and a kept dictionary. -/
theorem witness_EncodeMatchesTheSourceAlgorithm :
    (∃ (k : Nat) (s : State) (r : SrcRun), 9 ≤ k ∧ k ≤ 16 ∧ s.rawLen.toNat ≤ s.caps.raw.toNat ∧
      startSize false s ≤ 2 ^ k ∧ cellsWf s.encTable ∧ FreshStart false s ∧
      r = srcEncode k false (tableKeys s.encTable (startSize false s)) (rawInput s) ∧
      r.codes.length ≤ s.caps.code.toNat ∧ s.caps.code.toNat < s.rawLen.toNat) ∧
    ∃ (k : Nat) (s : State) (r : SrcRun), 9 ≤ k ∧ k ≤ 16 ∧ s.rawLen.toNat ≤ s.caps.raw.toNat ∧
      startSize true s ≤ 2 ^ k ∧ cellsWf s.encTable ∧ EncDictSound s ∧ s.encSize ≠ 0 ∧
      r = srcEncode k false (tableKeys s.encTable (startSize true s)) (rawInput s) ∧
      r.codes.length ≤ s.caps.code.toNat :=
  ⟨⟨9, withCodeCap 3 fiveAs, _, by decide, by decide, by decide, by decide, by decide, .inl rfl, rfl,
      by decide +kernel, by decide⟩,
    9, trained, _, by decide, by decide, by decide, by decide +kernel, by decide, trained_sound, by decide, rfl,
    by decide +kernel⟩

/-- V-SRC-1 with CODE_CAP = 1: the second code does not fit at symbol 3 (R135's trace); V-FLT-12: with CODE_CAP = 2
the flush does not. -/
theorem witness_EncodeOverflowsAtTheCodeThatDoesNotFit :
    (∃ (s : State) (p : Nat) (dict : List (List Symbol)), s.rawLen.toNat ≤ s.caps.raw.toNat ∧
      startSize false s ≤ 2 ^ 9 ∧ cellsWf s.encTable ∧ FreshStart false s ∧
      dict = tableKeys s.encTable (startSize false s) ∧ p < s.rawLen.toNat ∧
      emittedBefore 9 false dict (rawInput s) p = s.caps.code.toNat ∧
      emittedBefore 9 false dict (rawInput s) (p + 1) = s.caps.code.toNat + 1 ∧ p = 3) ∧
    ∃ (s : State) (dict : List (List Symbol)), s.rawLen.toNat ≤ s.caps.raw.toNat ∧ startSize false s ≤ 2 ^ 9 ∧
      cellsWf s.encTable ∧ FreshStart false s ∧ dict = tableKeys s.encTable (startSize false s) ∧ s.rawLen ≠ 0 ∧
      emittedBefore 9 false dict (rawInput s) s.rawLen.toNat = s.caps.code.toNat :=
  ⟨⟨withCodeCap 1 fiveAs, 3, _, by decide, by decide, by decide, .inl rfl, rfl, by decide, by decide +kernel,
      by decide +kernel, rfl⟩,
    withCodeCap 2 fiveAs, _, by decide, by decide, by decide, .inl rfl, rfl, by decide, by decide +kernel⟩

theorem witness_EncodeCapacityBound :
    (∃ (s : State) (n : Nat), sizeLegal s.encSize ∧ encodeStart 9 true false false s = .ok n) ∧
    ∃ (a : EncArgs) (msg : List Symbol) (r r₁ r₂ : EncRun), 256 ≤ r.size ∧ r.size ≤ 2 ^ a.k ∧
      encScan a msg r = .ok r₁ ∧ encFlush a r₁ = .ok r₂ :=
  ⟨⟨trained, 258, .inr (by decide), rfl⟩,
    { k := 9, testing := false, training := false, codeCap := 4 }, [65], encInit 512 [],
    encAdvance 65 (encInit 512 []), { encAdvance 65 (encInit 512 []) with nOut := 1, out := [65] },
    by decide, by decide, rfl, rfl⟩

theorem witness_EncodedCodesFitTheWidth :
    ∃ (s t u : State), FreshStart false s ∧ exec (.encode 9 false false false) s = .next t ∧
      t.status.fault = false ∧ 0 < t.codeLen.toNat ∧ exec (.pack 9) t = .next u ∧ u.status.fault = true :=
  ⟨{ fiveAs with caps := { fiveAs.caps with stream := 4 } }, _, _, .inl rfl, exec_after _ _, by decide +kernel,
    by decide +kernel, exec_after _ _, by decide +kernel⟩

theorem witness_TestingModeFreezesTheDictionary :
    (∃ s t : State, exec (.encode 9 true true false) s = .next t ∧ t.status.fault = false ∧ s.encSize = 258) ∧
    ∃ (s : State), FreshStart false s ∧ s.rawLen.toNat ≤ s.caps.raw.toNat ∧ s.rawLen.toNat ≤ s.caps.code.toNat ∧
      0 < s.rawLen.toNat :=
  ⟨⟨withRaw [0x41, 0x41] trained, _, exec_after _ _, by decide +kernel, rfl⟩, fiveAs, .inl rfl, by decide, by decide,
    by decide⟩

theorem witness_TrainingModeBuildsTheDictionary :
    (∃ s t : State, exec (.encode 9 true false true) s = .next t) ∧
    ∃ (s : State) (r : EncRun), encodeRun 9 false false false s = .ok r ∧ r.size = 258 :=
  ⟨⟨trained, _, exec_after _ _⟩, fiveAs,
    { pos := 5, nOut := 3, cur := some 256, size := 258, table := trained.encTable, out := [256, 256, 65] },
    by decide +kernel, rfl⟩

theorem witness_TrainedSizeCountsDistinctMisses :
    ∃ s₁ s₂ t₁ t₂ : State, FreshStart false s₁ ∧ FreshStart false s₂ ∧ cellsWf s₁.encTable ∧
      cellsWf s₂.encTable ∧ SameRaw s₁ s₂ ∧ s₁ ≠ s₂ ∧
      exec (.encode 9 false false true) s₁ = .next t₁ ∧ t₁.status.fault = false ∧
      exec (.encode 9 false false true) s₂ = .next t₂ ∧ t₂.status.fault = false :=
  ⟨fiveAs, { fiveAs with encSize := 258, encTable := trained.encTable }, _, _, .inl rfl, .inl rfl, by decide,
    by decide, ⟨rfl, fun _ _ => rfl⟩, by decide +kernel, exec_after _ _, by decide +kernel, exec_after _ _,
    by decide +kernel⟩

theorem witness_EncodeDictionaryLifecycle :
    (∃ s t : State, exec (.encode 9 true false false) s = .next t ∧ s.encSize = 258) ∧
    (∃ s t : State, s.status.fault = false ∧ exec (.encode 8 true false true) s = .next t ∧
      t.status.fault = true ∧ s.encSize = 258) ∧
    (∃ s t : State, exec (.encode 9 true true false) s = .next t ∧ t.status.fault = false ∧ s.encSize = 258) ∧
    (∃ s t : State, sizeLegal s.encSize ∧ exec (.encode 9 true false true) s = .next t ∧ t.status.fault = false ∧
      s.encSize = 258) ∧
    (∃ s t : State, exec (.pack 9) s = .next t) ∧ (∃ s t : State, exec .reset s = .next t) ∧
    ∃ (s t : State) (rest : List HostOp), s.pending = .resetInput :: rest ∧ step s = .next t ∧ s.encSize = 258 :=
  ⟨⟨trained, _, exec_after _ _, rfl⟩, ⟨trained, _, rfl, exec_after _ _, by decide +kernel, rfl⟩,
    ⟨trained, _, exec_after _ _, by decide +kernel, rfl⟩,
    ⟨trained, _, .inr (by decide), exec_after _ _, by decide +kernel, rfl⟩, ⟨trained, _, exec_after _ _⟩,
    ⟨trained, _, exec_after _ _⟩, given .resetInput trained, _, [], rfl, rfl, rfl⟩

theorem witness_EncodeDictionaryKeysAreUnique :
    ∃ (s : State) (c d : Nat), EncDictSound s ∧ c < s.encSize.toNat ∧ d < s.encSize.toNat ∧
      seqOf s.encTable c = seqOf s.encTable d ∧ [65, 65] <+: seqOf s.encTable c :=
  ⟨trained, 257, 257, trained_sound, by decide, by decide, rfl, by decide +kernel⟩

theorem witness_CandidateIsKeyWhenFound :
    (∃ (s : State) (p c : Nat) (b : Symbol), EncDictSound s ∧ p < s.encSize.toNat ∧
      efind s.encTable s.encSize.toNat p b = some c) ∧
    ∃ (s : State) (p : Nat) (b : Symbol), EncDictSound s ∧ p < s.encSize.toNat ∧
      efind s.encTable s.encSize.toNat p b = none :=
  ⟨⟨trained, 256, 257, 65, trained_sound, by decide, by decide⟩,
    trained, 257, 65, trained_sound, by decide, by decide⟩

-- Witnesses: DECODE

theorem witness_DecodeStartChecks :
    (∃ k : Nat, k < 9 ∨ 16 < k) ∧ ∃ (k : Nat) (s : State), 9 ≤ k ∧ k ≤ 16 ∧ s.caps.code.toNat < s.codeLen.toNat :=
  ⟨⟨17, by decide⟩, 9, { small with codeLen := 17 }, by decide⟩

theorem witness_DecodeOfNothingIsEmpty : ∃ (k : Nat) (s : State), 9 ≤ k ∧ k ≤ 16 ∧ s.codeLen = 0 :=
  ⟨16, small, by decide⟩

/-- The codes 65, 256, 257 take the greatest value allowed at each later index (V-DEC-6); V-FLT-11 with RAW_CAP = 5:
the output fits exactly, where the longest output of three codes would not. -/
theorem witness_DecodeWritesTheCodesSequences :
    (∃ s : State, (∃ r, srcDecode 9 (codeInput s) = some r) ∧ (∀ j, j < s.codeLen.toNat → Admissible 9 s j) ∧
      s.codeLen = 3) ∧
    ∃ (s : State) (r : SrcDec), s.codeLen.toNat ≤ s.caps.code.toNat ∧ srcDecode 9 (codeInput s) = some r ∧
      r.output.length = 5 ∧ s.caps.raw.toNat = 5 :=
  ⟨⟨withCode [65, 256, 257] small, ⟨srcDecResult 9 [65, 256, 257], by decide +kernel⟩,
      by unfold Admissible; decide +kernel, rfl⟩,
    withRawCap 5 scenarioCodes, srcDecResult 9 [65, 256, 256], by decide +kernel⟩

/-- V-DEC-14: code 258 at index 2; V-DEC-10: code 256 at index 0. -/
theorem witness_DecodeErrorNamesTheFirstBadCode :
    (∃ s t : State, exec (.decode 9) s = .next t ∧ t.status.done = false ∧
      t.status.err = Cause.decodeError.code) ∧
    (∃ (s : State) (n : Nat) (r : SrcDec), s.codeLen.toNat ≤ s.caps.code.toNat ∧ n < s.codeLen.toNat ∧
      ¬Admissible 9 s n ∧ (∀ j, j < n → Admissible 9 s j) ∧
      srcDecode 9 ((codeInput s).take n) = some r ∧ r.output.length ≤ s.caps.raw.toNat ∧ n = 2) ∧
    ∃ s : State, s.codeLen.toNat ≤ s.caps.code.toNat ∧ 0 < s.codeLen.toNat ∧ ¬Admissible 9 s 0 :=
  ⟨⟨withCode [65, 256, 258] small, _, exec_after _ _, by decide +kernel, by decide +kernel⟩,
    ⟨withCode [65, 256, 258] small, 2, srcDecResult 9 [65, 256], by unfold Admissible; decide +kernel⟩,
    withCode [256] small, by unfold Admissible; decide +kernel⟩

/-- V-FLT-11: with RAW_CAP = 4 the fifth symbol belongs to the code at index 2. -/
theorem witness_DecodeOverflowsAtTheCodeThatDoesNotFit :
    ∃ (s : State) (n : Nat) (before withIt : SrcDec), s.codeLen.toNat ≤ s.caps.code.toNat ∧ n < s.codeLen.toNat ∧
      srcDecode 9 ((codeInput s).take n) = some before ∧ srcDecode 9 ((codeInput s).take (n + 1)) = some withIt ∧
      before.output.length ≤ s.caps.raw.toNat ∧ s.caps.raw.toNat < withIt.output.length ∧ n = 2 :=
  ⟨withRawCap 4 scenarioCodes, 2, srcDecResult 9 [65, 256], srcDecResult 9 [65, 256, 256], by decide +kernel⟩

theorem witness_DecodeInvertsEncodeCommand :
    ∃ (s t : State) (r : EncRun), FreshStart false s ∧ cellsWf s.encTable ∧
      encodeRun 9 false false false s = .ok r ∧ exec (.encode 9 false false false) s = .next t :=
  ⟨fiveAs, _,
    { pos := 5, nOut := 3, cur := some 256, size := 258, table := trained.encTable, out := [256, 256, 65] },
    .inl rfl, by decide, by decide +kernel, exec_after _ _⟩

theorem witness_DecodeAtAnotherWidthIsRightOrFaults :
    (∃ s t u : State, FreshStart false s ∧ cellsWf s.encTable ∧
      exec (.encode 16 false false false) s = .next t ∧ t.status.fault = false ∧ exec (.decode 9) t = .next u) ∧
    ∃ s t u : State, FreshStart false s ∧ cellsWf s.encTable ∧
      exec (.encode 9 false false false) s = .next t ∧ t.status.fault = false ∧ exec (.decode 16) t = .next u :=
  ⟨⟨fiveAs, _, _, .inl rfl, by decide, exec_after _ _, by decide +kernel, exec_after _ _⟩,
    fiveAs, _, _, .inl rfl, by decide, exec_after _ _, by decide +kernel, exec_after _ _⟩

-- Witnesses: PACK and UNPACK

theorem witness_PackStartChecks :
    (∃ k : Nat, k < 9 ∨ 16 < k) ∧
    (∃ (k : Nat) (s : State), 9 ≤ k ∧ k ≤ 16 ∧ s.caps.code.toNat < s.codeLen.toNat) ∧
    ∃ (k : Nat) (s : State), 9 ≤ k ∧ k ≤ 16 ∧ s.codeLen.toNat ≤ s.caps.code.toNat ∧
      s.caps.stream.toNat < 1 + (k * s.codeLen.toNat + 7) / 8 :=
  ⟨⟨8, by decide⟩, ⟨16, { small with codeLen := 17 }, by decide⟩,
    9, { small with codeLen := 14 }, by decide⟩

/-- 512 at K = 9 after codes that fit (V-PK-26), and a PACK at K = 16. -/
theorem witness_PackFaultsAtTheFirstWideCode :
    (∃ (s : State) (i : Nat), s.codeLen.toNat ≤ s.caps.code.toNat ∧
      1 + (9 * s.codeLen.toNat + 7) / 8 ≤ s.caps.stream.toNat ∧ i < s.codeLen.toNat ∧
      2 ^ 9 ≤ (readCode s i).toNat ∧ ∀ j, j < i → (readCode s j).toNat < 2 ^ 9) ∧
    ∃ s t : State, exec (.pack 16) s = .next t :=
  ⟨⟨withCode [65, 511, 512, 70] small, 2, by decide +kernel⟩, withCode [65535] small, _, exec_after _ _⟩

theorem witness_PackWritesTheStream :
    ∃ (k : Nat) (s : State), 9 ≤ k ∧ k ≤ 16 ∧ s.codeLen.toNat ≤ s.caps.code.toNat ∧
      1 + (k * s.codeLen.toNat + 7) / 8 ≤ s.caps.stream.toNat ∧
      (∀ i, i < s.codeLen.toNat → (readCode s i).toNat < 2 ^ k) ∧ s.codeLen = 3 :=
  ⟨9, withCode [65, 511, 0] small, by decide +kernel⟩

theorem witness_PackPaddingIsCorrect :
    ∃ s t : State, exec (.pack 9) s = .next t ∧ t.status.fault = false ∧ s.codeLen = 3 :=
  ⟨scenarioCodes, _, exec_after _ _, by decide +kernel, rfl⟩

theorem witness_PackAccumulatorWritesTheSameBytes : ∃ k : Nat, 9 ≤ k ∧ k ≤ 16 := ⟨9, by decide⟩

/-- Each framing check of R203 at a boundary: no header, a header of 8, a pad longer than the body, a payload that
is no multiple of K; and one code where `CODE` holds none more. -/
theorem witness_UnpackStartChecks :
    (∃ k : Nat, k < 9 ∨ 16 < k) ∧
    (∃ s : State, s.caps.stream.toNat < s.streamLen.toNat) ∧
    (∃ s : State, s.streamLen.toNat ≤ s.caps.stream.toNat ∧ s.streamLen = 0) ∧
    (∃ s : State, s.streamLen.toNat ≤ s.caps.stream.toNat ∧ 7 < (readStream s 0).toNat) ∧
    (∃ s : State, s.streamLen.toNat ≤ s.caps.stream.toNat ∧
      8 * (s.streamLen.toNat - 1) < (readStream s 0).toNat) ∧
    (∃ s : State, s.streamLen.toNat ≤ s.caps.stream.toNat ∧
      (8 * (s.streamLen.toNat - 1) - (readStream s 0).toNat) % 9 ≠ 0) ∧
    ∃ s : State, s.streamLen.toNat ≤ s.caps.stream.toNat ∧ s.streamLen ≠ 0 ∧ (readStream s 0).toNat ≤ 7 ∧
      (readStream s 0).toNat ≤ 8 * (s.streamLen.toNat - 1) ∧
      (8 * (s.streamLen.toNat - 1) - (readStream s 0).toNat) % 9 = 0 ∧
      s.caps.code.toNat < (8 * (s.streamLen.toNat - 1) - (readStream s 0).toNat) / 9 :=
  ⟨⟨17, by decide⟩, ⟨{ small with streamLen := 17 }, by decide⟩, ⟨small, by decide⟩,
    ⟨withStream [0x08, 0x20, 0x80] small, by decide +kernel⟩, ⟨withStream [0x03] small, by decide +kernel⟩,
    ⟨withStream [0x00, 0x20, 0x80] small, by decide +kernel⟩,
    { scenarioStream with caps := { scenarioStream.caps with code := 2 } }, by decide +kernel⟩

theorem witness_UnpackWritesTheCodes :
    ∃ (k : Nat) (s : State) (n : Nat), 9 ≤ k ∧ k ≤ 16 ∧ s.streamLen.toNat ≤ s.caps.stream.toNat ∧
      s.streamLen ≠ 0 ∧ (readStream s 0).toNat ≤ 7 ∧
      8 * (s.streamLen.toNat - 1) = k * n + (readStream s 0).toNat ∧ n ≤ s.caps.code.toNat ∧ n = 3 :=
  ⟨9, scenarioStream, 3, by decide +kernel⟩

/-- V-UP-1 and V-UP-2: the pad bits are zeros in one stream and ones in the other. -/
theorem witness_UnpackIgnoresThePadBits :
    ∃ s₁ s₂ t₁ t₂ : State, SameSetting s₁ s₂ ∧ s₂.streamLen = s₁.streamLen ∧ 2 ≤ s₁.streamLen.toNat ∧
      (∀ j, j < s₁.streamLen.toNat - 1 → readStream s₂ j = readStream s₁ j) ∧
      (∀ i, i < 8 → (readStream s₁ 0).toNat ≤ i →
        (readStream s₂ (s₁.streamLen.toNat - 1)).getLsbD i = (readStream s₁ (s₁.streamLen.toNat - 1)).getLsbD i) ∧
      readStream s₂ 4 ≠ readStream s₁ 4 ∧
      exec (.unpack 9) s₁ = .next t₁ ∧ exec (.unpack 9) s₂ = .next t₂ :=
  ⟨scenarioStream, withStream [0x05, 0x20, 0xC0, 0x20, 0x1F] small, _, _, ⟨rfl, rfl, rfl⟩, by decide +kernel,
    by decide +kernel, by decide +kernel, by decide +kernel, by decide +kernel, exec_after _ _, exec_after _ _⟩

theorem witness_UnpackAccumulatorGivesTheSameCodes :
    ∃ (k pad : Nat) (body : List Symbol), 9 ≤ k ∧ k ≤ 16 ∧ pad ≤ 7 ∧ pad ≤ 8 * body.length ∧
      (8 * body.length - pad) % k = 0 ∧ body ≠ [] :=
  ⟨9, 7, [0x20, 0x80], by decide⟩

theorem witness_UnpackInvertsPack : ∃ s t : State, exec (.pack 9) s = .next t ∧ t.status.fault = false :=
  ⟨scenarioCodes, _, exec_after _ _, by decide +kernel⟩

theorem witness_PackRestoresTheUnpackedStream :
    ∃ s t : State, exec (.unpack 9) s = .next t ∧ t.status.fault = false :=
  ⟨scenarioStream, _, exec_after _ _, by decide +kernel⟩

-- Witnesses: the pipeline and the frames

theorem witness_CompressDecompressRoundTrip :
    ∃ (k : Nat) (s : State), 9 ≤ k ∧ k ≤ 16 ∧ s.status.Sound s.errIndex ∧ s.status.fault = false ∧
      cellsWf s.encTable ∧ s.rawLen.toNat ≤ s.caps.raw.toNat ∧ s.rawLen.toNat ≤ s.caps.code.toNat ∧
      1 + (k * s.rawLen.toNat + 7) / 8 ≤ s.caps.stream.toNat ∧
      s.pending = issueAll (expandPseudo (.compress k) ++ expandPseudo (.decompress k)) ∧ s.rawLen = 5 :=
  ⟨9, { fiveAs with pending := issueAll (expandPseudo (.compress 9) ++ expandPseudo (.decompress 9)) },
    by decide, by decide, ⟨rfl, by decide, by decide, by decide⟩, rfl, by decide, by decide, by decide, by decide,
    rfl, rfl⟩

theorem witness_CommandsWriteOnlyTheirOutput :
    (∃ s t : State, exec (.encode 9 true false false) s = .next t ∧ t.codeLen = 3) ∧
    (∃ s t : State, exec (.decode 9) s = .next t ∧ t.rawLen = 5) ∧
    (∃ s t : State, exec (.pack 9) s = .next t ∧ t.streamLen = 5) ∧
    (∃ s t : State, exec (.unpack 9) s = .next t ∧ t.codeLen = 3) ∧ ∃ s t : State, exec .reset s = .next t :=
  ⟨⟨fiveAs, _, exec_after _ _, by decide +kernel⟩, ⟨scenarioCodes, _, exec_after _ _, by decide +kernel⟩,
    ⟨scenarioCodes, _, exec_after _ _, by decide +kernel⟩, ⟨scenarioStream, _, exec_after _ _, by decide +kernel⟩,
    fiveAs, _, exec_after _ _⟩

/-- Two states that differ in what the command does not read. -/
theorem witness_ResultsDependOnTheInputOnly :
    (∃ s₁ s₂ t₁ t₂ : State, s₁ ≠ s₂ ∧ SameSetting s₁ s₂ ∧ SameRaw s₁ s₂ ∧ cellsWf s₁.encTable ∧
      cellsWf s₂.encTable ∧ exec (.encode 9 false false false) s₁ = .next t₁ ∧
      exec (.encode 9 false false false) s₂ = .next t₂) ∧
    (∃ s₁ s₂ t₁ t₂ : State, s₁ ≠ s₂ ∧ SameSetting s₁ s₂ ∧ SameRaw s₁ s₂ ∧ cellsWf s₁.encTable ∧
      cellsWf s₂.encTable ∧ s₂.encSize = s₁.encSize ∧
      (∀ c, c < s₁.encSize.toNat → 256 ≤ c → cellGet s₂.encTable c = cellGet s₁.encTable c) ∧
      exec (.encode 9 true false false) s₁ = .next t₁ ∧ exec (.encode 9 true false false) s₂ = .next t₂) ∧
    (∃ s₁ s₂ t₁ t₂ : State, s₁ ≠ s₂ ∧ SameSetting s₁ s₂ ∧ SameCode s₁ s₂ ∧ exec (.decode 9) s₁ = .next t₁ ∧
      exec (.decode 9) s₂ = .next t₂) ∧
    (∃ s₁ s₂ t₁ t₂ : State, s₁ ≠ s₂ ∧ SameSetting s₁ s₂ ∧ SameCode s₁ s₂ ∧ exec (.pack 9) s₁ = .next t₁ ∧
      exec (.pack 9) s₂ = .next t₂) ∧
    ∃ s₁ s₂ t₁ t₂ : State, s₁ ≠ s₂ ∧ SameSetting s₁ s₂ ∧ SameStream s₁ s₂ ∧ exec (.unpack 9) s₁ = .next t₁ ∧
      exec (.unpack 9) s₂ = .next t₂ :=
  ⟨⟨fiveAs, { fiveAs with encSize := 258, encTable := trained.encTable }, _, _, by decide +kernel, ⟨rfl, rfl, rfl⟩,
      ⟨rfl, fun _ _ => rfl⟩, by decide, by decide, exec_after _ _, exec_after _ _⟩,
    ⟨{ fiveAs with encSize := 257, encTable := [(256, ⟨65, 65⟩)] },
      { fiveAs with encSize := 257, encTable := trained.encTable }, _, _, by decide +kernel, ⟨rfl, rfl, rfl⟩,
      ⟨rfl, fun _ _ => rfl⟩, by decide, by decide, rfl, by decide +kernel, exec_after _ _, exec_after _ _⟩,
    ⟨scenarioCodes, { scenarioCodes with decSize := 256 }, _, _, by decide +kernel, ⟨rfl, rfl, rfl⟩,
      ⟨rfl, fun _ _ => rfl⟩, exec_after _ _, exec_after _ _⟩,
    ⟨scenarioCodes, { scenarioCodes with streamLen := 9 }, _, _, by decide +kernel, ⟨rfl, rfl, rfl⟩,
      ⟨rfl, fun _ _ => rfl⟩, exec_after _ _, exec_after _ _⟩,
    scenarioStream, { scenarioStream with codeLen := 9 }, _, _, by decide +kernel, ⟨rfl, rfl, rfl⟩,
      ⟨rfl, fun _ _ => rfl⟩, exec_after _ _, exec_after _ _⟩

/-- For each clause an operation that changes what the clause is about. -/
theorem witness_StateIsWrittenOnlyByItsWriters :
    (afterOp (.writeReg 0x08 5) small).rawLen ≠ small.rawLen ∧
    (afterOp (.writeReg 0x0C 5) small).codeLen ≠ small.codeLen ∧
    (afterOp (.writeReg 0x10 5) small).streamLen ≠ small.streamLen ∧
    (afterOp (issueOp 0x0901#16) trained).encSize ≠ trained.encSize ∧
    (afterOp (issueOp 0x0902#16) scenarioCodes).decSize ≠ scenarioCodes.decSize ∧
    (afterOp (issueOp 0x0911#16) fiveAs).encTable ≠ fiveAs.encTable ∧
    (afterOp (issueOp 0x0902#16) scenarioCodes).decTable ≠ scenarioCodes.decTable ∧
    readRaw (afterOp (.writeRaw 0 7) fiveAs) 0 ≠ readRaw fiveAs 0 ∧
    readCode (afterOp (.writeCode 0 7) scenarioCodes) 0 ≠ readCode scenarioCodes 0 ∧
    readStream (afterOp (.writeStream 0 7) scenarioStream) 0 ≠ readStream scenarioStream 0 ∧
    (afterOp (issueOp 0x0000#16) small).status ≠ small.status := by decide +kernel

-- Witnesses: the host's accesses

theorem witness_RegistersAtTheirOffsets :
    (∃ (s : State) (rest : List HostOp), s.pending = HostOp.writeReg 0x08 5 :: rest ∧ s.status.busy = false) ∧
    (∃ (s : State) (rest : List HostOp), s.pending = HostOp.writeReg 0x24 5 :: rest ∧ s.status.busy = false) ∧
    (∃ (s : State) (rest : List HostOp), s.pending = HostOp.readReg 0x00 :: rest ∧ s.status.busy = false) ∧
    (∃ (s : State) (rest : List HostOp), s.pending = HostOp.readReg 0x1C :: rest ∧ s.status.busy = false) ∧
    ∃ v v' : Word, v ≠ v' ∧ v.setWidth 16 = v'.setWidth 16 :=
  ⟨⟨given (.writeReg 0x08 5) small, [], rfl, rfl⟩, ⟨given (.writeReg 0x24 5) small, [], rfl, rfl⟩,
    ⟨given (.readReg 0x00) small, [], rfl, rfl⟩, ⟨given (.readReg 0x1C) small, [], rfl, rfl⟩,
    0x00010901, 0x00000901, by decide⟩

/-- The last element of each buffer. -/
theorem witness_BufferElementsReadBack :
    (∃ (s : State) (rest : List HostOp), s.pending = HostOp.writeRaw 15 7 :: rest ∧ s.status.busy = false ∧
      15 < s.caps.raw.toNat) ∧
    (∃ (s : State) (rest : List HostOp), s.pending = HostOp.writeCode 15 7 :: rest ∧ s.status.busy = false ∧
      15 < s.caps.code.toNat) ∧
    (∃ (s : State) (rest : List HostOp), s.pending = HostOp.writeStream 15 7 :: rest ∧ s.status.busy = false ∧
      15 < s.caps.stream.toNat) ∧
    (∃ (s : State) (rest : List HostOp), s.pending = HostOp.readRaw 15 :: rest ∧ s.status.busy = false ∧
      15 < s.caps.raw.toNat) ∧
    (∃ (s : State) (rest : List HostOp), s.pending = HostOp.readCode 15 :: rest ∧ s.status.busy = false ∧
      15 < s.caps.code.toNat) ∧
    ∃ (s : State) (rest : List HostOp), s.pending = HostOp.readStream 15 :: rest ∧ s.status.busy = false ∧
      15 < s.caps.stream.toNat :=
  ⟨⟨given (.writeRaw 15 7) small, [], rfl, rfl, by decide⟩, ⟨given (.writeCode 15 7) small, [], rfl, rfl, by decide⟩,
    ⟨given (.writeStream 15 7) small, [], rfl, rfl, by decide⟩, ⟨given (.readRaw 15) small, [], rfl, rfl, by decide⟩,
    ⟨given (.readCode 15) small, [], rfl, rfl, by decide⟩, given (.readStream 15) small, [], rfl, rfl, by decide⟩

/-- A root, an extended entry, and the first code at `ENC_SIZE`; the last index of the window. -/
theorem witness_DictionaryWindowWords :
    (∃ (s : State) (rest : List HostOp), s.pending = HostOp.readDict 255 :: rest ∧ s.status.busy = false ∧
      255 < s.encSize.toNat) ∧
    (∃ (s : State) (rest : List HostOp) (e : Entry), s.pending = HostOp.readDict 257 :: rest ∧
      s.status.busy = false ∧ 257 < s.encSize.toNat ∧
      cellGet s.encTable 257 = some e) ∧
    (∃ (s : State) (rest : List HostOp), s.pending = HostOp.readDict 258 :: rest ∧ s.status.busy = false ∧
      s.encSize.toNat ≤ 258) ∧
    ∃ (s : State) (rest : List HostOp), s.pending = HostOp.writeDict 65535 7 :: rest ∧ s.status.busy = false :=
  ⟨⟨given (.readDict 255) trained, [], rfl, rfl, by decide⟩,
    ⟨given (.readDict 257) trained, [], ⟨256, 65⟩, rfl, rfl, by decide, by decide⟩,
    ⟨given (.readDict 258) trained, [], rfl, rfl, by decide⟩,
    given (.writeDict 65535 7) trained, [], rfl, rfl⟩

/-- A refusal and a step that is not refused. -/
theorem witness_OnlyAccessesOutsideTheDomainStop :
    step (given (.readRaw 16) small) = .refused .noSuchElement ∧
    step (given (.readReg 0x02) small) = .refused .misalignedRegister ∧
    step (given (.readRaw 0) busy) = .refused .hostAccessWhileBusy ∧
    step (given (.writeDict 65535 7) small) = .next small := ⟨rfl, rfl, rfl, rfl⟩

end Sys2Proof.Tests
end

/-! # What a step keeps (O13, O14, O15)

The parameters of the machine (O15) are followed through `exec_cases` and `idleOp_cases`. For the invariant (O14) the
data (`DataSound`: dictionaries and buffers) and the flags are kept apart, because the flags are not sound while an
accepted command runs (BUSY is 1), and the data is. Every update of the data is a composition of a few primitive
updates, each with one rule. -/

namespace Sys2Proof.Machine

/-! ## The parameters of the machine -/

/-- `t` comes from `s` by one host operation or part of it, as far as the capacities, the queue of host operations, the
replies and the draw counter can tell. -/
structure ParametersKept (s t : State) : Prop where
  caps : t.caps = s.caps := by rfl
  pending : t.pending = s.pending := by rfl
  replies : t.replies = s.replies ∨ ∃ v, t.replies = v :: s.replies := by exact .inl rfl
  fresh : s.fresh ≤ t.fresh := by exact le_rfl

theorem faultEntry_parametersKept (x : Raiser) (e : Raise) (s : State) : ParametersKept s (faultEntry x e s) :=
  ⟨by simp, by simp, .inl (by simp), (faultEntry_fresh s x e).1⟩

theorem encodeFinish_parametersKept (testing training : Bool) (r : EncRun) (s : State) :
    ParametersKept s (encodeFinish testing training r s) := by
  cases training
  · exact { fresh := Nat.le_add_right s.fresh 2 }
  · exact { fresh := Nat.le_add_right s.fresh 1 }

theorem exec_parametersKept {i : Instr} {s t : State} (h : exec i s = .next t) : ParametersKept s t := by
  obtain ⟨x, e, ht⟩ | ⟨testing, training, r, ht⟩ | ⟨r, ht⟩ | ⟨bytes, ht⟩ | ⟨codes, ht⟩ | ht := exec_cases i s <;>
    cases h.symm.trans ht
  · exact faultEntry_parametersKept x e s
  · exact encodeFinish_parametersKept testing training r s
  · exact { fresh := Nat.le_add_right s.fresh 2 }
  · exact { fresh := Nat.le_add_right s.fresh 2 }
  · exact { fresh := Nat.le_add_right s.fresh 2 }
  · exact {}

theorem issue_parametersKept {w : CmdWord} {s t : State} (h : issue w s = .next t) : ParametersKept s t := by
  obtain ⟨-, -, hw⟩ | ⟨-, -, hw⟩ | ⟨-, -, hw⟩ | ⟨-, i, -, hw⟩ := issue_cases w s <;> rw [hw] at h
  · exact exec_parametersKept h
  · cases h
    exact {}
  · cases h
    obtain ⟨hc, hp, hr, hf⟩ := faultEntry_parametersKept .illegal ⟨.illegalCommand, 0⟩ (accept s)
    exact ⟨hc, hp, hr, hf⟩
  · obtain ⟨hc, hp, hr, hf⟩ := exec_parametersKept h
    exact ⟨hc, hp, hr, hf⟩

theorem powerOn_parametersKept (s : State) : ParametersKept s (powerOn s) :=
  { fresh := Nat.le_add_right s.fresh 3 }

theorem reply_parametersKept (v : Word) (s : State) : ParametersKept s (reply v s) :=
  { replies := .inr ⟨v, rfl⟩ }

theorem idleOp_parametersKept {op : HostOp} {s t : State} (h : idleOp op s = .next t) : ParametersKept s t := by
  obtain ⟨v, -, hi⟩ | ⟨v, -, rfl⟩ | ⟨v, -, rfl⟩ | ⟨v, -, rfl⟩ | ⟨i, v, -, -, rfl⟩ | ⟨i, v, -, -, rfl⟩ |
    ⟨i, v, -, -, rfl⟩ | ⟨v, rfl⟩ | ⟨c, v, -, rfl⟩ | ⟨-, rfl⟩ | rfl := idleOp_cases h
  · exact issue_parametersKept hi
  · exact {}
  · exact {}
  · exact {}
  · exact {}
  · exact {}
  · exact {}
  · exact reply_parametersKept v s
  · exact { replies := .inr ⟨v, rfl⟩, fresh := Nat.le_succ _ }
  · exact powerOn_parametersKept s
  · exact {}

theorem busyOp_parametersKept {op : HostOp} {s t : State} (h : busyOp op s = .next t) : ParametersKept s t := by
  obtain ⟨-, rfl⟩ | ⟨-, rfl⟩ := busyOp_cases h
  · exact reply_parametersKept s.status.word s
  · exact powerOn_parametersKept s

/-- Settles O15: no host operation touches the capacities or the queue it was taken from, and each adds at most one
reply and only raises the draw counter. -/
theorem stepKeepsTheParameters : Obligations.StepKeepsTheParameters := by
  intro s t h
  obtain ⟨hp, rfl⟩ | ⟨op, rest, hp, -, hop⟩ | ⟨op, rest, hp, -, hop⟩ := step_cases h
  · exact ⟨rfl, by simp [hp], .inl rfl, le_rfl⟩
  · obtain ⟨hcaps, hpending, hreplies, hfresh⟩ := busyOp_parametersKept hop
    exact ⟨hcaps, by simp [hp, hpending], hreplies, hfresh⟩
  · obtain ⟨hcaps, hpending, hreplies, hfresh⟩ := idleOp_parametersKept hop
    exact ⟨hcaps, by simp [hp, hpending], hreplies, hfresh⟩

/-! ## The flags -/

theorem Status.zero_sound : Status.zero.Sound 0 :=
  ⟨rfl, by decide, fun _ => ⟨rfl, rfl⟩, by decide⟩

/-- The codes of the eight causes are 1 to 8 (R241). -/
theorem Status.faulted_sound (c : Cause) (errIndex : Word) : (Status.faulted c).Sound errIndex where
  idle := rfl
  notBoth := by simp [Status.faulted]
  clear := by simp [Status.faulted]
  cause := fun _ => by cases c <;> decide

/-- A command that was accepted completes without a fault on record (R220, R225). -/
theorem Status.completed_sound {f : Status} {errIndex : Word} (hfault : f.fault = false)
    (hclear : f.err = 0 ∧ errIndex = 0) : f.completed.Sound errIndex where
  idle := rfl
  notBoth := by simp [Status.completed, hfault]
  clear := fun _ => hclear
  cause := by simp [Status.completed, hfault]

theorem exec_status_sound {i : Instr} {s t : State} (hfault : s.status.fault = false)
    (hclear : s.status.err = 0 ∧ s.errIndex = 0) (h : exec i s = .next t) : t.status.Sound t.errIndex := by
  have hdone : s.status.completed.Sound s.errIndex := Status.completed_sound hfault hclear
  obtain ⟨x, e, ht⟩ | ⟨testing, training, r, ht⟩ | ⟨r, ht⟩ | ⟨bytes, ht⟩ | ⟨codes, ht⟩ | ht := exec_cases i s <;>
    cases h.symm.trans ht
  · rw [faultEntry_status]
    exact Status.faulted_sound e.cause _
  · cases training <;> exact hdone
  · exact hdone
  · exact hdone
  · exact hdone
  · exact Status.zero_sound

/-! ## A dictionary table and its size -/

/-- `capacity(K)` of a legal width is at most 65536 (R6, R244). -/
theorem capacity_le_of_legalWidth {k : Nat} (h : legalWidth k = true) : capacity k ≤ 65536 := by
  have hk : k ≤ 16 := by
    simp only [legalWidth, Bool.and_eq_true, decide_eq_true_eq] at h
    exact h.2
  exact Nat.pow_le_pow_right (by decide) hk

/-- A table with a size of a dictionary that is held: what `EncDictSound` and `DecDictSound` have in common, in the
natural numbers of a run. -/
structure TableSound (t : Table) (size : Nat) : Prop where
  canonical : cellsWf t
  seeded : 256 ≤ size
  bounded : size ≤ 65536
  codes : tableCodes t
  parents : parentsSmaller t size

/-- Seeding with the root entries (R123, R152) asks nothing of the extended entries. -/
theorem TableSound.seed {t : Table} (hw : cellsWf t) (hc : tableCodes t) : TableSound t 256 :=
  ⟨hw, le_rfl, by decide, hc, fun c h1 h2 => by omega⟩

theorem TableSound.sizeLegal_ofNat {t : Table} {size : Nat} (h : TableSound t size) :
    sizeLegal (BitVec.ofNat 32 size) := by
  obtain ⟨-, hseed, hbound, -, -⟩ := h
  refine .inr ?_
  rw [BitVec.toNat_ofNat, Nat.mod_eq_of_lt (by omega)]
  exact ⟨hseed, hbound⟩

theorem TableSound.toNat_ofNat {t : Table} {size : Nat} (h : TableSound t size) :
    (BitVec.ofNat 32 size).toNat = size := by
  obtain ⟨-, -, hbound, -, -⟩ := h
  rw [BitVec.toNat_ofNat, Nat.mod_eq_of_lt (by omega)]

theorem cellGet_insertEntry_self (t : Table) (size p : Nat) (b : Symbol) :
    cellGet (insertEntry t size p b) size = some ⟨BitVec.ofNat 16 p, b⟩ :=
  cellGet_cellSet_self t size _

theorem cellGet_insertEntry_ne (t : Table) {size c : Nat} (p : Nat) (b : Symbol) (h : c ≠ size) :
    cellGet (insertEntry t size p b) c = cellGet t c :=
  cellGet_cellSet_ne t _ h

theorem toNat_ofNat_code {p : Nat} (h : p < 65536) : (BitVec.ofNat 16 p).toNat = p := by
  rw [BitVec.toNat_ofNat, Nat.mod_eq_of_lt h]

/-- An insertion at the size keeps the table sound when its parent is a code that is held (R124, R158). -/
theorem TableSound.insertEntry {t : Table} {size p : Nat} (h : TableSound t size) (hsize : size < 65536)
    (hp : p < size) (b : Symbol) : TableSound (insertEntry t size p b) (size + 1) where
  canonical := insertEntry_wf h.canonical size p b
  seeded := Nat.le_succ_of_le h.seeded
  bounded := hsize
  codes := by
    intro x hx
    rcases mem_cellSet hx with rfl | hx
    · exact ⟨h.seeded, hsize⟩
    · exact h.codes x hx
  parents := by
    intro c hlow hc
    rcases Nat.lt_succ_iff_lt_or_eq.mp hc with hlt | rfl
    · rw [cellGet_insertEntry_ne t p b hlt.ne]
      exact h.parents c hlow hlt
    · exact ⟨_, cellGet_insertEntry_self t c p b, by rw [toNat_ofNat_code (by omega)]; exact hp⟩

/-- A lookup that fails found no entry below the size with this parent and symbol (R37). -/
theorem cellGet_ne_of_efind_none {t : Table} {size p c : Nat} {b : Symbol} {e : Entry}
    (h : efind t size p b = none) (hlow : 256 ≤ c) (hc : c < size) (hget : cellGet t c = some e)
    (hparent : e.parent.toNat = p) : e.sym ≠ b := by
  simp only [efind, Option.map_eq_none_iff, List.find?_eq_none] at h
  have hmiss := h (c, e) (mem_of_cellGet hget)
  simpa [hlow, hc, hparent] using hmiss

/-- A lookup that succeeds finds a code below the size (R37). -/
theorem efind_lt {t : Table} {size p c : Nat} {b : Symbol} (h : efind t size p b = some c) : c < size := by
  simp only [efind, Option.map_eq_some_iff] at h
  obtain ⟨x, hx, rfl⟩ := h
  have hfound := List.find?_some hx
  simp only [Bool.and_eq_true, decide_eq_true_eq] at hfound
  exact hfound.1.1.2

/-- What an insertion after a failed lookup adds is new (R35 (b)). -/
theorem entriesDistinct_insertEntry {t : Table} {size p : Nat} {b : Symbol} (h : entriesDistinct t size)
    (hp : p < 65536) (hmiss : efind t size p b = none) : entriesDistinct (insertEntry t size p b) (size + 1) := by
  have hnew : ∀ c e, 256 ≤ c → c < size → cellGet t c = some e → e ≠ ⟨BitVec.ofNat 16 p, b⟩ := by
    rintro c e hlow hc hget rfl
    exact cellGet_ne_of_efind_none hmiss hlow hc hget (toNat_ofNat_code hp) rfl
  intro c d e hc hc' hd hd' hec hed
  rcases Nat.lt_succ_iff_lt_or_eq.mp hc' with hlt | rfl <;> rcases Nat.lt_succ_iff_lt_or_eq.mp hd' with hlt' | rfl
  · rw [cellGet_insertEntry_ne t p b hlt.ne] at hec
    rw [cellGet_insertEntry_ne t p b hlt'.ne] at hed
    exact h c d e hc hlt hd hlt' hec hed
  · rw [cellGet_insertEntry_ne t p b hlt.ne] at hec
    rw [cellGet_insertEntry_self] at hed
    exact absurd (Option.some.inj hed).symm (hnew c e hc hlt hec)
  · rw [cellGet_insertEntry_self] at hec
    rw [cellGet_insertEntry_ne t p b hlt'.ne] at hed
    exact absurd (Option.some.inj hec).symm (hnew d e hd hlt' hed)
  · rfl

/-! ## The running ENCODE -/

/-- What every symbol of an ENCODE keeps: the dictionary is sound, the pending code is held (R43), and the codes
written fit in `CODE` (R125). -/
structure EncRunSound (a : EncArgs) (r : EncRun) : Prop where
  table : TableSound r.table r.size
  distinct : entriesDistinct r.table r.size
  cur : ∀ p, r.cur = some p → p < r.size
  written : r.out.length ≤ r.nOut
  room : r.out.length ≤ a.codeCap

theorem emit_encRunSound {a : EncArgs} {c : Nat} {r r' : EncRun} (h : EncRunSound a r) (he : emit a c r = .ok r') :
    EncRunSound a r' := by
  obtain ⟨htable, hdistinct, hcur, hwritten, hroom⟩ := h
  obtain ⟨-, rfl⟩ | ⟨-, hcap, rfl⟩ := emit_cases he
  · exact ⟨htable, hdistinct, hcur, Nat.le_succ_of_le hwritten, hroom⟩
  · exact ⟨htable, hdistinct, hcur, Nat.succ_le_succ hwritten, Nat.lt_of_le_of_lt hwritten hcap⟩

/-- An emission writes no dictionary entry (R125). -/
theorem emit_table {a : EncArgs} {c : Nat} {r r' : EncRun} (he : emit a c r = .ok r') :
    r'.table = r.table ∧ r'.size = r.size ∧ r'.cur = r.cur := by
  obtain ⟨-, rfl⟩ | ⟨-, -, rfl⟩ := emit_cases he <;> exact ⟨rfl, rfl, rfl⟩

theorem encInsert_encRunSound {a : EncArgs} {p : Nat} {b : Symbol} {r : EncRun} (hk : capacity a.k ≤ 65536)
    (h : EncRunSound a r) (hcur : r.cur = some p) (hmiss : efind r.table r.size p b = none) :
    EncRunSound a (encInsert a p b r) := by
  unfold encInsert
  split
  · next hroom =>
    have hp : p < r.size := h.cur p hcur
    have hsize : r.size < 65536 := Nat.lt_of_lt_of_le hroom.1 hk
    exact ⟨h.table.insertEntry hsize hp b, entriesDistinct_insertEntry h.distinct (hp.trans hsize) hmiss,
      fun q hq => Nat.lt_succ_of_lt (h.cur q hq), h.written, h.room⟩
  · exact h

theorem encAdvance_encRunSound {a : EncArgs} {c : Nat} {r : EncRun} (h : EncRunSound a r) (hc : c < r.size) :
    EncRunSound a (encAdvance c r) :=
  ⟨h.table, h.distinct, fun _ hp => Option.some.inj hp ▸ hc, h.written, h.room⟩

/-- A root code is held in every dictionary (R34). -/
theorem EncRunSound.root_lt {a : EncArgs} {r : EncRun} (h : EncRunSound a r) (b : Symbol) : b.toNat < r.size :=
  Nat.lt_of_lt_of_le b.isLt h.table.seeded

theorem encStep_encRunSound {a : EncArgs} {b : Symbol} {r r' : EncRun} (hk : capacity a.k ≤ 65536)
    (h : EncRunSound a r) (hs : encStep a b r = .ok r') : EncRunSound a r' := by
  obtain ⟨-, rfl⟩ | ⟨p, c, -, hfind, rfl⟩ | ⟨p, r₁, hcur, hmiss, hemit, rfl⟩ := encStep_cases hs
  · exact encAdvance_encRunSound h (h.root_lt b)
  · exact encAdvance_encRunSound h (efind_lt hfind)
  · obtain ⟨htable, hsize, hcur₁⟩ := emit_table hemit
    have hins : EncRunSound a (encInsert a p b r₁) :=
      encInsert_encRunSound hk (emit_encRunSound h hemit) (hcur₁.trans hcur) (by rw [htable, hsize]; exact hmiss)
    exact encAdvance_encRunSound hins (hins.root_lt b)

theorem encFlush_encRunSound {a : EncArgs} {r r' : EncRun} (h : EncRunSound a r) (hf : encFlush a r = .ok r') :
    EncRunSound a r' := by
  unfold encFlush at hf
  split at hf
  · cases hf
    exact h
  · exact emit_encRunSound h hf

/-- The run starts from the root entries or from the dictionary held (R123). -/
theorem encInit_encRunSound {k : Nat} {keep testing training : Bool} {s : State} {size : Nat} (a : EncArgs)
    (h : EncDictSound s) (hs : encodeStart k keep testing training s = .ok size) :
    EncRunSound a (encInit size s.encTable) := by
  have hdict : TableSound s.encTable size ∧ entriesDistinct s.encTable size := by
    obtain ⟨-, -, -, ⟨-, rfl⟩ | ⟨-, hne, -, rfl⟩⟩ := encodeStart_ok hs
    · exact ⟨.seed h.canonical h.codes, fun c d e h1 h2 => by omega⟩
    · obtain ⟨hseed, hbound⟩ := h.size.resolve_left hne
      exact ⟨⟨h.canonical, hseed, hbound, h.codes, h.parents⟩, h.distinct⟩
  exact ⟨hdict.1, hdict.2, fun p hp => by simp [encInit] at hp, le_rfl, Nat.zero_le _⟩

theorem encodeRun_encRunSound {k : Nat} {keep testing training : Bool} {s : State} {r : EncRun}
    (h : EncDictSound s) (hr : encodeRun k keep testing training s = .ok r) :
    EncRunSound (encArgs k testing training s) r := by
  obtain ⟨size, r₁, hstart, hscan, hflush⟩ := encodeRun_ok hr
  obtain ⟨-, hwidth, -, -⟩ := encodeStart_ok hstart
  exact encFlush_encRunSound
    (encScan_induct (fun _ _ _ => encStep_encRunSound (capacity_le_of_legalWidth hwidth)) _
      (encInit_encRunSound _ h hstart) hscan) hflush

/-! ## The running DECODE -/

/-- What every code of a DECODE keeps: the dictionary is sound, the previous code is held (R44), and the symbols
written fit in `RAW` (R158). -/
structure DecRunSound (rawCap : Nat) (r : DecRun) : Prop where
  table : TableSound r.table r.size
  prev : r.prev < r.size
  written : r.out.length = r.wp
  room : r.wp ≤ rawCap

theorem decInit_decRunSound {c0 : Nat} {t : Table} (rawCap : Nat) (ht : TableSound t 256) (hc : c0 < 256) :
    DecRunSound rawCap (decInit c0 t) :=
  ⟨ht, hc, rfl, Nat.zero_le _⟩

/-- A successful `append` writes the sequence and nothing else (R158). -/
theorem appendSyms_ok {rawCap : Nat} {xs : List Symbol} {r r' : DecRun} (h : appendSyms rawCap xs r = .ok r') :
    (r.wp + xs.length ≤ rawCap ∨ xs = []) ∧ r' = { r with wp := r.wp + xs.length, out := xs.reverse ++ r.out } := by
  rw [appendSyms_eq] at h
  split at h
  · exact ⟨‹_›, (Except.ok.inj h).symm⟩
  · cases h

theorem appendSyms_decRunSound {rawCap : Nat} {xs : List Symbol} {r r' : DecRun} (h : DecRunSound rawCap r)
    (ha : appendSyms rawCap xs r = .ok r') : DecRunSound rawCap r' := by
  obtain ⟨htable, hprev, hwritten, hroom⟩ := h
  obtain ⟨hfits, rfl⟩ := appendSyms_ok ha
  refine ⟨htable, hprev, by simp [hwritten, Nat.add_comm], ?_⟩
  rcases hfits with hfits | rfl
  · exact hfits
  · exact hroom

/-- The insertion keeps the run sound, and then the code that was read is held: it was held before, or it is the one
inserted (R155, R156, R158). -/
theorem decInsert_decRunSound {k rawCap c : Nat} {x : Symbol} {r : DecRun} (hk : capacity k ≤ 65536)
    (h : DecRunSound rawCap r) (hc : c < r.size ∨ (c = r.size ∧ r.size < capacity k)) :
    DecRunSound rawCap (decInsert k x r) ∧ c < (decInsert k x r).size := by
  unfold decInsert
  split
  · next hfree =>
    exact ⟨⟨h.table.insertEntry (Nat.lt_of_lt_of_le hfree hk) h.prev x, Nat.lt_succ_of_lt h.prev, h.written, h.room⟩,
      by change c < r.size + 1; omega⟩
  · exact ⟨h, by omega⟩

theorem decStep_decRunSound {k rawCap c : Nat} {r r' : DecRun} (hk : capacity k ≤ 65536)
    (h : DecRunSound rawCap r) (hs : decStep k rawCap c r = .ok r') : DecRunSound rawCap r' := by
  obtain ⟨entry, r₁, hentry, happend, rfl⟩ := decStep_cases hs
  have hc : c < r.size ∨ (c = r.size ∧ r.size < capacity k) := (decEntry_isSome_iff k c r).mp (by simp [hentry])
  have hsize : r₁.size = r.size := by rw [(appendSyms_ok happend).2]
  obtain ⟨hins, hheld⟩ :=
    decInsert_decRunSound (x := firstSym entry) hk (appendSyms_decRunSound h happend) (hsize ▸ hc)
  exact ⟨hins.table, hheld, hins.written, hins.room⟩

theorem decCodes_decRunSound {k rawCap : Nat} {t : Table} {codes : List Nat} {r : DecRun} (hk : capacity k ≤ 65536)
    (ht : TableSound t 256) (h : decCodes k rawCap t codes = .ok r) : DecRunSound rawCap r := by
  cases codes with
  | nil =>
    cases h
    exact decInit_decRunSound rawCap ht (by decide)
  | cons c0 cs =>
    simp only [decCodes] at h
    split at h
    · cases h
    · split at h
      · cases h
      · next hroot _ r₁ happend =>
        obtain ⟨htable, hprev, hwritten, hroom⟩ :=
          appendSyms_decRunSound (decInit_decRunSound rawCap ht (Nat.not_le.mp hroot)) happend
        have hstart : DecRunSound rawCap { r₁ with pos := 1 } := ⟨htable, hprev, hwritten, hroom⟩
        exact decScan_induct (fun _ _ _ => decStep_decRunSound hk) cs hstart h

/-- A DECODE that completes passed its start checks (R151). -/
theorem decodeRun_ok {k : Nat} {s : State} {r : DecRun} (h : decodeRun k s = .ok r) :
    legalWidth k = true ∧ s.codeLen.toNat ≤ s.caps.code.toNat ∧
      decCodes k s.caps.raw.toNat s.decTable (codeInput s) = .ok r := by
  unfold decodeRun at h
  split at h
  · cases h
  · split at h
    · cases h
    · exact ⟨by simp_all, by omega, h⟩

theorem decodeRun_decRunSound {k : Nat} {s : State} {r : DecRun} (hw : cellsWf s.decTable) (h : DecDictSound s)
    (hr : decodeRun k s = .ok r) : DecRunSound s.caps.raw.toNat r := by
  obtain ⟨hwidth, -, hcodes⟩ := decodeRun_ok hr
  exact decCodes_decRunSound (capacity_le_of_legalWidth hwidth) (.seed hw h.codes) hcodes

/-! ## The room of PACK and UNPACK -/

theorem packRun_length_le {k : Nat} {s : State} {bytes : List Symbol} (h : packRun k s = .ok bytes) :
    bytes.length ≤ s.caps.stream.toNat := by
  obtain ⟨-, -, hroom, -, rfl⟩ := packRun_ok h
  rw [length_packStream]
  simpa [codeInput] using hroom

/-- An UNPACK that completes passed its start checks (R201). -/
theorem unpackRun_ok {k : Nat} {s : State} {codes : List Half} (h : unpackRun k s = .ok codes) :
    legalWidth k = true ∧ s.streamLen.toNat ≤ s.caps.stream.toNat ∧
      unpackStream k s.caps.code.toNat (streamInput s) = .ok codes := by
  unfold unpackRun at h
  split at h
  · cases h
  · split at h
    · cases h
    · exact ⟨by simp_all, by omega, h⟩

theorem unpackRun_length_le {k : Nat} {s : State} {codes : List Half} (h : unpackRun k s = .ok codes) :
    codes.length ≤ s.caps.code.toNat := by
  obtain ⟨-, -, hstream⟩ := unpackRun_ok h
  obtain ⟨header, body, payload, -, -, hroom, rfl⟩ := unpackStream_ok hstream
  rw [length_unpackCodes]
  exact hroom

/-! ## The data of a state -/

/-- The invariant without the flags: what holds also while an accepted command runs. -/
structure DataSound (s : State) : Prop where
  enc : EncDictSound s
  dec : DecDictSound s
  buffers : BuffersSound s

theorem EncDictSound.congr {s t : State} (h : EncDictSound s) (htable : t.encTable = s.encTable)
    (hsize : t.encSize = s.encSize) : EncDictSound t := by
  obtain ⟨hcanonical, hlegal, hcodes, hparents, hdistinct⟩ := h
  constructor <;> simpa only [htable, hsize]

theorem DecDictSound.congr {s t : State} (h : DecDictSound s) (htable : t.decTable = s.decTable)
    (hsize : t.decSize = s.decSize) : DecDictSound t := by
  obtain ⟨hlegal, hcodes, hparents⟩ := h
  constructor <;> simpa only [htable, hsize]

/-- No dictionary is held (R29): the entries listed above the size do not matter. -/
theorem EncDictSound.of_encSize_zero {s : State} (hw : cellsWf s.encTable) (hc : tableCodes s.encTable)
    (hsize : s.encSize = 0) : EncDictSound s where
  canonical := hw
  size := .inl hsize
  codes := hc
  parents := fun c _ hc => absurd hc (by simp [hsize])
  distinct := fun c _ _ _ hc => absurd hc (by simp [hsize])

theorem DecDictSound.of_decSize_zero {s : State} (hc : tableCodes s.decTable) (hsize : s.decSize = 0) :
    DecDictSound s where
  size := .inl hsize
  codes := hc
  parents := fun c _ hc => absurd hc (by simp [hsize])

theorem EncDictSound.of_tableSound {s : State} {size : Nat} (h : TableSound s.encTable size)
    (hd : entriesDistinct s.encTable size) (hsize : s.encSize = BitVec.ofNat 32 size) : EncDictSound s where
  canonical := h.canonical
  size := hsize ▸ h.sizeLegal_ofNat
  codes := h.codes
  parents := by rw [hsize, h.toNat_ofNat]; exact h.parents
  distinct := by rw [hsize, h.toNat_ofNat]; exact hd

theorem DecDictSound.of_tableSound {s : State} {size : Nat} (h : TableSound s.decTable size)
    (hsize : s.decSize = BitVec.ofNat 32 size) : DecDictSound s where
  size := hsize ▸ h.sizeLegal_ofNat
  codes := h.codes
  parents := by rw [hsize, h.toNat_ofNat]; exact h.parents

/-- `t` differs from `s` at most where `DataSound` does not look (flags, lengths, working registers, queue, replies),
and in draws taken since. -/
structure SameData (s t : State) : Prop where
  caps : t.caps = s.caps := by rfl
  encSize : t.encSize = s.encSize := by rfl
  decSize : t.decSize = s.decSize := by rfl
  raw : t.raw = s.raw := by rfl
  code : t.code = s.code := by rfl
  stream : t.stream = s.stream := by rfl
  encTable : t.encTable = s.encTable := by rfl
  decTable : t.decTable = s.decTable := by rfl
  fresh : s.fresh ≤ t.fresh := by exact le_rfl

theorem DataSound.congr {s t : State} (h : DataSound s) (hst : SameData s t) : DataSound t := by
  obtain ⟨henc, hdec, hw, hraw, hcode, hstream, hcaps, hdraws⟩ := h
  obtain ⟨ecaps, eenc, edec, eraw, ecode, estream, eet, edt, hfresh⟩ := hst
  refine ⟨henc.congr eet eenc, hdec.congr edt edec, ?_⟩
  constructor
  case draws =>
    rw [eraw, ecode, estream]
    omega
  all_goals simpa only [Memory.wf, ecaps, eraw, ecode, estream, eet, edt]

theorem cellsBelow_nil {α : Type} (bound : Nat) : cellsBelow ([] : List (Nat × α)) bound := by
  simp [cellsBelow]

theorem cellsBelow_cellsFrom {α : Type} {vs : List α} {bound : Nat} (h : vs.length ≤ bound) :
    cellsBelow (cellsFrom 0 vs) bound := by
  intro x hx
  have := mem_cellsFrom hx
  omega

theorem cellsBelow_cellSet {α : Type} {cells : List (Nat × α)} {bound i : Nat} (h : cellsBelow cells bound)
    (hi : i < bound) (v : α) : cellsBelow (cellSet cells i v) bound := by
  intro x hx
  rcases mem_cellSet hx with rfl | hx
  · exact hi
  · exact h x hx

/-! ### The primitive updates of the data -/

theorem DataSound.writeRaw {s : State} {i : Nat} (h : DataSound s) (hi : i < s.caps.raw.toNat) (v : Symbol) :
    DataSound (writeRaw i v s) := by
  obtain ⟨henc, hdec, hw, hraw, hcode, hstream, hcaps, hdraws⟩ := h
  exact ⟨henc.congr rfl rfl, hdec.congr rfl rfl, writeRaw_memory_wf hw i v, cellsBelow_cellSet hraw hi v, hcode,
    hstream, hcaps, hdraws⟩

theorem DataSound.writeCode {s : State} {i : Nat} (h : DataSound s) (hi : i < s.caps.code.toNat) (v : Half) :
    DataSound (writeCode i v s) := by
  obtain ⟨henc, hdec, hw, hraw, hcode, hstream, hcaps, hdraws⟩ := h
  exact ⟨henc.congr rfl rfl, hdec.congr rfl rfl, writeCode_memory_wf hw i v, hraw, cellsBelow_cellSet hcode hi v,
    hstream, hcaps, hdraws⟩

theorem DataSound.writeStream {s : State} {i : Nat} (h : DataSound s) (hi : i < s.caps.stream.toNat)
    (v : Symbol) : DataSound (writeStream i v s) := by
  obtain ⟨henc, hdec, hw, hraw, hcode, hstream, hcaps, hdraws⟩ := h
  exact ⟨henc.congr rfl rfl, hdec.congr rfl rfl, writeStream_memory_wf hw i v, hraw, hcode,
    cellsBelow_cellSet hstream hi v, hcaps, hdraws⟩

theorem DataSound.produceRaw {s : State} {out : List Symbol} (h : DataSound s)
    (hout : out.length ≤ s.caps.raw.toNat) : DataSound (produceRaw out s) := by
  obtain ⟨henc, hdec, hw, hraw, hcode, hstream, hcaps, hdraws⟩ := h
  exact ⟨henc.congr rfl rfl, hdec.congr rfl rfl, produceRaw_memory_wf hw out, cellsBelow_cellsFrom hout, hcode,
    hstream, hcaps, by simp; omega⟩

theorem DataSound.produceCode {s : State} {out : List Half} (h : DataSound s)
    (hout : out.length ≤ s.caps.code.toNat) : DataSound (produceCode out s) := by
  obtain ⟨henc, hdec, hw, hraw, hcode, hstream, hcaps, hdraws⟩ := h
  exact ⟨henc.congr rfl rfl, hdec.congr rfl rfl, produceCode_memory_wf hw out, hraw, cellsBelow_cellsFrom hout,
    hstream, hcaps, by simp; omega⟩

theorem DataSound.produceStream {s : State} {out : List Symbol} (h : DataSound s)
    (hout : out.length ≤ s.caps.stream.toNat) : DataSound (produceStream out s) := by
  obtain ⟨henc, hdec, hw, hraw, hcode, hstream, hcaps, hdraws⟩ := h
  exact ⟨henc.congr rfl rfl, hdec.congr rfl rfl, produceStream_memory_wf hw out, hraw, hcode,
    cellsBelow_cellsFrom hout, hcaps, by simp; omega⟩

/-- A new encode dictionary. -/
theorem DataSound.setEnc {s : State} {n : Word} {t : Table} (h : DataSound s)
    (henc : EncDictSound { s with encSize := n, encTable := t }) :
    DataSound { s with encSize := n, encTable := t } := by
  obtain ⟨-, hdec, ⟨hraw, hcode, hstream, -, hdt⟩, braw, bcode, bstream, hcaps, hdraws⟩ := h
  exact ⟨henc, hdec.congr rfl rfl, ⟨hraw, hcode, hstream, henc.canonical, hdt⟩, braw, bcode, bstream, hcaps, hdraws⟩

/-- A new decode dictionary. -/
theorem DataSound.setDec {s : State} {n : Word} {t : Table} (h : DataSound s) (hw : cellsWf t)
    (hdec : DecDictSound { s with decSize := n, decTable := t }) :
    DataSound { s with decSize := n, decTable := t } := by
  obtain ⟨henc, -, ⟨hraw, hcode, hstream, het, -⟩, braw, bcode, bstream, hcaps, hdraws⟩ := h
  exact ⟨henc.congr rfl rfl, hdec, ⟨hraw, hcode, hstream, het, hw⟩, braw, bcode, bstream, hcaps, hdraws⟩

theorem DataSound.clearEnc {s : State} (h : DataSound s) : DataSound { s with encSize := 0 } :=
  h.setEnc (.of_encSize_zero h.enc.canonical h.enc.codes rfl)

theorem DataSound.clearDec {s : State} (h : DataSound s) : DataSound { s with decSize := 0 } := by
  obtain ⟨-, -, -, -, hdt⟩ := h.buffers.canonical
  exact h.setDec hdt (.of_decSize_zero h.dec.codes rfl)

/-! ### The ends of a command and the reset event -/

theorem faultEntry_dataSound {s : State} (h : DataSound s) (x : Raiser) (e : Raise) :
    DataSound (faultEntry x e s) := by
  rcases x with _ | (_ | _) | _ | _ | _
  · exact h.congr {}
  · exact (h.produceCode (out := []) (Nat.zero_le _)).clearEnc.congr { fresh := Nat.le_succ _ }
  · exact h.clearEnc.congr { fresh := Nat.le_succ _ }
  · exact (h.produceRaw (out := []) (Nat.zero_le _)).clearDec.congr { fresh := Nat.le_succ _ }
  · exact (h.produceStream (out := []) (Nat.zero_le _)).congr { fresh := Nat.le_succ _ }
  · exact (h.produceCode (out := []) (Nat.zero_le _)).congr { fresh := Nat.le_succ _ }

theorem encodeKeep_dataSound {a : EncArgs} {s : State} {r : EncRun} (h : DataSound s) (hr : EncRunSound a r)
    (testing training : Bool) : DataSound (encodeKeep testing training r s) := by
  refine h.setEnc ?_
  cases hkeep : training || testing with
  | true => exact .of_tableSound hr.table hr.distinct (by simp)
  | false => exact .of_encSize_zero hr.table.canonical hr.table.codes (by simp)

theorem encodeFinish_dataSound {a : EncArgs} {s : State} {r : EncRun} (h : DataSound s) (hr : EncRunSound a r)
    (hcap : a.codeCap = s.caps.code.toNat) (testing training : Bool) :
    DataSound (encodeFinish testing training r s) := by
  have hkeep := encodeKeep_dataSound h hr testing training
  cases training with
  | true => exact hkeep.congr { fresh := Nat.le_succ _ }
  | false =>
    have hout : r.out.reverse.length ≤ s.caps.code.toNat := by
      rw [List.length_reverse, ← hcap]
      exact hr.room
    exact (hkeep.produceCode hout).congr { fresh := Nat.le_succ _ }

theorem decodeFinish_dataSound {s : State} {r : DecRun} (h : DataSound s)
    (hr : DecRunSound s.caps.raw.toNat r) : DataSound (decodeFinish r s) := by
  have hout : r.out.reverse.length ≤ s.caps.raw.toNat := by
    rw [List.length_reverse, hr.written]
    exact hr.room
  exact ((h.produceRaw hout).setDec hr.table.canonical (.of_tableSound hr.table rfl)).congr { fresh := Nat.le_succ _ }

theorem clearRegisters_dataSound {s : State} (h : DataSound s) : DataSound (clearRegisters s) :=
  h.clearEnc.clearDec.congr {}

/-- After the reset input nothing is known, so only the capacities rest on the state before (R282). -/
theorem powerOn_dataSound {s : State} (h : DataSound s) : DataSound (powerOn s) where
  enc := .of_encSize_zero (by simp [cellsWf]) (by simp [tableCodes]) rfl
  dec := .of_decSize_zero (by simp [tableCodes]) rfl
  buffers :=
    ⟨powerOn_memory_wf, cellsBelow_nil _, cellsBelow_nil _, cellsBelow_nil _, h.buffers.capacities, by simp⟩

/-- Every command keeps the data sound. -/
theorem exec_dataSound {i : Instr} {s t : State} (h : DataSound s) (ht : exec i s = .next t) : DataSound t := by
  cases i with
  | encode k keep testing training =>
    obtain ⟨e, -, he⟩ | ⟨r, hr, he⟩ := execEncode_cases k keep testing training s <;> cases ht.symm.trans he
    · exact faultEntry_dataSound h _ e
    · exact encodeFinish_dataSound h (encodeRun_encRunSound h.enc hr) rfl testing training
  | decode k =>
    obtain ⟨e, -, he⟩ | ⟨r, hr, he⟩ := execDecode_cases k s <;> cases ht.symm.trans he
    · exact faultEntry_dataSound h _ e
    · obtain ⟨-, -, -, -, hdt⟩ := h.buffers.canonical
      exact decodeFinish_dataSound h (decodeRun_decRunSound hdt h.dec hr)
  | pack k =>
    obtain ⟨e, -, he⟩ | ⟨bytes, hr, he⟩ := execPack_cases k s <;> cases ht.symm.trans he
    · exact faultEntry_dataSound h _ e
    · exact (h.produceStream (packRun_length_le hr)).congr { fresh := Nat.le_succ _ }
  | unpack k =>
    obtain ⟨e, -, he⟩ | ⟨codes, hr, he⟩ := execUnpack_cases k s <;> cases ht.symm.trans he
    · exact faultEntry_dataSound h _ e
    · exact (h.produceCode (unpackRun_length_le hr)).congr { fresh := Nat.le_succ _ }
  | reset =>
    cases ht
    exact clearRegisters_dataSound h

/-! ## The invariant -/

theorem Inv.dataSound {s : State} (h : Inv s) : DataSound s := ⟨h.enc, h.dec, h.buffers⟩

theorem DataSound.inv {s : State} (h : DataSound s) (hf : s.status.Sound s.errIndex) : Inv s :=
  ⟨hf, h.enc, h.dec, h.buffers⟩

/-- The flags of a state that meets the invariant survive any update that leaves them alone. -/
theorem Inv.update {s t : State} (h : Inv s) (ht : DataSound t) (hstatus : t.status = s.status := by rfl)
    (hindex : t.errIndex = s.errIndex := by rfl) : Inv t :=
  ht.inv (by rw [hstatus, hindex]; exact h.status)

theorem powerOn_inv {s : State} (h : Inv s) : Inv (powerOn s) :=
  (powerOn_dataSound h.dataSound).inv Status.zero_sound

/-- A write to `CMD`: the flags are not sound between acceptance and the command's end, the data is (R220). -/
theorem issue_inv {w : CmdWord} {s t : State} (h : Inv s) (ht : issue w s = .next t) : Inv t := by
  have haccept : DataSound (accept s) := h.dataSound.congr {}
  obtain ⟨-, -, hw⟩ | ⟨-, -, hw⟩ | ⟨-, -, hw⟩ | ⟨hfault, i, -, hw⟩ := issue_cases w s <;> rw [hw] at ht
  · cases ht
    exact (clearRegisters_dataSound h.dataSound).inv Status.zero_sound
  · cases ht
    exact h
  · cases ht
    exact (faultEntry_dataSound haccept _ _).inv (Status.faulted_sound _ _)
  · exact (exec_dataSound haccept ht).inv (exec_status_sound hfault (h.status.clear hfault) ht)

theorem idleOp_inv {op : HostOp} {s t : State} (h : Inv s) (ht : idleOp op s = .next t) : Inv t := by
  obtain ⟨v, -, hi⟩ | ⟨v, -, rfl⟩ | ⟨v, -, rfl⟩ | ⟨v, -, rfl⟩ | ⟨i, v, -, hi, rfl⟩ | ⟨i, v, -, hi, rfl⟩ |
    ⟨i, v, -, hi, rfl⟩ | ⟨v, rfl⟩ | ⟨c, v, -, rfl⟩ | ⟨-, rfl⟩ | rfl := idleOp_cases ht
  · exact issue_inv h hi
  · exact h.update (h.dataSound.congr {})
  · exact h.update (h.dataSound.congr {})
  · exact h.update (h.dataSound.congr {})
  · exact h.update (h.dataSound.writeRaw hi v)
  · exact h.update (h.dataSound.writeCode hi v)
  · exact h.update (h.dataSound.writeStream hi v)
  · exact h.update (h.dataSound.congr {})
  · exact h.update (h.dataSound.congr { fresh := Nat.le_succ _ })
  · exact powerOn_inv h
  · exact h

/-- Settles O14: taking an operation off the queue touches nothing the invariant speaks of; BUSY is 0, so the
operation is an idle block's. -/
theorem stepKeepsInv : Obligations.StepKeepsInv := by
  intro s t h ht
  obtain ⟨-, rfl⟩ | ⟨op, rest, -, hbusy, -⟩ | ⟨op, rest, -, -, hop⟩ := step_cases ht
  · exact h
  · rw [h.status.idle] at hbusy
    cases hbusy
  · have htaken : Inv { s with pending := rest } := h.update (h.dataSound.congr {})
    exact idleOp_inv htaken hop

/-- Settles O13: nothing is known after reset, every register is 0, and the draw numbers 0, 1, 2 are below 3. -/
theorem invAtReset : Obligations.InvAtReset where
  status := Status.zero_sound
  enc := .of_encSize_zero (by simp [State.reset, cellsWf]) (by simp [State.reset, tableCodes]) rfl
  dec := .of_decSize_zero (by simp [State.reset, tableCodes]) rfl
  buffers := ⟨reset_memory_wf, cellsBelow_nil _, cellsBelow_nil _, cellsBelow_nil _, by decide, by decide⟩

end Sys2Proof.Machine

/-! # The sequences of an encode dictionary (O26, O27)

R35 gives every entry a smaller parent and its own `(PARENT, SYM)` pair. The first makes the walk of R36 independent of
its bound, so that `seq` follows the parent (`seqOf_extended`); both together make sequences distinct (`seqOf_inj`). -/

namespace Sys2Proof.Machine

/-- Two tables have the same entries below a size (R50: what the host can see of a dictionary). -/
def SameBelow (size : Nat) (t t' : Table) : Prop := ∀ c, 256 ≤ c → c < size → cellGet t' c = cellGet t c

theorem SameBelow.insertEntry {t t' : Table} {size : Nat} (h : SameBelow size t t') (p : Nat) (b : Symbol) :
    SameBelow (size + 1) (insertEntry t size p b) (insertEntry t' size p b) := by
  intro c hlow hc
  rcases Nat.lt_succ_iff_lt_or_eq.mp hc with hlt | rfl
  · rw [cellGet_insertEntry_ne t' p b hlt.ne, cellGet_insertEntry_ne t p b hlt.ne]
    exact h c hlow hlt
  · rw [cellGet_insertEntry_self, cellGet_insertEntry_self]

/-- An insertion at the size changes nothing below it. -/
theorem sameBelow_insertEntry (t : Table) (size p : Nat) (b : Symbol) :
    SameBelow size t (insertEntry t size p b) :=
  fun _ _ hc => cellGet_insertEntry_ne t p b hc.ne

/-- The parent that is stored is at most the code that was meant, and so below the size (R35 (a)). -/
theorem parentsSmaller_insertEntry {t : Table} {size p : Nat} (h : parentsSmaller t size) (hp : p < size)
    (b : Symbol) : parentsSmaller (insertEntry t size p b) (size + 1) := by
  intro c hlow hc
  rcases Nat.lt_succ_iff_lt_or_eq.mp hc with hlt | rfl
  · rw [cellGet_insertEntry_ne t p b hlt.ne]
    exact h c hlow hlt
  · exact ⟨_, cellGet_insertEntry_self t c p b, Nat.lt_of_le_of_lt (Nat.mod_le _ _) hp⟩

/-! ## The walk along the parents -/

theorem symsBack_root (t : Table) (fuel : Nat) {c : Nat} (hc : c < 256) :
    symsBack t fuel c = [BitVec.ofNat 8 c] := by
  cases fuel <;> simp [symsBack, hc]

theorem symsBack_extended {t : Table} {fuel c : Nat} {e : Entry} (hlow : 256 ≤ c) (hget : cellGet t c = some e) :
    symsBack t (fuel + 1) c = e.sym :: symsBack t fuel e.parent.toNat := by
  simp [symsBack, Nat.not_lt.mpr hlow, hget]

/-- Parents decrease, so every bound above the code gives the whole walk, and the walk sees only entries below the
size. -/
theorem symsBack_eq_of_sameBelow {t t' : Table} {size : Nat} (hp : parentsSmaller t size)
    (h : SameBelow size t t') {c : Nat} (hc : c < size) {fuel fuel' : Nat} (hfuel : c < fuel) (hfuel' : c < fuel') :
    symsBack t' fuel' c = symsBack t fuel c := by
  induction c using Nat.strong_induction_on generalizing fuel fuel' with
  | _ c ih =>
    rcases Nat.lt_or_ge c 256 with hroot | hlow
    · rw [symsBack_root t fuel hroot, symsBack_root t' fuel' hroot]
    · obtain ⟨e, hget, hparent⟩ := hp c hlow hc
      obtain ⟨n, rfl⟩ := Nat.exists_eq_add_one_of_ne_zero (Nat.ne_zero_of_lt hfuel)
      obtain ⟨n', rfl⟩ := Nat.exists_eq_add_one_of_ne_zero (Nat.ne_zero_of_lt hfuel')
      rw [symsBack_extended hlow hget, symsBack_extended hlow ((h c hlow hc).trans hget)]
      exact congrArg (e.sym :: ·) (ih _ hparent (hparent.trans hc) (by omega) (by omega))

/-- The sequences below the size are those of the entries below the size. -/
theorem seqOf_congr {t t' : Table} {size c : Nat} (hp : parentsSmaller t size) (h : SameBelow size t t')
    (hc : c < size) : seqOf t' c = seqOf t c :=
  congrArg List.reverse (symsBack_eq_of_sameBelow hp h hc (Nat.lt_succ_self c) (Nat.lt_succ_self c))

/-- `seq(c) = seq(PARENT[c]) ++ [SYM[c]]` (R36, R42). -/
theorem seqOf_extended {t : Table} {size c : Nat} {e : Entry} (hp : parentsSmaller t size) (hlow : 256 ≤ c)
    (hc : c < size) (hget : cellGet t c = some e) : seqOf t c = seqOf t e.parent.toNat ++ [e.sym] := by
  obtain ⟨e', hget', hparent⟩ := hp c hlow hc
  obtain rfl : e = e' := Option.some.inj (hget.symm.trans hget')
  rw [seqOf, symsBack_extended hlow hget, List.reverse_cons,
    symsBack_eq_of_sameBelow hp (fun _ _ _ => rfl) (hparent.trans hc) (Nat.lt_succ_self _) hparent]
  rfl

/-- A Sequence is never empty (R21). -/
theorem seqOf_ne_nil (t : Table) (c : Nat) : seqOf t c ≠ [] := by
  unfold seqOf symsBack
  split
  · simp
  · split <;> simp

/-- A candidate has at least two symbols once `seq` is a code's sequence. -/
theorem seqOf_append_ne_singleton (t : Table) (c : Nat) (x b : Symbol) : seqOf t c ++ [x] ≠ [b] :=
  fun h => seqOf_ne_nil t c (List.append_inj' (s₂ := []) h rfl).1

/-! ## Distinct sequences -/

/-- A dictionary of R35 at its size: what the sequences of its codes rest on. -/
structure KeysSound (t : Table) (size : Nat) : Prop where
  canonical : cellsWf t
  parents : parentsSmaller t size
  distinct : entriesDistinct t size

theorem EncDictSound.keysSound {s : State} (h : EncDictSound s) : KeysSound s.encTable s.encSize.toNat :=
  ⟨h.canonical, h.parents, h.distinct⟩

/-- The root entries alone (R34): there is no extended entry to speak of. -/
theorem KeysSound.seed {t : Table} (h : cellsWf t) : KeysSound t 256 :=
  ⟨h, fun c h1 h2 => by omega, fun c d e h1 h2 => by omega⟩

/-- The codes with a one-symbol sequence are the roots. -/
theorem KeysSound.seqOf_ne_singleton {t : Table} {size c : Nat} (h : KeysSound t size) (hlow : 256 ≤ c)
    (hc : c < size) (b : Symbol) : seqOf t c ≠ [b] := by
  obtain ⟨e, hget, -⟩ := h.parents c hlow hc
  rw [seqOf_extended h.parents hlow hc hget]
  exact seqOf_append_ne_singleton t _ _ b

/-- No two codes have the same sequence (R35 (c)): equal sequences have equal last symbols and, by induction, equal
parents, and entries are distinct. -/
theorem KeysSound.seqOf_inj {t : Table} {size c d : Nat} (h : KeysSound t size) (hc : c < size) (hd : d < size)
    (heq : seqOf t c = seqOf t d) : c = d := by
  induction c using Nat.strong_induction_on generalizing d with
  | _ c ih =>
    rcases Nat.lt_or_ge c 256 with hroot | hlow <;> rcases Nat.lt_or_ge d 256 with hroot' | hlow'
    · rw [seqOf_root t hroot, seqOf_root t hroot'] at heq
      have := congrArg BitVec.toNat (List.singleton_inj.mp heq)
      simp only [BitVec.toNat_ofNat] at this
      omega
    · rw [seqOf_root t hroot] at heq
      exact absurd heq.symm (h.seqOf_ne_singleton hlow' hd _)
    · rw [seqOf_root t hroot'] at heq
      exact absurd heq (h.seqOf_ne_singleton hlow hc _)
    · obtain ⟨⟨parent, sym⟩, hget, hparent⟩ := h.parents c hlow hc
      obtain ⟨⟨parent', sym'⟩, hget', hparent'⟩ := h.parents d hlow' hd
      rw [seqOf_extended h.parents hlow hc hget, seqOf_extended h.parents hlow' hd hget'] at heq
      obtain ⟨hprefix, hlast⟩ := List.append_inj' heq rfl
      obtain rfl : parent = parent' :=
        BitVec.eq_of_toNat_eq (ih _ hparent (hparent.trans hc) (hparent'.trans hd) hprefix)
      obtain rfl : sym = sym' := List.singleton_inj.mp hlast
      exact h.distinct c d _ hlow hc hlow' hd hget hget'

/-- A key cut short at any symbol after its first is a key: the whole of it, or its parent's key cut short. -/
theorem KeysSound.prefix_is_key {t : Table} {size c : Nat} {q : List Symbol} (h : KeysSound t size) (hc : c < size)
    (hq : q <+: seqOf t c) (hne : q ≠ []) : ∃ d, d < size ∧ seqOf t d = q := by
  induction c using Nat.strong_induction_on with
  | _ c ih =>
    rcases Nat.lt_or_ge c 256 with hroot | hlow
    · rw [seqOf_root t hroot, ← List.nil_append [BitVec.ofNat 8 c], List.prefix_concat_iff, List.prefix_nil] at hq
      exact ⟨c, hc, by rw [seqOf_root t hroot, hq.resolve_right hne, List.nil_append]⟩
    · obtain ⟨e, hget, hparent⟩ := h.parents c hlow hc
      have hseq := seqOf_extended h.parents hlow hc hget
      rw [hseq, List.prefix_concat_iff] at hq
      rcases hq with rfl | hq
      · exact ⟨c, hc, hseq⟩
      · exact ih _ hparent (hparent.trans hc) hq

/-- Settles O26: distinct entries have distinct sequences, and a key cut short is found along the parents. -/
theorem encodeDictionaryKeysAreUnique : Obligations.EncodeDictionaryKeysAreUnique :=
  fun _ h =>
    ⟨fun _ _ hc hd heq => h.keysSound.seqOf_inj hc hd heq, fun _ hc _ hp hne => h.keysSound.prefix_is_key hc hp hne⟩

/-! ## The lookup -/

/-- A lookup that succeeds has found the entry it looked for (R37). -/
theorem efind_some {t : Table} {size p c : Nat} {b : Symbol} (hw : cellsWf t) (h : efind t size p b = some c) :
    256 ≤ c ∧ c < size ∧ ∃ e, cellGet t c = some e ∧ e.parent.toNat = p ∧ e.sym = b := by
  simp only [efind, Option.map_eq_some_iff] at h
  obtain ⟨⟨c', e⟩, hx, rfl⟩ := h
  have hfound := List.find?_some hx
  simp only [Bool.and_eq_true, decide_eq_true_eq, beq_iff_eq] at hfound
  obtain ⟨⟨⟨hlow, hc⟩, hparent⟩, hsym⟩ := hfound
  exact ⟨hlow, hc, e, cellGet_of_mem hw (List.mem_of_find?_eq_some hx), hparent, hsym⟩

theorem mem_tableKeys {t : Table} {size : Nat} {q : List Symbol} :
    q ∈ tableKeys t size ↔ ∃ c, c < size ∧ seqOf t c = q := by
  simp [tableKeys]

/-- A code that is found stands for the candidate (R38). -/
theorem KeysSound.seqOf_of_efind {t : Table} {size p c : Nat} {b : Symbol} (h : KeysSound t size)
    (hfind : efind t size p b = some c) : c < size ∧ seqOf t c = seqOf t p ++ [b] := by
  obtain ⟨hlow, hc, e, hget, rfl, rfl⟩ := efind_some h.canonical hfind
  exact ⟨hc, seqOf_extended h.parents hlow hc hget⟩

/-- A lookup that fails means that the candidate is no key (R38): a code with that sequence would be an extended one,
and its entry would be what `efind` looks for. -/
theorem KeysSound.not_mem_of_efind_none {t : Table} {size p : Nat} {b : Symbol} (h : KeysSound t size) (hp : p < size)
    (hfind : efind t size p b = none) : seqOf t p ++ [b] ∉ tableKeys t size := by
  intro hmem
  obtain ⟨c, hc, heq⟩ := mem_tableKeys.mp hmem
  rcases Nat.lt_or_ge c 256 with hroot | hlow
  · rw [seqOf_root t hroot] at heq
    exact seqOf_append_ne_singleton t p b _ heq.symm
  · obtain ⟨e, hget, hparent⟩ := h.parents c hlow hc
    rw [seqOf_extended h.parents hlow hc hget] at heq
    obtain ⟨hprefix, hlast⟩ := List.append_inj' heq rfl
    exact cellGet_ne_of_efind_none hfind hlow hc hget (h.seqOf_inj (hparent.trans hc) hp hprefix)
      (List.singleton_inj.mp hlast)

/-- The candidate of one symbol is the key of its own value (R34, R38). -/
theorem seqOf_symbol (t : Table) (b : Symbol) : seqOf t b.toNat = [b] := by
  rw [seqOf_root t b.isLt, BitVec.ofNat_toNat, BitVec.setWidth_eq]

/-- Settles O27: the two outcomes of `efind`, and the root codes. -/
theorem candidateIsKeyWhenFound : Obligations.CandidateIsKeyWhenFound := by
  intro s p b h hp
  have hkeys := h.keysSound
  refine ⟨⟨fun hmem hnone => hkeys.not_mem_of_efind_none hp hnone hmem, fun hfound => ?_⟩,
    fun c hc => hkeys.seqOf_of_efind hc, ?_, seqOf_symbol _ b⟩
  · obtain ⟨c, hc⟩ := Option.ne_none_iff_exists'.mp hfound
    exact mem_tableKeys.mpr ⟨c, hkeys.seqOf_of_efind hc⟩
  · have hseeded : 256 ≤ s.encSize.toNat := by
      rcases h.size with hzero | hlegal
      · simp [hzero] at hp
      · exact hlegal.1
    exact Nat.lt_of_lt_of_le b.isLt hseeded

end Sys2Proof.Machine

/-! # ENCODE and the source's algorithm (O18)

A simulation: the table of the machine's run is the list of keys of the source's run, and `CUR` is the code of `seq`
(`EncSimulates`). One symbol keeps it (`encStep_simulates`), because `efind` decides whether the candidate is a key
(R38) and the code inserted next is the next place in the list of keys. -/

namespace Sys2Proof.Machine

/-! ## Keys and codes -/

/-- The keys are distinct, so the place of a code's sequence is the code (R22, R34). -/
theorem KeysSound.keyCode_seqOf {t : Table} {size p : Nat} (h : KeysSound t size) (hp : p < size) :
    keyCode (tableKeys t size) (seqOf t p) = p := by
  have hnodup : (tableKeys t size).Nodup :=
    List.Nodup.map_on (fun c hc d hd => h.seqOf_inj (List.mem_range.mp hc) (List.mem_range.mp hd)) List.nodup_range
  have hget : (tableKeys t size)[p]'(by simpa using hp) = seqOf t p := by simp [tableKeys]
  rw [keyCode, ← hget]
  exact hnodup.idxOf_getElem p _

/-- The entry inserted at the size is the key of the candidate, and the other keys stay (R124). -/
theorem KeysSound.tableKeys_insertEntry {t : Table} {size p : Nat} {b : Symbol} (h : KeysSound t size)
    (hins : KeysSound (insertEntry t size p b) (size + 1)) (hseeded : 256 ≤ size) (hp : p < size) (hp' : p < 65536) :
    tableKeys (insertEntry t size p b) (size + 1) = tableKeys t size ++ [seqOf t p ++ [b]] := by
  have hold : ∀ c, c < size → seqOf (insertEntry t size p b) c = seqOf t c := fun c hc =>
    seqOf_congr h.parents (sameBelow_insertEntry t size p b) hc
  have hnew : seqOf (insertEntry t size p b) size = seqOf t p ++ [b] := by
    rw [seqOf_extended hins.parents hseeded (Nat.lt_succ_self size) (cellGet_insertEntry_self t size p b),
      toNat_ofNat_code hp', hold p hp]
  rw [tableKeys, List.range_succ, List.map_append, List.map_singleton, hnew]
  exact congrArg (· ++ _) (List.map_congr_left fun c hc => hold c (List.mem_range.mp hc))

/-- An insertion after a failed lookup keeps the dictionary that of R35. -/
theorem KeysSound.insertEntry {t : Table} {size p : Nat} {b : Symbol} (h : KeysSound t size) (hp : p < size)
    (hp' : p < 65536) (hmiss : efind t size p b = none) : KeysSound (insertEntry t size p b) (size + 1) :=
  ⟨insertEntry_wf h.canonical size p b, parentsSmaller_insertEntry h.parents hp b,
    entriesDistinct_insertEntry h.distinct hp' hmiss⟩

/-! ## The simulation -/

/-- The machine's run and the source's run hold the same dictionary, the same pending match and the same codes. -/
structure EncSimulates (a : EncArgs) (r : EncRun) (q : SrcRun) : Prop where
  keys : KeysSound r.table r.size
  seeded : 256 ≤ r.size
  bounded : r.size ≤ capacity a.k
  dict : tableKeys r.table r.size = q.dict
  pending : (r.cur = none ∧ q.seq = []) ∨ ∃ p, r.cur = some p ∧ p < r.size ∧ seqOf r.table p = q.seq
  counted : r.nOut = q.codes.length
  written : a.training = false → r.out.reverse.map BitVec.toNat = q.codes

theorem EncSimulates.init {a : EncArgs} {t : Table} {size : Nat} (hkeys : KeysSound t size) (hseeded : 256 ≤ size)
    (hbounded : size ≤ capacity a.k) : EncSimulates a (encInit size t) (srcInit (tableKeys t size)) :=
  ⟨hkeys, hseeded, hbounded, rfl, .inl ⟨rfl, rfl⟩, rfl, fun _ => rfl⟩

theorem emit_of_training {a : EncArgs} (h : a.training = true) (c : Nat) (r : EncRun) :
    emit a c r = .ok { r with nOut := r.nOut + 1 } := by
  rw [emit, if_pos h]

theorem emit_of_room {a : EncArgs} {r : EncRun} (h : a.training = false) (hroom : r.nOut < a.codeCap) (c : Nat) :
    emit a c r = .ok { r with nOut := r.nOut + 1, out := BitVec.ofNat 16 c :: r.out } := by
  rw [emit, if_neg (by simp [h]), if_neg (Nat.not_le.mpr hroom)]

/-- Emitting the pending code is what the source emits for `seq` (R125), if there is room for it. -/
theorem EncSimulates.emit {a : EncArgs} {r : EncRun} {q : SrcRun} {p : Nat} (hk : capacity a.k ≤ 65536)
    (h : EncSimulates a r q) (hp : p < r.size) (hseq : seqOf r.table p = q.seq)
    (hroom : a.training = false → (q.codes ++ [keyCode q.dict q.seq]).length ≤ a.codeCap) :
    ∃ r', Machine.emit a p r = .ok r' ∧
      EncSimulates a r' { q with codes := q.codes ++ [keyCode q.dict q.seq] } := by
  obtain ⟨hkeys, hseeded, hbounded, hdict, hpending, hcounted, hwritten⟩ := h
  have hcode : keyCode q.dict q.seq = p := by rw [← hdict, ← hseq, hkeys.keyCode_seqOf hp]
  rw [hcode] at hroom ⊢
  cases htraining : a.training with
  | true =>
    exact ⟨_, emit_of_training htraining p r, hkeys, hseeded, hbounded, hdict, hpending, by simp [hcounted],
      by simp [htraining]⟩
  | false =>
    have hfits : r.nOut < a.codeCap := by simpa [← hcounted] using hroom htraining
    refine ⟨_, emit_of_room htraining hfits p, hkeys, hseeded, hbounded, hdict, hpending, by simp [hcounted],
      fun _ => ?_⟩
    rw [List.reverse_cons, List.map_append, hwritten htraining, List.map_singleton, toNat_ofNat_code (by omega)]

/-- The insertion of the miss branch is the source's (R124). -/
theorem EncSimulates.insert {a : EncArgs} {r : EncRun} {q : SrcRun} {p : Nat} {b : Symbol}
    (hk : capacity a.k ≤ 65536) (h : EncSimulates a r q) (hp : p < r.size) (hseq : seqOf r.table p = q.seq)
    (hmiss : efind r.table r.size p b = none) :
    EncSimulates a (encAdvance b.toNat (encInsert a p b r))
      { q with
        seq := [b]
        dict := if q.dict.length < capacity a.k ∧ a.testing = false then q.dict ++ [q.seq ++ [b]] else q.dict } := by
  obtain ⟨hkeys, hseeded, hbounded, hdict, -, hcounted, hwritten⟩ := h
  have hb : b.toNat < r.size := Nat.lt_of_lt_of_le b.isLt hseeded
  have hlen : q.dict.length = r.size := by rw [← hdict, length_tableKeys]
  rw [hlen]
  by_cases hroom : r.size < capacity a.k ∧ a.testing = false
  · have hp' : p < 65536 := by omega
    have hins := hkeys.insertEntry hp hp' hmiss
    rw [encInsert, if_pos hroom, if_pos hroom]
    exact ⟨hins, Nat.le_succ_of_le hseeded, hroom.1,
      by simpa [encAdvance, ← hdict, ← hseq] using hkeys.tableKeys_insertEntry hins hseeded hp hp',
      .inr ⟨_, rfl, Nat.lt_succ_of_lt hb, seqOf_symbol _ b⟩, hcounted, hwritten⟩
  · rw [encInsert, if_neg hroom, if_neg hroom]
    exact ⟨hkeys, hseeded, hbounded, hdict, .inr ⟨_, rfl, hb, seqOf_symbol _ b⟩, hcounted, hwritten⟩

theorem EncSimulates.advance {a : EncArgs} {r : EncRun} {q : SrcRun} {c : Nat} {w : List Symbol}
    (h : EncSimulates a r q) (hc : c < r.size) (hseq : seqOf r.table c = w) :
    EncSimulates a (encAdvance c r) { q with seq := w } :=
  ⟨h.keys, h.seeded, h.bounded, h.dict, .inr ⟨c, rfl, hc, hseq⟩, h.counted, h.written⟩

theorem srcStep_hit {k : Nat} {testing : Bool} {b : Symbol} {q : SrcRun} (h : q.seq ++ [b] ∈ q.dict) :
    srcStep k testing b q = { q with seq := q.seq ++ [b] } := by
  simp [srcStep, h]

theorem srcStep_miss {k : Nat} {testing : Bool} {b : Symbol} {q : SrcRun} (h : q.seq ++ [b] ∉ q.dict) :
    srcStep k testing b q =
      { seq := [b]
        dict := if q.dict.length < capacity k ∧ testing = false then q.dict ++ [q.seq ++ [b]] else q.dict
        codes := q.codes ++ [keyCode q.dict q.seq]
        missed := q.missed ++ [q.seq ++ [b]] } := by
  simp [srcStep, h]

/-- One symbol (R124): the first one, an extended match, or a miss, on both sides at once. -/
theorem encStep_simulates {a : EncArgs} {r : EncRun} {q : SrcRun} (b : Symbol) (hk : capacity a.k ≤ 65536)
    (h : EncSimulates a r q)
    (hroom : a.training = false → (srcStep a.k a.testing b q).codes.length ≤ a.codeCap) :
    ∃ r', encStep a b r = .ok r' ∧ EncSimulates a r' (srcStep a.k a.testing b q) := by
  have hb : b.toNat < r.size := Nat.lt_of_lt_of_le b.isLt h.seeded
  rcases h.pending with ⟨hcur, hseq⟩ | ⟨p, hcur, hp, hseq⟩
  · have hmem : q.seq ++ [b] ∈ q.dict := by
      rw [hseq, ← h.dict]
      exact mem_tableKeys.mpr ⟨_, hb, seqOf_symbol _ b⟩
    rw [srcStep_hit hmem, hseq]
    exact ⟨_, by simp only [encStep, hcur], h.advance hb (seqOf_symbol _ b)⟩
  · cases hfind : efind r.table r.size p b with
    | some c =>
      obtain ⟨hc, hseq'⟩ := h.keys.seqOf_of_efind hfind
      have hmem : q.seq ++ [b] ∈ q.dict := by
        rw [← hseq, ← h.dict]
        exact mem_tableKeys.mpr ⟨c, hc, hseq'⟩
      rw [srcStep_hit hmem]
      exact ⟨_, by simp only [encStep, hcur, hfind], h.advance hc (by rw [hseq', hseq])⟩
    | none =>
      have hmem : q.seq ++ [b] ∉ q.dict := by
        rw [← hseq, ← h.dict]
        exact h.keys.not_mem_of_efind_none hp hfind
      rw [srcStep_miss hmem] at hroom ⊢
      obtain ⟨r₁, hemit, h₁⟩ := h.emit hk hp hseq hroom
      obtain ⟨htable, hsize, -⟩ := emit_table hemit
      have h₂ := h₁.insert hk (p := p) (b := b) (hsize ▸ hp) (htable ▸ hseq) (by rw [htable, hsize, hfind])
      exact ⟨_, by simp only [encStep, hcur, hfind, hemit],
        h₂.keys, h₂.seeded, h₂.bounded, h₂.dict, h₂.pending, h₂.counted, h₂.written⟩

/-- The codes are only added to. -/
theorem srcScan_codes_length (k : Nat) (testing : Bool) (bs : List Symbol) (q : SrcRun) :
    q.codes.length ≤ (srcScan k testing bs q).codes.length := by
  induction bs generalizing q with
  | nil => exact le_rfl
  | cons b bs ih => exact (srcStep_codes_length k testing b q).1.trans (ih _)

theorem encScan_simulates {a : EncArgs} (bs : List Symbol) {r : EncRun} {q : SrcRun} (hk : capacity a.k ≤ 65536)
    (h : EncSimulates a r q)
    (hroom : a.training = false → (srcScan a.k a.testing bs q).codes.length ≤ a.codeCap) :
    ∃ r', encScan a bs r = .ok r' ∧ EncSimulates a r' (srcScan a.k a.testing bs q) := by
  induction bs generalizing r q with
  | nil => exact ⟨r, rfl, h⟩
  | cons b bs ih =>
    obtain ⟨r₁, hstep, h₁⟩ :=
      encStep_simulates b hk h fun ht => (srcScan_codes_length a.k a.testing bs _).trans (hroom ht)
    obtain ⟨r', hscan, h'⟩ := ih h₁ hroom
    exact ⟨r', by simp only [encScan, hstep, hscan], h'⟩

/-- The flush only adds a code (R126). -/
theorem codes_length_le_srcEncode (k : Nat) (testing : Bool) (dict : List (List Symbol)) (msg : List Symbol) :
    (srcScan k testing msg (srcInit dict)).codes.length ≤ (srcEncode k testing dict msg).codes.length := by
  simp only [srcEncode]
  split
  · exact le_rfl
  · simp

/-- The scan and the flush (R126): the flush emits exactly when the source's does. -/
theorem encScan_encFlush_simulates {a : EncArgs} (msg : List Symbol) {t : Table} {size : Nat}
    (hk : capacity a.k ≤ 65536) (hkeys : KeysSound t size) (hseeded : 256 ≤ size) (hbounded : size ≤ capacity a.k)
    (hroom : a.training = false → (srcEncode a.k a.testing (tableKeys t size) msg).codes.length ≤ a.codeCap) :
    ∃ r₁ r, encScan a msg (encInit size t) = .ok r₁ ∧ encFlush a r₁ = .ok r ∧
      EncSimulates a r (srcEncode a.k a.testing (tableKeys t size) msg) := by
  have hscanRoom : a.training = false →
      (srcScan a.k a.testing msg (srcInit (tableKeys t size))).codes.length ≤ a.codeCap := fun ht =>
    (codes_length_le_srcEncode a.k a.testing _ msg).trans (hroom ht)
  obtain ⟨r₁, hscan, h₁⟩ := encScan_simulates msg hk (.init hkeys hseeded hbounded) hscanRoom
  unfold srcEncode at hroom ⊢
  rcases h₁.pending with ⟨hcur, hseq⟩ | ⟨p, hcur, hp, hseq⟩
  · rw [if_pos hseq]
    exact ⟨r₁, r₁, hscan, by simp only [encFlush, hcur], h₁⟩
  · have hne : (srcScan a.k a.testing msg (srcInit (tableKeys t size))).seq ≠ [] := hseq ▸ seqOf_ne_nil _ p
    rw [if_neg hne] at hroom ⊢
    obtain ⟨r, hemit, h'⟩ := h₁.emit hk hp hseq hroom
    exact ⟨r₁, r, hscan, by simp only [encFlush, hcur, hemit], h'⟩

/-! ## The command -/

/-- The dictionary ENCODE starts from is one of R35: the roots alone, or the one that is held (R123). -/
theorem keysSound_startSize {keep : Bool} {s : State} (hw : cellsWf s.encTable)
    (h : FreshStart keep s ∨ EncDictSound s) :
    KeysSound s.encTable (startSize keep s) ∧ 256 ≤ startSize keep s := by
  unfold startSize
  split
  · next hkeep =>
    have hsound : EncDictSound s := h.resolve_left fun hfresh => by simp_all [FreshStart]
    exact ⟨hsound.keysSound, (hsound.size.resolve_left hkeep.2).1⟩
  · exact ⟨.seed hw, le_rfl⟩

/-- When the start checks pass (R122, R123). -/
theorem encodeStart_eq_ok {k : Nat} {keep testing training : Bool} {s : State}
    (hflags : ¬(testing = true ∧ training = true)) (hwidth : legalWidth k = true)
    (hraw : s.rawLen.toNat ≤ s.caps.raw.toNat) (hsize : startSize keep s ≤ capacity k) :
    encodeStart k keep testing training s = .ok (startSize keep s) := by
  have hmodes : (training && testing) = false := 
    Bool.eq_false_iff.mpr fun h => hflags (by simpa [and_comm] using h)
  unfold encodeStart
  unfold startSize at hsize ⊢
  rw [hmodes, hwidth, if_neg (by decide), if_neg (by decide), if_neg (by omega)]
  by_cases hkeep : keep = true ∧ s.encSize ≠ 0
  · rw [if_pos hkeep] at hsize ⊢
    rw [if_neg (by simpa using hkeep), if_neg (by omega)]
  · rw [if_neg hkeep, if_pos (by simpa [imp_iff_not_or] using hkeep)]

/-- A code sequence laid out in `CODE` with its length is the input of the commands that read `CODE` (R27, R65). -/
theorem codeInput_of_cellsFrom {s : State} {codes : List Half} (hlen : s.codeLen.toNat = codes.length)
    (hcells : s.code.cells = cellsFrom 0 codes) : codeInput s = codes.map BitVec.toNat := by
  refine List.ext_getElem (by simp [codeInput, hlen]) fun i hi _ => ?_
  have hlt : i < codes.length := by simpa [codeInput, hlen] using hi
  simp [codeInput, readCode, hcells, hlt]

theorem encodeFinish_completed (testing training : Bool) (r : EncRun) (s : State) :
    Completed s (encodeFinish testing training r s) := by
  cases training <;> exact ⟨rfl, rfl⟩

theorem encodeFinish_encTable (testing training : Bool) (r : EncRun) (s : State) :
    (encodeFinish testing training r s).encTable = r.table := by
  cases training <;> rfl

theorem encodeFinish_encSize (testing training : Bool) (r : EncRun) (s : State) :
    (encodeFinish testing training r s).encSize = if training || testing then BitVec.ofNat 32 r.size else 0 := by
  cases training <;> rfl

/-- The codes that an ENCODE with an output leaves in `CODE` (R127). -/
theorem codeInput_encodeFinish {testing : Bool} {r : EncRun} {s : State} (hlen : r.out.length = r.nOut)
    (hroom : r.nOut < 2 ^ 32) :
    codeInput (encodeFinish testing false r s) = r.out.reverse.map BitVec.toNat :=
  codeInput_of_cellsFrom
    (by rw [List.length_reverse, hlen]; exact Nat.mod_eq_of_lt hroom) rfl

/-- Settles O18: the command's start gives the simulation its first dictionary, and its end writes what the simulation
says of the last run. -/
theorem encodeMatchesTheSourceAlgorithm : Obligations.EncodeMatchesTheSourceAlgorithm := by
  intro k keep testing training s q hflags hlow hhigh hraw hsize hw hstart hq hroom
  have hwidth : legalWidth k = true := by simp [legalWidth, hlow, hhigh]
  have hk := capacity_le_of_legalWidth hwidth
  obtain ⟨hkeys, hseeded⟩ := keysSound_startSize hw hstart
  obtain ⟨r₁, r, hscan, hflush, hsim⟩ :=
    encScan_encFlush_simulates (a := encArgs k testing training s) (rawInput s) hk hkeys hseeded hsize
      fun ht => hq ▸ hroom ht
  rw [encArgs, ← hq] at hsim
  have hrun : encodeRun k keep testing training s = .ok r := by
    simp only [encodeRun, encodeStart_eq_ok hflags hwidth hraw hsize, hscan, hflush]
  refine ⟨encodeFinish testing training r s, by simp only [exec, execEncode, hrun],
    encodeFinish_completed testing training r s, ?_, ?_, ?_⟩
  · rintro rfl
    have hcodes := hsim.written rfl
    have hlen : r.out.length = r.nOut := by simpa [hsim.counted] using congrArg List.length hcodes
    have hfits : r.nOut < 2 ^ 32 := by
      rw [hsim.counted]
      exact Nat.lt_of_le_of_lt (hroom rfl) s.caps.code.isLt
    rw [codeInput_encodeFinish hlen hfits, hcodes]
  · intro hmode
    have hbounded : r.size < 2 ^ 32 := Nat.lt_of_le_of_lt (hsim.bounded.trans hk) (by decide)
    rw [encodeFinish_encTable, encodeFinish_encSize, if_pos (by simpa using hmode), BitVec.toNat_ofNat,
      Nat.mod_eq_of_lt hbounded, hsim.dict]
  · rintro rfl rfl
    rfl

end Sys2Proof.Machine

/-! # Command issue and the host's accesses (O5, O9, O11, O50, O51, O53)

`step_idle` and `step_issue` say once what a step on an idle block runs; the statements are then about `issue`, the
registers at their offsets, and the bits of the two words the host can read. -/

namespace Sys2Proof.Machine

/-! ## A step on an idle block -/

theorem step_idle {s : State} {op : HostOp} {rest : List HostOp} (hp : s.pending = op :: rest)
    (hidle : s.status.busy = false) : step s = idleOp op { s with pending := rest } := by
  simp [step, stepHost, hp, hostOp, hidle]

/-- A write of a command word on an idle block issues the word (R220, R223). -/
theorem step_issue {s : State} {op : HostOp} {rest : List HostOp} {w : CmdWord} (hp : s.pending = op :: rest)
    (hw : Issues op w) (hidle : s.status.busy = false) : step s = issue w { s with pending := rest } := by
  obtain ⟨v, rfl, rfl⟩ := hw
  exact step_idle hp hidle

/-- In an unfaulted block a word that decodes is accepted and runs (R220). -/
theorem issue_of_decode_ok {s : State} {w : CmdWord} {i : Instr} (hfault : s.status.fault = false)
    (hd : decode w = .ok i) : issue w s = exec i (accept s) := by
  simp [issue, hfault, hd]

/-- Settles O5: the step issues the word, and the word is accepted. -/
theorem stepRunsTheIssuedCommand : Obligations.StepRunsTheIssuedCommand := by
  refine ⟨fun s op rest w i hp hw hidle hfault hd => ?_, fun s hp => ?_⟩
  · rw [step_issue hp hw hidle, issue_of_decode_ok (by exact hfault) hd]
    rfl
  · simp [step, stepHost, hp]

/-! ## The reset event -/

theorem decode_reset : decode 0x000F#16 = .ok .reset := rfl

/-- RESET is done whether or not the block is in the fault state (R222, R259); the acceptance flags are cleared with
the rest. -/
theorem issue_reset (s : State) : issue 0x000F#16 s = .next (clearRegisters s) := by
  cases hfault : s.status.fault with
  | true => rw [issue, if_pos hfault, decode_reset]; rfl
  | false => exact issue_of_decode_ok hfault decode_reset

theorem clearRegisters_atReset (s : State) : RegistersAtReset (clearRegisters s) :=
  ⟨rfl, rfl, rfl, rfl, rfl, rfl, rfl, rfl⟩

theorem powerOn_atReset (s : State) : RegistersAtReset (powerOn s) := ⟨rfl, rfl, rfl, rfl, rfl, rfl, rfl, rfl⟩

theorem powerOn_nothingKnown (s : State) : NothingKnown (powerOn s) := ⟨rfl, rfl, rfl, rfl, rfl⟩

/-- The reset input acts on a busy block and on an idle one alike (R280). -/
theorem step_resetInput {s : State} {rest : List HostOp} (hp : s.pending = .resetInput :: rest) :
    step s = .next (powerOn { s with pending := rest }) := by
  cases hbusy : s.status.busy with
  | true => simp [step, stepHost, hp, hostOp, hbusy, busyOp]
  | false => exact step_idle hp hbusy

/-- Settles O9: the values of State.reset, of the reset input and of the RESET command. -/
theorem resetEventSetsResetValues : Obligations.ResetEventSetsResetValues := by
  refine ⟨⟨⟨rfl, rfl, rfl, rfl, rfl, rfl, rfl, rfl⟩, ⟨rfl, rfl, rfl, rfl, rfl⟩⟩, fun s rest hp => ?_,
    fun s op rest hp hw hidle => ?_⟩
  · exact ⟨_, step_resetInput hp, powerOn_atReset _, powerOn_nothingKnown _⟩
  · exact ⟨_, (step_issue hp hw hidle).trans (issue_reset _), clearRegisters_atReset _, rfl, rfl, rfl, rfl, rfl⟩

/-! ## The end of a command -/

/-- A data command ends: it completes (R225) or its flags are those of a fault (R257). -/
theorem exec_ends {i : Instr} (hi : i ≠ .reset) (s : State) :
    ∃ t, exec i s = .next t ∧ (t.status = s.status.completed ∨ ∃ c, t.status = Status.faulted c) := by
  cases i with
  | encode k keep testing training =>
    obtain ⟨e, -, he⟩ | ⟨r, -, he⟩ := execEncode_cases k keep testing training s
    · exact ⟨_, he, .inr ⟨e.cause, faultEntry_status ..⟩⟩
    · exact ⟨_, he, .inl (encodeFinish_completed testing training r s).status⟩
  | decode k =>
    obtain ⟨e, -, he⟩ | ⟨r, -, he⟩ := execDecode_cases k s
    · exact ⟨_, he, .inr ⟨e.cause, faultEntry_status ..⟩⟩
    · exact ⟨_, he, .inl rfl⟩
  | pack k =>
    obtain ⟨e, -, he⟩ | ⟨bytes, -, he⟩ := execPack_cases k s
    · exact ⟨_, he, .inr ⟨e.cause, faultEntry_status ..⟩⟩
    · exact ⟨_, he, .inl rfl⟩
  | unpack k =>
    obtain ⟨e, -, he⟩ | ⟨codes, -, he⟩ := execUnpack_cases k s
    · exact ⟨_, he, .inr ⟨e.cause, faultEntry_status ..⟩⟩
    · exact ⟨_, he, .inl rfl⟩
  | reset => exact absurd rfl hi

/-- Only one word decodes to RESET (R93). -/
theorem eq_of_decode_reset {w : CmdWord} (h : decode w = .ok .reset) : w = 0x000F#16 := by
  by_contra hw
  unfold decode decodePlain at h
  rw [if_neg hw] at h
  split_ifs at h <;> cases h

/-- The flags after a command: idle, and exactly one of DONE and FAULT (R226). -/
def Status.Ended (f : Status) : Prop :=
  f.busy = false ∧ ((f.done = true ∧ f.fault = false) ∨ (f.done = false ∧ f.fault = true))

theorem Status.faulted_ended (c : Cause) : (Status.faulted c).Ended := ⟨rfl, .inr ⟨rfl, rfl⟩⟩

theorem Status.completed_ended {f : Status} (hfault : f.fault = false) : f.completed.Ended :=
  ⟨rfl, .inl ⟨rfl, hfault⟩⟩

/-- Every word but RESET's ends with DONE or FAULT: it is ignored in the fault state, illegal, or runs (R220, R259). -/
theorem issue_ends {w : CmdWord} {s : State} (hw : w ≠ 0x000F#16) (hs : s.status.Sound s.errIndex) :
    ∃ t, issue w s = .next t ∧ t.status.Ended := by
  obtain ⟨-, hreset, -⟩ | ⟨hfault, -, hi⟩ | ⟨-, -, hi⟩ | ⟨hfault, i, hd, hi⟩ := issue_cases w s
  · exact absurd hreset hw
  · have hdone : s.status.done = false := Bool.eq_false_iff.mpr fun hdone => hs.notBoth ⟨hdone, hfault⟩
    exact ⟨s, hi, hs.idle, .inr ⟨hdone, hfault⟩⟩
  · exact ⟨_, hi, Status.faulted_ended .illegalCommand⟩
  · have hne : i ≠ .reset := by
      rintro rfl
      exact hw (eq_of_decode_reset hd)
    obtain ⟨t, ht, hstatus | ⟨c, hstatus⟩⟩ := exec_ends hne (accept s)
    · exact ⟨t, hi.trans ht, hstatus ▸ Status.completed_ended hfault⟩
    · exact ⟨t, hi.trans ht, hstatus ▸ Status.faulted_ended c⟩

/-- Settles O11: RESET clears the flags, and every other word ends with DONE or FAULT. -/
theorem everyCommandEndsDoneOrFaulted : Obligations.EveryCommandEndsDoneOrFaulted := by
  intro s op rest w hp hw hidle hs
  rw [step_issue hp hw hidle]
  by_cases hreset : w = 0x000F#16
  · subst hreset
    exact ⟨_, issue_reset _, rfl, fun _ => ⟨rfl, rfl⟩, fun h => absurd rfl h⟩
  · obtain ⟨t, ht, hbusy, hend⟩ := issue_ends (s := { s with pending := rest }) hreset hs
    exact ⟨t, ht, hbusy, fun h => absurd h hreset, fun _ => hend⟩

/-! ## The words the host reads -/

theorem bitNat_le_one (b : Bool) : bitNat b ≤ 1 := by cases b <;> decide

/-- Bit `n` of a word, read off its number. -/
theorem getLsbD_of_div_mod {w : Word} {n : Nat} {b : Bool} (h : w.toNat / 2 ^ n % 2 = bitNat b) :
    w.getLsbD n = b := by
  rw [BitVec.getLsbD, Nat.testBit_eq_decide_div_mod_eq, h]
  cases b <;> rfl

/-- A field of a word, read off its number. -/
theorem extractLsb'_of_div_mod {w : Word} {start len : Nat} {v : BitVec len}
    (h : w.toNat / 2 ^ start % 2 ^ len = v.toNat) : w.extractLsb' start len = v :=
  BitVec.eq_of_toNat_eq (by rw [BitVec.extractLsb'_toNat, Nat.shiftRight_eq_div_pow, h])

theorem Status.toNat_word (f : Status) :
    f.word.toNat = bitNat f.busy + 2 * bitNat f.done + 4 * bitNat f.fault + 16 * f.err.toNat := by
  have herr := f.err.isLt
  have hbusy := bitNat_le_one f.busy
  have hdone := bitNat_le_one f.done
  have hfault := bitNat_le_one f.fault
  exact Nat.mod_eq_of_lt (by omega)

/-- Settles O50: the fields do not overlap in the number that the word is. -/
theorem statusWordLayout : Obligations.StatusWordLayout := by
  intro f
  have hword := f.toNat_word
  have herr := f.err.isLt
  have hbusy := bitNat_le_one f.busy
  have hdone := bitNat_le_one f.done
  have hfault := bitNat_le_one f.fault
  exact ⟨getLsbD_of_div_mod (by omega), getLsbD_of_div_mod (by omega), getLsbD_of_div_mod (by omega),
    getLsbD_of_div_mod (by change _ = 0; omega), extractLsb'_of_div_mod (by omega),
    extractLsb'_of_div_mod (by change _ = 0; omega)⟩

theorem toNat_dictWord {root : Bool} {parent sym : Nat} (hp : parent < 2 ^ 16) (hs : sym < 2 ^ 8) :
    (dictWord root parent sym).toNat = sym + 256 * parent + 2 ^ 24 * bitNat root := by
  have hroot := bitNat_le_one root
  exact Nat.mod_eq_of_lt (by omega)

/-- The fields of an `ENC_DICT` word (R50). -/
theorem dictWord_fields (root : Bool) (parent : BitVec 16) (sym : BitVec 8) :
    (dictWord root parent.toNat sym.toNat).extractLsb' 0 8 = sym ∧
      (dictWord root parent.toNat sym.toNat).extractLsb' 8 16 = parent ∧
      (dictWord root parent.toNat sym.toNat).getLsbD 24 = root ∧
      (dictWord root parent.toNat sym.toNat).extractLsb' 25 7 = 0 := by
  have hword := toNat_dictWord (root := root) parent.isLt sym.isLt
  have hparent := parent.isLt
  have hsym := sym.isLt
  have hroot := bitNat_le_one root
  exact ⟨extractLsb'_of_div_mod (by omega), extractLsb'_of_div_mod (by omega), getLsbD_of_div_mod (by omega),
    extractLsb'_of_div_mod (by change _ = 0; omega)⟩

/-! ## Registers at their offsets -/

/-- A write at an aligned offset other than `CMD`'s (R67, R223). -/
theorem writeOffset_eq {offset : Nat} (h : offset ≠ 0) (v : Word) (s : State) :
    writeOffset offset v s = .next
      { s with
        rawLen := if offset = 0x08 then v else s.rawLen
        codeLen := if offset = 0x0C then v else s.codeLen
        streamLen := if offset = 0x10 then v else s.streamLen } := by
  obtain ⟨h0, -⟩ | ⟨rfl, hw⟩ | ⟨rfl, hw⟩ | ⟨rfl, hw⟩ | ⟨-, h8, hC, h10, hw⟩ := writeOffset_cases offset v s
  · exact absurd h0 h
  · exact hw
  · exact hw
  · exact hw
  · rw [hw, if_neg h8, if_neg hC, if_neg h10]

/-- What a read at an offset returns (R67, R68, R223). -/
theorem readOffset_eq (s : State) (offset : Nat) :
    readOffset s offset =
      if offset = 0x04 then s.status.word
      else if offset = 0x08 then s.rawLen
      else if offset = 0x0C then s.codeLen
      else if offset = 0x10 then s.streamLen
      else if offset = 0x14 then s.encSize
      else if offset = 0x18 then s.decSize
      else if offset = 0x1C then s.errIndex
      else 0 := by
  unfold readOffset regAt
  by_cases h0 : offset = 0
  · subst h0
    rfl
  · rw [if_neg h0]
    split_ifs <;> rfl

/-- Settles O51: the writes, the reads, and that `CMD` takes bits 15:0 of the word whether the block is idle or
busy. -/
theorem registersAtTheirOffsets : Obligations.RegistersAtTheirOffsets := by
  refine ⟨fun s rest offset v hp hidle haligned hne => ?_, fun s rest offset hp hidle haligned => ?_,
    fun s rest v v' hv => ?_⟩
  · rw [step_idle hp hidle, idleOp, if_pos haligned, writeOffset_eq hne]
  · rw [step_idle hp hidle, idleOp, if_pos haligned, readOffset_eq]
    rfl
  · cases hbusy : s.status.busy with
    | true => simp [step, stepHost, hostOp, hbusy, busyOp]
    | false =>
      rw [step_issue rfl ⟨v, rfl, rfl⟩ (by exact hbusy), step_issue rfl ⟨v', rfl, rfl⟩ (by exact hbusy), hv]

/-! ## The dictionary window -/

theorem readDict_of_some {s : State} {c : Nat} {w : Word} (h : dictEntry s c = some w) :
    readDict c s = { s with replies := w :: s.replies } := by
  simp only [readDict, h, reply]

theorem readDict_of_none {s : State} {c : Nat} (h : dictEntry s c = none) :
    readDict c s = { s with replies := Config.freeWord s.fresh c :: s.replies, fresh := s.fresh + 1 } := by
  simp only [readDict, h, reply]

theorem dictEntry_root {s : State} {c : Nat} (hsize : c < s.encSize.toNat) (hroot : c < 256) :
    dictEntry s c = some (dictWord true 0 c) := by
  rw [dictEntry, if_neg (Nat.not_le.mpr hsize), if_pos hroot]

theorem dictEntry_extended {s : State} {c : Nat} {e : Entry} (hsize : c < s.encSize.toNat) (hlow : 256 ≤ c)
    (hget : cellGet s.encTable c = some e) :
    dictEntry s c = some (dictWord false e.parent.toNat e.sym.toNat) := by
  rw [dictEntry, if_neg (Nat.not_le.mpr hsize), if_neg (Nat.not_lt.mpr hlow), hget, Option.map_some]

/-- Settles O53: a root, an extended entry, a code at or above `ENC_SIZE`, and a write. -/
theorem dictionaryWindowWords : Obligations.DictionaryWindowWords := by
  refine ⟨fun s rest c hp hidle hc => ?_, fun s rest c v hp hidle hc => ?_⟩
  · rw [step_idle hp hidle, idleOp, within, if_pos hc]
    refine ⟨fun hsize hroot => ?_, fun e hsize hlow hget => ?_, fun hsize => ?_⟩
    · have hsym : (BitVec.ofNat 8 c).toNat = c := Nat.mod_eq_of_lt hroot
      have hfields := dictWord_fields true 0#16 (BitVec.ofNat 8 c)
      rw [hsym, BitVec.toNat_zero] at hfields
      obtain ⟨h1, h2, h3, h4⟩ := hfields
      exact ⟨_, congrArg _ (readDict_of_some (dictEntry_root (s := { s with pending := rest }) hsize hroot)),
        by rw [h1, hsym], h2, h3, h4⟩
    · exact ⟨_, congrArg _ (readDict_of_some (dictEntry_extended (s := { s with pending := rest }) hsize hlow hget)),
        dictWord_fields false e.parent e.sym⟩
    · exact ⟨_, congrArg _ (readDict_of_none (s := { s with pending := rest }) (if_pos hsize))⟩
  · rw [step_idle hp hidle, idleOp, within, if_pos hc]

end Sys2Proof.Machine

/-! # A command's result depends on its input only (O48)

Two runs of the same command on the same input are followed side by side. They differ in their tables only, which have
the same entries below the size (`EncRunsAgree`, `DecRunsAgree`); every operation of the command keeps this. -/

namespace Sys2Proof.Machine

/-! ## Lookups and tables -/

theorem SameBelow.mono {t t' : Table} {size size' : Nat} (h : SameBelow size t t') (hle : size' ≤ size) :
    SameBelow size' t t' :=
  fun c hlow hc => h c hlow (Nat.lt_of_lt_of_le hc hle)

/-- No extended entry is below 256. -/
theorem sameBelow_roots (t t' : Table) : SameBelow 256 t t' := fun _ hlow hc => absurd hc (Nat.not_lt.mpr hlow)

/-- The entries of a table that belong to a dictionary of a size. -/
def heldEntries (t : Table) (size : Nat) : Table := t.filter fun ce => decide (256 ≤ ce.1) && decide (ce.1 < size)

theorem mem_heldEntries {t : Table} (hw : cellsWf t) {size : Nat} {x : Nat × Entry} :
    x ∈ heldEntries t size ↔ 256 ≤ x.1 ∧ x.1 < size ∧ cellGet t x.1 = some x.2 := by
  simp only [heldEntries, List.mem_filter, Bool.and_eq_true, decide_eq_true_eq]
  exact ⟨fun ⟨hx, hlow, hc⟩ => ⟨hlow, hc, cellGet_of_mem hw hx⟩, fun ⟨hlow, hc, hget⟩ =>
    ⟨mem_of_cellGet hget, hlow, hc⟩⟩

theorem heldEntries_pairwise {t : Table} (hw : cellsWf t) (size : Nat) :
    (heldEntries t size).Pairwise fun x y => x.1 < y.1 :=
  (List.pairwise_map.mp hw).filter _

/-- In canonical form the entries of a dictionary are listed in one way only. -/
theorem heldEntries_congr {t t' : Table} {size : Nat} (hw : cellsWf t) (hw' : cellsWf t')
    (h : SameBelow size t t') : heldEntries t' size = heldEntries t size := by
  have hsorted := heldEntries_pairwise hw size
  have hsorted' := heldEntries_pairwise hw' size
  have hmem : ∀ x, x ∈ heldEntries t' size ↔ x ∈ heldEntries t size := by
    intro x
    rw [mem_heldEntries hw, mem_heldEntries hw']
    exact and_congr_right fun hlow => and_congr_right fun hc => by rw [h x.1 hlow hc]
  have hperm : (heldEntries t' size).Perm (heldEntries t size) :=
    (List.perm_ext_iff_of_nodup (hsorted'.imp fun hlt heq => by simp [heq] at hlt)
      (hsorted.imp fun hlt heq => by simp [heq] at hlt)).mpr hmem
  exact hperm.eq_of_pairwise (fun x y _ _ hxy hyx => absurd hxy (Nat.lt_asymm hyx)) hsorted' hsorted

/-- A lookup sees the entries below the size only (R37). -/
theorem efind_congr {t t' : Table} {size : Nat} (hw : cellsWf t) (hw' : cellsWf t') (h : SameBelow size t t')
    (p : Nat) (b : Symbol) : efind t' size p b = efind t size p b := by
  have hheld : ∀ u : Table, efind u size p b =
      ((heldEntries u size).find? fun ce => ce.2.parent.toNat == p && ce.2.sym == b).map Prod.fst := by
    intro u
    simp [efind, heldEntries, List.find?_filter, Bool.and_assoc, Bool.beq_eq_decide_eq]
  rw [hheld, hheld, heldEntries_congr hw hw' h]

/-! ## Results side by side -/

/-- Two results: the same fault, or values that are related. -/
def ResultsAgree {α : Type} (R : α → α → Prop) (x y : Except Raise α) : Prop :=
  (∃ e, x = .error e ∧ y = .error e) ∨ ∃ u v, x = .ok u ∧ y = .ok v ∧ R u v

theorem ResultsAgree.ok {α : Type} {R : α → α → Prop} {u v : α} (h : R u v) :
    ResultsAgree R (.ok u) (.ok v) :=
  .inr ⟨u, v, rfl, rfl, h⟩

theorem ResultsAgree.error {α : Type} {R : α → α → Prop} (e : Raise) : ResultsAgree R (.error e) (.error e) :=
  .inl ⟨e, rfl, rfl⟩

/-! ## ENCODE -/

/-- Two runs of ENCODE that differ in their tables only, and there only in what a lookup does not see. The codes
written are counted by `N_OUT` (R125). -/
def EncRunsAgree (a : EncArgs) (r r' : EncRun) : Prop :=
  ∃ t', r' = { r with table := t' } ∧ SameBelow r.size r.table t' ∧ cellsWf r.table ∧ cellsWf t' ∧
    (a.training = false → r.out.length = r.nOut)

theorem emit_agree {a : EncArgs} {r r' : EncRun} (h : EncRunsAgree a r r') (c : Nat) :
    ResultsAgree (EncRunsAgree a) (emit a c r) (emit a c r') := by
  obtain ⟨t', rfl, hcells, hw, hw', hwritten⟩ := h
  unfold emit
  by_cases htraining : a.training = true
  · rw [if_pos htraining, if_pos htraining]
    exact .ok ⟨t', rfl, hcells, hw, hw', by simp [htraining]⟩
  · rw [if_neg htraining, if_neg htraining]
    by_cases hfull : a.codeCap ≤ r.nOut
    · rw [if_pos hfull, if_pos hfull]
      exact .error _
    · rw [if_neg hfull, if_neg hfull]
      exact .ok ⟨t', rfl, hcells, hw, hw', fun ht => congrArg (· + 1) (hwritten ht)⟩

theorem encInsert_agree {a : EncArgs} {r r' : EncRun} (h : EncRunsAgree a r r') (p : Nat) (b : Symbol) :
    EncRunsAgree a (encInsert a p b r) (encInsert a p b r') := by
  obtain ⟨t', rfl, hcells, hw, hw', hwritten⟩ := h
  unfold encInsert
  by_cases hroom : r.size < capacity a.k ∧ a.testing = false
  · rw [if_pos hroom, if_pos hroom]
    exact ⟨_, rfl, hcells.insertEntry p b, insertEntry_wf hw _ p b, insertEntry_wf hw' _ p b, hwritten⟩
  · rw [if_neg hroom, if_neg hroom]
    exact ⟨t', rfl, hcells, hw, hw', hwritten⟩

theorem encAdvance_agree {a : EncArgs} {r r' : EncRun} (h : EncRunsAgree a r r') (c : Nat) :
    EncRunsAgree a (encAdvance c r) (encAdvance c r') := by
  obtain ⟨t', rfl, hcells, hw, hw', hwritten⟩ := h
  exact ⟨t', rfl, hcells, hw, hw', hwritten⟩

theorem EncRunsAgree.cur_eq {a : EncArgs} {r r' : EncRun} (h : EncRunsAgree a r r') : r'.cur = r.cur := by
  obtain ⟨t', rfl, -⟩ := h
  rfl

theorem EncRunsAgree.efind_eq {a : EncArgs} {r r' : EncRun} (h : EncRunsAgree a r r') (p : Nat) (b : Symbol) :
    efind r'.table r'.size p b = efind r.table r.size p b := by
  obtain ⟨t', rfl, hcells, hw, hw', -⟩ := h
  exact efind_congr hw hw' hcells p b

/-- One symbol on both sides: the lookups agree, so both take the same branch (R124). -/
theorem encStep_agree {a : EncArgs} {r r' : EncRun} (h : EncRunsAgree a r r') (b : Symbol) :
    ResultsAgree (EncRunsAgree a) (encStep a b r) (encStep a b r') := by
  unfold encStep
  rw [h.cur_eq]
  cases r.cur with
  | none => exact .ok (encAdvance_agree h _)
  | some p =>
    simp only [h.efind_eq]
    cases efind r.table r.size p b with
    | some c => exact .ok (encAdvance_agree h c)
    | none =>
      obtain ⟨e, hx, hy⟩ | ⟨u, v, hx, hy, huv⟩ := emit_agree h p
      · simp only [hx, hy]
        exact .error e
      · simp only [hx, hy]
        exact .ok (encAdvance_agree (encInsert_agree huv p b) _)

theorem encScan_agree {a : EncArgs} (bs : List Symbol) {r r' : EncRun} (h : EncRunsAgree a r r') :
    ResultsAgree (EncRunsAgree a) (encScan a bs r) (encScan a bs r') := by
  induction bs generalizing r r' with
  | nil => exact .ok h
  | cons b bs ih =>
    obtain ⟨e, hx, hy⟩ | ⟨u, v, hx, hy, huv⟩ := encStep_agree h b
    · simp only [encScan, hx, hy]
      exact .error e
    · simp only [encScan, hx, hy]
      exact ih huv

theorem encFlush_agree {a : EncArgs} {r r' : EncRun} (h : EncRunsAgree a r r') :
    ResultsAgree (EncRunsAgree a) (encFlush a r) (encFlush a r') := by
  unfold encFlush
  rw [h.cur_eq]
  cases r.cur with
  | none => exact .ok h
  | some p => exact emit_agree h p

theorem SameRaw.rawInput_eq {s t : State} (h : SameRaw s t) : rawInput t = rawInput s := by
  unfold rawInput
  rw [h.len]
  exact List.map_congr_left fun i hi => h.elements i (List.mem_range.mp hi)

theorem SameCode.codeInput_eq {s t : State} (h : SameCode s t) : codeInput t = codeInput s := by
  unfold codeInput
  rw [h.len]
  exact List.map_congr_left fun i hi => by rw [h.elements i (List.mem_range.mp hi)]

theorem SameStream.streamInput_eq {s t : State} (h : SameStream s t) : streamInput t = streamInput s := by
  unfold streamInput
  rw [h.len]
  exact List.map_congr_left fun i hi => h.elements i (List.mem_range.mp hi)

/-- The start checks read the size held only where KEEP = 1 (R122, R123). -/
theorem encodeStart_congr {s₁ s₂ : State} {keep : Bool} (k : Nat) (testing training : Bool)
    (hset : SameSetting s₁ s₂) (hlen : s₂.rawLen = s₁.rawLen) (hsize : keep = true → s₂.encSize = s₁.encSize) :
    encodeStart k keep testing training s₂ = encodeStart k keep testing training s₁ := by
  unfold encodeStart
  rw [hset.caps, hlen]
  cases keep with
  | false => rfl
  | true => rw [hsize rfl]

theorem encodeRun_agree {s₁ s₂ : State} {keep : Bool} (k : Nat) (testing training : Bool)
    (hset : SameSetting s₁ s₂) (hraw : SameRaw s₁ s₂) (hw₁ : cellsWf s₁.encTable) (hw₂ : cellsWf s₂.encTable)
    (hdict : keep = true → s₂.encSize = s₁.encSize ∧ SameBelow s₁.encSize.toNat s₁.encTable s₂.encTable) :
    ResultsAgree (EncRunsAgree (encArgs k testing training s₁)) (encodeRun k keep testing training s₁)
      (encodeRun k keep testing training s₂) := by
  have hargs : encArgs k testing training s₂ = encArgs k testing training s₁ := by rw [encArgs, hset.caps, encArgs]
  unfold encodeRun
  rw [encodeStart_congr k testing training hset hraw.len fun h => (hdict h).1, hargs, hraw.rawInput_eq]
  cases hstart : encodeStart k keep testing training s₁ with
  | error e => exact .error e
  | ok size =>
    have hcells : SameBelow size s₁.encTable s₂.encTable := by
      obtain ⟨-, -, -, ⟨-, rfl⟩ | ⟨hkeep, -, -, rfl⟩⟩ := encodeStart_ok hstart
      · exact sameBelow_roots _ _
      · exact (hdict hkeep).2
    have hinit : EncRunsAgree (encArgs k testing training s₁) (encInit size s₁.encTable)
        (encInit size s₂.encTable) := ⟨_, rfl, hcells, hw₁, hw₂, fun _ => rfl⟩
    obtain ⟨e, hx, hy⟩ | ⟨u, v, hx, hy, huv⟩ := encScan_agree (rawInput s₁) hinit
    · simp only [hx, hy]
      exact .error e
    · simp only [hx, hy]
      exact encFlush_agree huv

/-! ## DECODE -/

/-- Two runs of DECODE that differ in their tables only, and there only above the size. Parents decrease and the
previous code is held, so no sequence that is read reaches above the size. -/
def DecRunsAgree (r r' : DecRun) : Prop :=
  ∃ t', r' = { r with table := t' } ∧ SameBelow r.size r.table t' ∧ parentsSmaller r.table r.size ∧
    r.prev < r.size ∧ r.out.length = r.wp

theorem decEntry_agree {r r' : DecRun} (h : DecRunsAgree r r') (k c : Nat) : decEntry k c r' = decEntry k c r := by
  obtain ⟨t', rfl, hcells, hparents, hprev, -⟩ := h
  unfold decEntry
  by_cases hc : c < r.size
  · rw [if_pos hc, if_pos hc, seqOf_congr hparents hcells hc]
  · rw [if_neg hc, if_neg hc, seqOf_congr hparents hcells hprev]

theorem appendSyms_agree {r r' : DecRun} (h : DecRunsAgree r r') (rawCap : Nat) (xs : List Symbol) :
    ResultsAgree (fun u v => DecRunsAgree u v ∧ u.size = r.size)
      (appendSyms rawCap xs r) (appendSyms rawCap xs r') := by
  obtain ⟨t', rfl, hcells, hparents, hprev, hlen⟩ := h
  rw [appendSyms_eq, appendSyms_eq]
  split
  · exact .ok ⟨⟨t', rfl, hcells, hparents, hprev, by simp [hlen, Nat.add_comm]⟩, rfl⟩
  · exact .error _

/-- The insertion and the update of `PREV` and `POS` (R158); the code that was read is held afterwards. -/
theorem decInsert_agree {r r' : DecRun} (h : DecRunsAgree r r') {k c : Nat} (x : Symbol) (n : Nat)
    (hc : c < r.size ∨ (c = r.size ∧ r.size < capacity k)) :
    DecRunsAgree { decInsert k x r with prev := c, pos := n } { decInsert k x r' with prev := c, pos := n } := by
  obtain ⟨t', rfl, hcells, hparents, hprev, hlen⟩ := h
  unfold decInsert
  by_cases hfree : r.size < capacity k
  · rw [if_pos hfree, if_pos hfree]
    exact ⟨_, rfl, hcells.insertEntry _ x, parentsSmaller_insertEntry hparents hprev x,
      by change c < r.size + 1; omega, hlen⟩
  · rw [if_neg hfree, if_neg hfree]
    exact ⟨t', rfl, hcells, hparents, by change c < r.size; omega, hlen⟩

theorem decStep_agree {r r' : DecRun} (h : DecRunsAgree r r') (k rawCap c : Nat) :
    ResultsAgree DecRunsAgree (decStep k rawCap c r) (decStep k rawCap c r') := by
  have hpos : r'.pos = r.pos := by
    obtain ⟨t', rfl, -⟩ := h
    rfl
  unfold decStep
  rw [decEntry_agree h, hpos]
  cases hentry : decEntry k c r with
  | none => exact .error _
  | some entry =>
    have hc : c < r.size ∨ (c = r.size ∧ r.size < capacity k) := (decEntry_isSome_iff k c r).mp (by simp [hentry])
    obtain ⟨e, hx, hy⟩ | ⟨u, v, hx, hy, huv, hsize⟩ := appendSyms_agree h rawCap entry
    · simp only [hx, hy]
      exact .error e
    · simp only [hx, hy]
      exact .ok (decInsert_agree huv _ _ (hsize ▸ hc))

theorem decScan_agree (k rawCap : Nat) (cs : List Nat) {r r' : DecRun} (h : DecRunsAgree r r') :
    ResultsAgree DecRunsAgree (decScan k rawCap cs r) (decScan k rawCap cs r') := by
  induction cs generalizing r r' with
  | nil => exact .ok h
  | cons c cs ih =>
    obtain ⟨e, hx, hy⟩ | ⟨u, v, hx, hy, huv⟩ := decStep_agree h k rawCap c
    · simp only [decScan, hx, hy]
      exact .error e
    · simp only [decScan, hx, hy]
      exact ih huv

/-- The seeding gives every run the root entries, whatever the table holds (R152). -/
theorem decInit_agree {c0 : Nat} (hc : c0 < 256) (t t' : Table) : DecRunsAgree (decInit c0 t) (decInit c0 t') :=
  ⟨t', rfl, sameBelow_roots t t', fun _ h1 h2 => absurd h2 (Nat.not_lt.mpr h1), hc, rfl⟩

theorem decCodes_agree (k rawCap : Nat) (t t' : Table) (codes : List Nat) :
    ResultsAgree DecRunsAgree (decCodes k rawCap t codes) (decCodes k rawCap t' codes) := by
  cases codes with
  | nil => exact .ok (decInit_agree (by decide) t t')
  | cons c0 cs =>
    simp only [decCodes]
    by_cases hroot : 256 ≤ c0
    · rw [if_pos hroot, if_pos hroot]
      exact .error _
    · rw [if_neg hroot, if_neg hroot]
      obtain ⟨e, hx, hy⟩ | ⟨u, v, hx, hy, huv, -⟩ :=
        appendSyms_agree (decInit_agree (Nat.not_le.mp hroot) t t') rawCap [BitVec.ofNat 8 c0]
      · simp only [hx, hy]
        exact .error e
      · simp only [hx, hy]
        obtain ⟨t₁, rfl, hcells, hparents, hprev, hlen⟩ := huv
        exact decScan_agree k rawCap cs ⟨t₁, rfl, hcells, hparents, hprev, hlen⟩

theorem decodeRun_agree {s₁ s₂ : State} (k : Nat) (hset : SameSetting s₁ s₂) (hcode : SameCode s₁ s₂) :
    ResultsAgree DecRunsAgree (decodeRun k s₁) (decodeRun k s₂) := by
  unfold decodeRun
  rw [hset.caps, hcode.len, hcode.codeInput_eq]
  split
  · exact .error _
  · split
    · exact .error _
    · exact decCodes_agree ..

/-! ## The commands -/

/-- An output sequence reads alike whatever the free values beyond it are. -/
theorem getD_cellsFrom {α : Type} {out : List α} {i : Nat} (h : i < out.length) (x y : α) :
    (cellGet (cellsFrom 0 out) i).getD x = (cellGet (cellsFrom 0 out) i).getD y := by
  simp [h]

/-- The length that is written is at most the length of the output. -/
theorem lt_of_lt_ofNat {i n m : Nat} (h : i < (BitVec.ofNat 32 n).toNat) (hn : m = n) : i < m :=
  hn ▸ Nat.lt_of_lt_of_le h (Nat.mod_le _ _)

theorem faultEntry_sameSetting {s₁ s₂ : State} (h : SameSetting s₁ s₂) (x : Raiser) (e : Raise) :
    SameSetting (faultEntry x e s₁) (faultEntry x e s₂) :=
  ⟨by simp [h.caps], by simp, by simp⟩

theorem encodeFinish_sameSetting {s₁ s₂ : State} (h : SameSetting s₁ s₂) (testing training : Bool) (r r' : EncRun) :
    SameSetting (encodeFinish testing training r s₁) (encodeFinish testing training r' s₂) := by
  obtain ⟨hcaps, hstatus, hindex⟩ := h
  cases training <;> exact ⟨hcaps, congrArg Status.completed hstatus, hindex⟩

theorem encodeFinish_sameCode {s₁ s₂ : State} {r r' : EncRun} (testing : Bool) (hout : r'.out = r.out)
    (hcount : r'.nOut = r.nOut) (hlen : r.out.length = r.nOut) :
    SameCode (encodeFinish testing false r s₁) (encodeFinish testing false r' s₂) := by
  refine ⟨congrArg (BitVec.ofNat 32) hcount, fun i hi => ?_⟩
  have hlt : i < r.out.reverse.length := lt_of_lt_ofNat hi (by rw [List.length_reverse, hlen])
  change (cellGet (cellsFrom 0 r'.out.reverse) i).getD _ = (cellGet (cellsFrom 0 r.out.reverse) i).getD _
  rw [hout]
  exact getD_cellsFrom hlt _ _

theorem encode_resultsAgree {k : Nat} {keep testing training : Bool} {s₁ s₂ t₁ t₂ : State}
    (hset : SameSetting s₁ s₂) (hraw : SameRaw s₁ s₂) (hw₁ : cellsWf s₁.encTable) (hw₂ : cellsWf s₂.encTable)
    (hdict : keep = true → s₂.encSize = s₁.encSize ∧ SameBelow s₁.encSize.toNat s₁.encTable s₂.encTable)
    (h₁ : execEncode k keep testing training s₁ = .next t₁) (h₂ : execEncode k keep testing training s₂ = .next t₂) :
    SameSetting t₁ t₂ ∧ t₂.encSize = t₁.encSize ∧ (training = false → SameCode t₁ t₂) ∧
      SameBelow t₁.encSize.toNat t₁.encTable t₂.encTable := by
  obtain ⟨e, hx, hy⟩ | ⟨r, r', hx, hy, t', rfl, hcells, -, -, hwritten⟩ :=
    encodeRun_agree k testing training hset hraw hw₁ hw₂ hdict
  · rw [execEncode, hx] at h₁
    rw [execEncode, hy] at h₂
    cases h₁
    cases h₂
    refine ⟨faultEntry_sameSetting hset _ e, by simp, ?_, fun c _ hc => ?_⟩
    · rintro rfl
      exact ⟨rfl, fun i hi => absurd hi (Nat.not_lt_zero i)⟩
    · rw [faultEntry_encSize_encode] at hc
      exact absurd hc (Nat.not_lt_zero c)
  · rw [execEncode, hx] at h₁
    rw [execEncode, hy] at h₂
    cases h₁
    cases h₂
    refine ⟨encodeFinish_sameSetting hset .., by simp only [encodeFinish_encSize], ?_, ?_⟩
    · rintro rfl
      exact encodeFinish_sameCode testing rfl rfl (hwritten rfl)
    · rw [encodeFinish_encTable, encodeFinish_encTable, encodeFinish_encSize]
      refine hcells.mono ?_
      split
      · exact Nat.mod_le _ _
      · exact Nat.zero_le _

theorem decode_resultsAgree {k : Nat} {s₁ s₂ t₁ t₂ : State} (hset : SameSetting s₁ s₂) (hcode : SameCode s₁ s₂)
    (h₁ : execDecode k s₁ = .next t₁) (h₂ : execDecode k s₂ = .next t₂) :
    SameSetting t₁ t₂ ∧ t₂.decSize = t₁.decSize ∧ SameRaw t₁ t₂ := by
  obtain ⟨e, hx, hy⟩ | ⟨r, r', hx, hy, t', rfl, -, -, -, hlen⟩ := decodeRun_agree k hset hcode
  · rw [execDecode, hx] at h₁
    rw [execDecode, hy] at h₂
    cases h₁
    cases h₂
    exact ⟨faultEntry_sameSetting hset _ e, rfl, rfl, fun i hi => absurd hi (Nat.not_lt_zero i)⟩
  · rw [execDecode, hx] at h₁
    rw [execDecode, hy] at h₂
    cases h₁
    cases h₂
    exact ⟨⟨hset.caps, congrArg Status.completed hset.status, hset.errIndex⟩, rfl, rfl, fun i hi =>
      getD_cellsFrom (lt_of_lt_ofNat hi (by rw [List.length_reverse, hlen])) _ _⟩

theorem pack_resultsAgree {k : Nat} {s₁ s₂ t₁ t₂ : State} (hset : SameSetting s₁ s₂) (hcode : SameCode s₁ s₂)
    (h₁ : execPack k s₁ = .next t₁) (h₂ : execPack k s₂ = .next t₂) : SameSetting t₁ t₂ ∧ SameStream t₁ t₂ := by
  have hrun : packRun k s₂ = packRun k s₁ := by
    unfold packRun
    rw [hset.caps, hcode.len, hcode.codeInput_eq]
  unfold execPack at h₁ h₂
  rw [hrun] at h₂
  cases hr : packRun k s₁ <;> rw [hr] at h₁ h₂ <;> cases h₁ <;> cases h₂
  case error e =>
    exact ⟨faultEntry_sameSetting hset _ e, rfl, fun i hi => absurd hi (Nat.not_lt_zero i)⟩
  case ok bytes =>
    exact ⟨⟨hset.caps, congrArg Status.completed hset.status, hset.errIndex⟩, rfl, fun i hi =>
      getD_cellsFrom (lt_of_lt_ofNat hi rfl) _ _⟩

theorem unpack_resultsAgree {k : Nat} {s₁ s₂ t₁ t₂ : State} (hset : SameSetting s₁ s₂) (hstream : SameStream s₁ s₂)
    (h₁ : execUnpack k s₁ = .next t₁) (h₂ : execUnpack k s₂ = .next t₂) : SameSetting t₁ t₂ ∧ SameCode t₁ t₂ := by
  have hrun : unpackRun k s₂ = unpackRun k s₁ := by
    unfold unpackRun
    rw [hset.caps, hstream.len, hstream.streamInput_eq]
  unfold execUnpack at h₁ h₂
  rw [hrun] at h₂
  cases hr : unpackRun k s₁ <;> rw [hr] at h₁ h₂ <;> cases h₁ <;> cases h₂
  case error e =>
    exact ⟨faultEntry_sameSetting hset _ e, rfl, fun i hi => absurd hi (Nat.not_lt_zero i)⟩
  case ok codes =>
    exact ⟨⟨hset.caps, congrArg Status.completed hset.status, hset.errIndex⟩, rfl, fun i hi =>
      getD_cellsFrom (lt_of_lt_ofNat hi rfl) _ _⟩

/-- Settles O48: the two runs of each data command end alike. -/
theorem resultsDependOnTheInputOnly : Obligations.ResultsDependOnTheInputOnly :=
  ⟨fun _ _ _ _ _ _ _ _ hset hraw hw₁ hw₂ hdict h₁ h₂ => encode_resultsAgree hset hraw hw₁ hw₂ hdict h₁ h₂,
    fun _ _ _ _ _ hset hcode h₁ h₂ => decode_resultsAgree hset hcode h₁ h₂,
    fun _ _ _ _ _ hset hcode h₁ h₂ => pack_resultsAgree hset hcode h₁ h₂,
    fun _ _ _ _ _ hset hstream h₁ h₂ => unpack_resultsAgree hset hstream h₁ h₂⟩

end Sys2Proof.Machine

/-! # Who writes what (O49)

R23's "written by" column as data: the parts of the state (`Part`), the parts each command writes (`Instr.writes`), and
what a host operation writes (`Writes`). One lemma per command and one for the host's operations say that every other
part is kept. -/

namespace Sys2Proof.Machine

/-- The rows of R23 that share their writers. -/
inductive Part where
  /-- `STATUS`, `ERR_INDEX` and the working registers. -/
  | control
  | rawLen
  | codeLen
  | streamLen
  | encSize
  | decSize
  | encTable
  | decTable
  | raw
  | code
  | stream

/-- The part holds in `t` what it holds in `s`. -/
def Part.Kept (s t : State) : Part → Prop
  | .control => t.status = s.status ∧ t.errIndex = s.errIndex ∧ t.work = s.work
  | .rawLen => t.rawLen = s.rawLen
  | .codeLen => t.codeLen = s.codeLen
  | .streamLen => t.streamLen = s.streamLen
  | .encSize => t.encSize = s.encSize
  | .decSize => t.decSize = s.decSize
  | .encTable => t.encTable = s.encTable
  | .decTable => t.decTable = s.decTable
  | .raw => t.raw = s.raw
  | .code => t.code = s.code
  | .stream => t.stream = s.stream

/-- The commands of R23's "written by" column. Testing mode inserts nothing (R128) and training mode writes no code
(R129). -/
def commandWrites : Instr → Part → Prop
  | _, .control => True
  | .encode _ _ _ _, .encSize => True
  | .encode _ _ testing _, .encTable => testing = false
  | .encode _ _ _ training, .code => training = false
  | .encode _ _ _ training, .codeLen => training = false
  | .decode _, .rawLen => True
  | .decode _, .raw => True
  | .decode _, .decSize => True
  | .decode _, .decTable => True
  | .pack _, .streamLen => True
  | .pack _, .stream => True
  | .unpack _, .codeLen => True
  | .unpack _, .code => True
  | .reset, .rawLen => True
  | .reset, .codeLen => True
  | .reset, .streamLen => True
  | .reset, .encSize => True
  | .reset, .decSize => True
  | _, _ => False

/-- What a host operation that issues the commands `runs` writes: the reset input everything, a register or element
access its target, and the issue of a command word the flags and what its command writes. -/
inductive Writes (op : HostOp) (runs : Instr → Prop) : Part → Prop where
  | resetInput {p : Part} (h : op = .resetInput) : Writes op runs p
  | issue (w : CmdWord) (h : Issues op w) : Writes op runs .control
  | command {p : Part} (i : Instr) (h : runs i) (hp : commandWrites i p) : Writes op runs p
  | rawLen (v : Word) (h : op = .writeReg 0x08 v) : Writes op runs .rawLen
  | codeLen (v : Word) (h : op = .writeReg 0x0C v) : Writes op runs .codeLen
  | streamLen (v : Word) (h : op = .writeReg 0x10 v) : Writes op runs .streamLen
  | raw (i : Nat) (v : Symbol) (h : op = .writeRaw i v) : Writes op runs .raw
  | code (i : Nat) (v : Half) (h : op = .writeCode i v) : Writes op runs .code
  | stream (i : Nat) (v : Symbol) (h : op = .writeStream i v) : Writes op runs .stream

/-! ## The commands -/

/-- A scan in testing mode inserts nothing (R128). -/
theorem encStep_testing_table {a : EncArgs} {b : Symbol} {r r' : EncRun} (ht : a.testing = true)
    (h : encStep a b r = .ok r') : r'.table = r.table := by
  obtain ⟨-, rfl⟩ | ⟨p, c, -, -, rfl⟩ | ⟨p, r₁, -, -, hemit, rfl⟩ := encStep_cases h
  · rfl
  · rfl
  · have hins : encInsert a p b r₁ = r₁ := if_neg fun hroom => by simp [ht] at hroom
    rw [hins]
    exact (emit_table hemit).1

theorem encFlush_table {a : EncArgs} {r r' : EncRun} (h : encFlush a r = .ok r') : r'.table = r.table := by
  unfold encFlush at h
  split at h
  · cases h
    rfl
  · exact (emit_table h).1

theorem encodeRun_testing_table {k : Nat} {keep training : Bool} {s : State} {r : EncRun}
    (h : encodeRun k keep true training s = .ok r) : r.table = s.encTable := by
  obtain ⟨size, r₁, -, hscan, hflush⟩ := encodeRun_ok h
  rw [encFlush_table hflush]
  exact encScan_induct (P := fun u => u.table = s.encTable)
    (fun _ _ _ hu hstep => (encStep_testing_table rfl hstep).trans hu) _ rfl hscan

/-- An ENCODE in training mode leaves `CODE`, and one in testing mode its dictionary's entries. -/
theorem execEncode_kept {k : Nat} {keep testing training : Bool} {s t : State} {p : Part}
    (h : execEncode k keep testing training s = .next t)
    (hp : ¬commandWrites (.encode k keep testing training) p) : p.Kept s t := by
  obtain ⟨e, -, he⟩ | ⟨r, hr, he⟩ := execEncode_cases k keep testing training s <;> cases h.symm.trans he
  · cases p <;> simp_all [Part.Kept, commandWrites]
  · have htable : testing = true → r.table = s.encTable := by
      rintro rfl
      exact encodeRun_testing_table hr
    cases training <;> cases p <;> simp_all [Part.Kept, commandWrites, encodeFinish, encodeKeep]

theorem execDecode_kept {k : Nat} {s t : State} {p : Part} (h : execDecode k s = .next t)
    (hp : ¬commandWrites (.decode k) p) : p.Kept s t := by
  obtain ⟨e, -, he⟩ | ⟨r, -, he⟩ := execDecode_cases k s <;> cases h.symm.trans he
  · cases p <;> simp_all [Part.Kept, commandWrites]
  · cases p <;> simp_all [Part.Kept, commandWrites, decodeFinish]

theorem execPack_kept {k : Nat} {s t : State} {p : Part} (h : execPack k s = .next t)
    (hp : ¬commandWrites (.pack k) p) : p.Kept s t := by
  obtain ⟨e, -, he⟩ | ⟨bytes, -, he⟩ := execPack_cases k s <;> cases h.symm.trans he
  · cases p <;> simp_all [Part.Kept, commandWrites]
  · cases p <;> simp_all [Part.Kept, commandWrites, packFinish]

theorem execUnpack_kept {k : Nat} {s t : State} {p : Part} (h : execUnpack k s = .next t)
    (hp : ¬commandWrites (.unpack k) p) : p.Kept s t := by
  obtain ⟨e, -, he⟩ | ⟨codes, -, he⟩ := execUnpack_cases k s <;> cases h.symm.trans he
  · cases p <;> simp_all [Part.Kept, commandWrites]
  · cases p <;> simp_all [Part.Kept, commandWrites, unpackFinish]

theorem clearRegisters_kept {s : State} {p : Part} (hp : ¬commandWrites .reset p) :
    p.Kept s (clearRegisters s) := by
  cases p <;> simp_all [Part.Kept, commandWrites]

/-- A command keeps every part that R23 does not let it write. -/
theorem exec_kept {i : Instr} {s t : State} {p : Part} (h : exec i s = .next t) (hp : ¬commandWrites i p) :
    p.Kept s t := by
  cases i with
  | encode k keep testing training => exact execEncode_kept h hp
  | decode k => exact execDecode_kept h hp
  | pack k => exact execPack_kept h hp
  | unpack k => exact execUnpack_kept h hp
  | reset =>
    cases h
    exact clearRegisters_kept hp

/-! ## The host's operations -/

theorem Part.Kept.refl (p : Part) (s : State) : p.Kept s s := by
  cases p <;> simp [Part.Kept]

/-- Acceptance changes flags only (R220). -/
theorem Part.Kept.of_accept {p : Part} {s t : State} (h : p.Kept (accept s) t) (hp : p ≠ .control) : p.Kept s t := by
  cases p
  case control => exact absurd rfl hp
  all_goals exact h

/-- Taking an operation off the queue changes no part (log 2). -/
theorem Part.Kept.of_taken {p : Part} {s t : State} {rest : List HostOp}
    (h : p.Kept { s with pending := rest } t) : p.Kept s t := by
  cases p <;> exact h

section

variable {op : HostOp} {runs : Instr → Prop} {p : Part} {s t : State}
  (hruns : ∀ i, runs i ↔ ∃ w, Issues op w ∧ decode w = .ok i)

include hruns in
theorem issue_kept {w : CmdWord} (hw : Issues op w) (h : issue w s = .next t) (hp : ¬Writes op runs p) :
    p.Kept s t := by
  have hcontrol : p ≠ .control := by
    rintro rfl
    exact hp (.issue w hw)
  have hcommand : ∀ i, decode w = .ok i → ¬commandWrites i p := fun i hd hwrites =>
    hp (.command i ((hruns i).mpr ⟨w, hw, hd⟩) hwrites)
  obtain ⟨-, rfl, hi⟩ | ⟨-, -, hi⟩ | ⟨-, -, hi⟩ | ⟨-, i, hd, hi⟩ := issue_cases w s <;> rw [hi] at h
  · exact exec_kept h (hcommand _ decode_reset)
  · cases h
    exact .refl p s
  · cases h
    exact Part.Kept.of_accept (by cases p <;> simp_all [Part.Kept]) hcontrol
  · exact (exec_kept h (hcommand i hd)).of_accept hcontrol

include hruns in
theorem idleOp_kept (h : idleOp op s = .next t) (hp : ¬Writes op runs p) : p.Kept s t := by
  obtain ⟨v, hop, hi⟩ | ⟨v, hop, rfl⟩ | ⟨v, hop, rfl⟩ | ⟨v, hop, rfl⟩ | ⟨i, v, hop, -, rfl⟩ | ⟨i, v, hop, -, rfl⟩ |
    ⟨i, v, hop, -, rfl⟩ | ⟨v, rfl⟩ | ⟨c, v, -, rfl⟩ | ⟨hop, -⟩ | rfl := idleOp_cases h
  · exact issue_kept hruns ⟨v, hop, rfl⟩ hi hp
  · have hne : p ≠ .rawLen := fun heq => hp (heq ▸ .rawLen v hop)
    cases p <;> simp_all [Part.Kept]
  · have hne : p ≠ .codeLen := fun heq => hp (heq ▸ .codeLen v hop)
    cases p <;> simp_all [Part.Kept]
  · have hne : p ≠ .streamLen := fun heq => hp (heq ▸ .streamLen v hop)
    cases p <;> simp_all [Part.Kept]
  · have hne : p ≠ .raw := fun heq => hp (heq ▸ .raw i v hop)
    cases p <;> simp_all [Part.Kept]
  · have hne : p ≠ .code := fun heq => hp (heq ▸ .code i v hop)
    cases p <;> simp_all [Part.Kept]
  · have hne : p ≠ .stream := fun heq => hp (heq ▸ .stream i v hop)
    cases p <;> simp_all [Part.Kept]
  · exact Part.Kept.refl p s
  · exact Part.Kept.refl p s
  · exact absurd (.resetInput hop) hp
  · exact Part.Kept.refl p _

theorem busyOp_kept (h : busyOp op s = .next t) (hp : ¬Writes op runs p) : p.Kept s t := by
  obtain ⟨-, rfl⟩ | ⟨hop, -⟩ := busyOp_cases h
  · exact Part.Kept.refl p s
  · exact absurd (.resetInput hop) hp

include hruns in
/-- A part that a step changes is written by the operation it took. -/
theorem step_writes {rest : List HostOp} (hpending : s.pending = op :: rest) (h : step s = .next t)
    (hp : ¬p.Kept s t) : Writes op runs p := by
  by_contra hnot
  obtain ⟨hnil, -⟩ | ⟨op', rest', hcons, -, hop⟩ | ⟨op', rest', hcons, -, hop⟩ := step_cases h
  · simp [hpending] at hnil
  all_goals
    obtain ⟨rfl, rfl⟩ := List.cons.inj (hpending.symm.trans hcons)
  · exact hp (busyOp_kept hop hnot).of_taken
  · exact hp (idleOp_kept hruns hop hnot).of_taken

end

/-! ## The commands that write a part -/

theorem commandWrites_rawLen {i : Instr} : commandWrites i .rawLen ↔ i = .reset ∨ ∃ k, i = .decode k := by
  cases i <;> simp [commandWrites]

theorem commandWrites_codeLen {i : Instr} :
    commandWrites i .codeLen ↔
      i = .reset ∨ (∃ k, i = .unpack k) ∨ ∃ k keep testing, i = .encode k keep testing false := by
  cases i <;> simp [commandWrites]

theorem commandWrites_streamLen {i : Instr} : commandWrites i .streamLen ↔ i = .reset ∨ ∃ k, i = .pack k := by
  cases i <;> simp [commandWrites]

theorem commandWrites_encSize {i : Instr} :
    commandWrites i .encSize ↔ i = .reset ∨ ∃ k keep testing training, i = .encode k keep testing training := by
  cases i <;> simp [commandWrites]

theorem commandWrites_decSize {i : Instr} : commandWrites i .decSize ↔ i = .reset ∨ ∃ k, i = .decode k := by
  cases i <;> simp [commandWrites]

theorem commandWrites_encTable {i : Instr} :
    commandWrites i .encTable ↔ ∃ k keep training, i = .encode k keep false training := by
  cases i <;> simp [commandWrites]

theorem commandWrites_decTable {i : Instr} : commandWrites i .decTable ↔ ∃ k, i = .decode k := by
  cases i <;> simp [commandWrites]

theorem commandWrites_raw {i : Instr} : commandWrites i .raw ↔ ∃ k, i = .decode k := by
  cases i <;> simp [commandWrites]

theorem commandWrites_code {i : Instr} :
    commandWrites i .code ↔ (∃ k, i = .unpack k) ∨ ∃ k keep testing, i = .encode k keep testing false := by
  cases i <;> simp [commandWrites]

theorem commandWrites_stream {i : Instr} : commandWrites i .stream ↔ ∃ k, i = .pack k := by
  cases i <;> simp [commandWrites]

/-- Settles O49: what is not kept is written (`step_writes`), and the writers of each part are those of R23. -/
theorem stateIsWrittenOnlyByItsWriters : Obligations.StateIsWrittenOnlyByItsWriters := by
  intro s t op rest runs hp hstep hruns
  have hwrites : ∀ p : Part, ¬p.Kept s t → Writes op runs p := fun p h => step_writes hruns hp hstep h
  refine ⟨fun h => ?_, fun h => ?_, fun h => ?_, fun h => ?_, fun h => ?_, fun h => ?_, fun h => ?_, fun h => ?_,
    fun h => ?_, fun h => ?_, fun h => ?_⟩
  · have hchanged : ¬Part.Kept s t .control := fun ⟨hstatus, hindex, hwork⟩ =>
      h.elim (· hstatus) (·.elim (· hindex) (· hwork))
    cases hwrites .control hchanged with
    | resetInput hop => exact .inl hop
    | issue w hw => exact .inr ⟨w, hw⟩
    | command i hi hc =>
      obtain ⟨w, hw, -⟩ := (hruns i).mp hi
      exact .inr ⟨w, hw⟩
  · cases hwrites .rawLen h with
    | resetInput hop => exact .inl hop
    | command i hi hc =>
      obtain rfl | ⟨k, rfl⟩ := commandWrites_rawLen.mp hc
      · exact .inr (.inl hi)
      · exact .inr (.inr (.inr ⟨k, hi⟩))
    | rawLen v hop => exact .inr (.inr (.inl ⟨v, hop⟩))
  · cases hwrites .codeLen h with
    | resetInput hop => exact .inl hop
    | command i hi hc =>
      obtain rfl | ⟨k, rfl⟩ | ⟨k, keep, testing, rfl⟩ := commandWrites_codeLen.mp hc
      · exact .inr (.inl hi)
      · exact .inr (.inr (.inr (.inl ⟨k, hi⟩)))
      · exact .inr (.inr (.inr (.inr ⟨k, keep, testing, hi⟩)))
    | codeLen v hop => exact .inr (.inr (.inl ⟨v, hop⟩))
  · cases hwrites .streamLen h with
    | resetInput hop => exact .inl hop
    | command i hi hc =>
      obtain rfl | ⟨k, rfl⟩ := commandWrites_streamLen.mp hc
      · exact .inr (.inl hi)
      · exact .inr (.inr (.inr ⟨k, hi⟩))
    | streamLen v hop => exact .inr (.inr (.inl ⟨v, hop⟩))
  · cases hwrites .encSize h with
    | resetInput hop => exact .inl hop
    | command i hi hc =>
      obtain rfl | ⟨k, keep, testing, training, rfl⟩ := commandWrites_encSize.mp hc
      · exact .inr (.inl hi)
      · exact .inr (.inr ⟨k, keep, testing, training, hi⟩)
  · cases hwrites .decSize h with
    | resetInput hop => exact .inl hop
    | command i hi hc =>
      obtain rfl | ⟨k, rfl⟩ := commandWrites_decSize.mp hc
      · exact .inr (.inl hi)
      · exact .inr (.inr ⟨k, hi⟩)
  · cases hwrites .encTable h with
    | resetInput hop => exact .inl hop
    | command i hi hc =>
      obtain ⟨k, keep, training, rfl⟩ := commandWrites_encTable.mp hc
      exact .inr ⟨k, keep, training, hi⟩
  · cases hwrites .decTable h with
    | resetInput hop => exact .inl hop
    | command i hi hc =>
      obtain ⟨k, rfl⟩ := commandWrites_decTable.mp hc
      exact .inr ⟨k, hi⟩
  · obtain ⟨j, hj⟩ := h
    cases hwrites .raw fun hkept => hj (readRaw_congr hkept j) with
    | resetInput hop => exact .inl hop
    | command i hi hc =>
      obtain ⟨k, rfl⟩ := commandWrites_raw.mp hc
      exact .inr (.inr ⟨k, hi⟩)
    | raw i v hop => exact .inr (.inl ⟨i, v, hop⟩)
  · obtain ⟨j, hj⟩ := h
    cases hwrites .code fun hkept => hj (readCode_congr hkept j) with
    | resetInput hop => exact .inl hop
    | command i hi hc =>
      obtain ⟨k, rfl⟩ | ⟨k, keep, testing, rfl⟩ := commandWrites_code.mp hc
      · exact .inr (.inr (.inl ⟨k, hi⟩))
      · exact .inr (.inr (.inr ⟨k, keep, testing, hi⟩))
    | code i v hop => exact .inr (.inl ⟨i, v, hop⟩)
  · obtain ⟨j, hj⟩ := h
    cases hwrites .stream fun hkept => hj (readStream_congr hkept j) with
    | resetInput hop => exact .inl hop
    | command i hi hc =>
      obtain ⟨k, rfl⟩ := commandWrites_stream.mp hc
      exact .inr (.inr ⟨k, hi⟩)
    | stream i v hop => exact .inr (.inl ⟨i, v, hop⟩)

end Sys2Proof.Machine

/-! # The host's accesses to the buffers (O52, O54)

`step_idle` and `step_busy` reduce a step to the operation it takes; what is refused is then said of the operation. -/

namespace Sys2Proof.Machine

/-! ## Accesses inside a buffer -/

theorem within_of_lt {i bound : Nat} (h : i < bound) (t : State) : within i bound t = .next t := if_pos h

/-- Settles O52: the access is inside its buffer, and the reads after a write are those of `cellSet`. -/
theorem bufferElementsReadBack : Obligations.BufferElementsReadBack := by
  refine ⟨fun s rest i v hp hidle hi => ?_, fun s rest i v hp hidle hi => ?_, fun s rest i v hp hidle hi => ?_,
    fun s op rest i hp hidle => ⟨?_, ?_, ?_⟩⟩
  · exact ⟨_, (step_idle hp hidle).trans (within_of_lt hi _), readRaw_writeRaw_self _ i v,
      fun j hj => readRaw_writeRaw_ne _ v hj, rfl⟩
  · exact ⟨_, (step_idle hp hidle).trans (within_of_lt hi _), readCode_writeCode_self _ i v,
      fun j hj => readCode_writeCode_ne _ v hj, rfl⟩
  · exact ⟨_, (step_idle hp hidle).trans (within_of_lt hi _), readStream_writeStream_self _ i v,
      fun j hj => readStream_writeStream_ne _ v hj, rfl⟩
  all_goals
    rintro rfl hi
    exact (step_idle hp hidle).trans (within_of_lt hi _)

/-! ## Accesses outside the domain -/

theorem step_busy {s : State} {op : HostOp} {rest : List HostOp} (hp : s.pending = op :: rest)
    (hbusy : s.status.busy = true) : step s = busyOp op { s with pending := rest } := by
  simp [step, stepHost, hp, hostOp, hbusy]

theorem within_refused_iff {i bound : Nat} {t : State} :
    (∃ r, within i bound t = .refused r) ↔ bound ≤ i := by
  unfold within
  split <;> simp <;> omega

theorem exec_not_refused (i : Instr) (s : State) (r : Refusal) : exec i s ≠ .refused r := by
  obtain ⟨x, e, h⟩ | ⟨testing, training, u, h⟩ | ⟨u, h⟩ | ⟨bytes, h⟩ | ⟨codes, h⟩ | h := exec_cases i s <;>
    simp [h]

theorem issue_not_refused (w : CmdWord) (s : State) (r : Refusal) : issue w s ≠ .refused r := by
  obtain ⟨-, -, h⟩ | ⟨-, -, h⟩ | ⟨-, -, h⟩ | ⟨-, i, -, h⟩ := issue_cases w s <;> rw [h]
  · exact exec_not_refused .reset s r
  · simp
  · simp
  · exact exec_not_refused i (accept s) r

theorem writeOffset_not_refused (offset : Nat) (v : Word) (s : State) (r : Refusal) :
    writeOffset offset v s ≠ .refused r := by
  by_cases h : offset = 0
  · subst h
    exact issue_not_refused _ s r
  · simp [writeOffset_eq h]

/-- The accesses that R60, R63 and R74 give no meaning: a misaligned register offset, and an index at or beyond the
end of a buffer or of the dictionary window. -/
def OutsideDomain (caps : Caps) : HostOp → Prop
  | .writeReg offset _ | .readReg offset => offset % 4 ≠ 0
  | .writeRaw i _ | .readRaw i => caps.raw.toNat ≤ i
  | .writeCode i _ | .readCode i => caps.code.toNat ≤ i
  | .writeStream i _ | .readStream i => caps.stream.toNat ≤ i
  | .writeDict c _ | .readDict c => 65536 ≤ c
  | .resetInput => False

theorem idleOp_refused_iff {op : HostOp} {s : State} :
    (∃ r, idleOp op s = .refused r) ↔ OutsideDomain s.caps op := by
  cases op with
  | writeReg offset v =>
    by_cases h : offset % 4 = 0
    · simp [idleOp, OutsideDomain, h, writeOffset_not_refused]
    · simp [idleOp, OutsideDomain, h]
  | readReg offset => by_cases h : offset % 4 = 0 <;> simp [idleOp, OutsideDomain, h]
  | resetInput => simp [idleOp, OutsideDomain]
  | _ => exact within_refused_iff

theorem busyOp_refused_iff {op : HostOp} {s : State} :
    (∃ r, busyOp op s = .refused r) ↔ op ≠ .readReg 0x04 ∧ op ≠ .resetInput := by
  cases op with
  | readReg offset => by_cases h : offset = 0x04 <;> simp [busyOp, h]
  | _ => simp [busyOp]

/-- Settles O54: a busy block refuses by the operation alone, an idle one by `OutsideDomain`. -/
theorem onlyAccessesOutsideTheDomainStop : Obligations.OnlyAccessesOutsideTheDomainStop := by
  refine fun s op rest hp => ⟨?_, step_ne_fault s⟩
  cases hbusy : s.status.busy with
  | true => simp [step_busy hp hbusy, busyOp_refused_iff]
  | false =>
    rw [step_idle hp hbusy, idleOp_refused_iff]
    cases op <;> simp [OutsideDomain]

end Sys2Proof.Machine

/-! # Faults, completion and frames (O10, O47)

A data command completes or takes a fault (`exec_encode_answers` and its like). A fault leaves no known element in the
output buffer; a completed output is as long as its length register says, because every run stays within the capacity
of its buffer, a 32-bit number (`EncRunWritten`, `DecRunWritten`). -/

namespace Sys2Proof.Machine

/-! ## What a command answers -/

theorem exec_encode_answers (k : Nat) (keep testing training : Bool) (s : State) :
    ∃ t, exec (.encode k keep testing training) s = .next t ∧
      (Completed s t ∨ ∃ c idx, t = faultEntry (.encode training) ⟨c, idx⟩ s) := by
  obtain ⟨e, -, he⟩ | ⟨r, -, he⟩ := execEncode_cases k keep testing training s
  · exact ⟨_, he, .inr ⟨e.cause, e.index, rfl⟩⟩
  · exact ⟨_, he, .inl (encodeFinish_completed testing training r s)⟩

theorem exec_decode_answers (k : Nat) (s : State) :
    ∃ t, exec (.decode k) s = .next t ∧ (Completed s t ∨ ∃ c idx, t = faultEntry .decode ⟨c, idx⟩ s) := by
  obtain ⟨e, -, he⟩ | ⟨r, -, he⟩ := execDecode_cases k s
  · exact ⟨_, he, .inr ⟨e.cause, e.index, rfl⟩⟩
  · exact ⟨_, he, .inl ⟨rfl, rfl⟩⟩

theorem exec_pack_answers (k : Nat) (s : State) :
    ∃ t, exec (.pack k) s = .next t ∧ (Completed s t ∨ ∃ c idx, t = faultEntry .pack ⟨c, idx⟩ s) := by
  obtain ⟨e, -, he⟩ | ⟨bytes, -, he⟩ := execPack_cases k s
  · exact ⟨_, he, .inr ⟨e.cause, e.index, rfl⟩⟩
  · exact ⟨_, he, .inl ⟨rfl, rfl⟩⟩

theorem exec_unpack_answers (k : Nat) (s : State) :
    ∃ t, exec (.unpack k) s = .next t ∧ (Completed s t ∨ ∃ c idx, t = faultEntry .unpack ⟨c, idx⟩ s) := by
  obtain ⟨e, -, he⟩ | ⟨codes, -, he⟩ := execUnpack_cases k s
  · exact ⟨_, he, .inr ⟨e.cause, e.index, rfl⟩⟩
  · exact ⟨_, he, .inl ⟨rfl, rfl⟩⟩

theorem faultEntry_encSize (x : Raiser) (e : Raise) (s : State) :
    (faultEntry x e s).encSize = if x = .encode true ∨ x = .encode false then 0 else s.encSize := by
  rcases x with _ | (_ | _) | _ | _ | _ <;> rfl

/-- Settles O10: the fields of the fault entry, and the two ends of each data command. -/
theorem faultEntryRecordsTheFault : Obligations.FaultEntryRecordsTheFault := by
  refine ⟨?_, exec_encode_answers, exec_decode_answers, exec_pack_answers, exec_unpack_answers⟩
  rintro x c idx s _ rfl
  refine ⟨faultEntry_status .., faultEntry_errIndex .., faultEntry_rawLen .., faultEntry_codeLen ..,
    faultEntry_streamLen .., faultEntry_encSize .., faultEntry_decSize .., ?_, ?_, ?_⟩
  · split
    · next h => subst h; rfl
    · next h => exact faultEntry_raw s x _ h
  · split
    · next h => rcases h with rfl | rfl <;> rfl
    · next h =>
      obtain ⟨henc, hunp⟩ := not_or.mp h
      exact faultEntry_code s x _ henc hunp
  · split
    · next h => subst h; rfl
    · next h => exact faultEntry_stream s x _ h

/-! ## The output fits its buffer and its length register -/

/-- The codes that an ENCODE with an output has written are counted by `N_OUT` and fit in `CODE` (R125). -/
structure EncRunWritten (a : EncArgs) (r : EncRun) : Prop where
  counted : r.out.length = r.nOut
  room : r.nOut ≤ a.codeCap

theorem emit_encRunWritten {a : EncArgs} {c : Nat} {r r' : EncRun} (ht : a.training = false)
    (h : EncRunWritten a r) (he : emit a c r = .ok r') : EncRunWritten a r' := by
  obtain ⟨htraining, -⟩ | ⟨-, hroom, rfl⟩ := emit_cases he
  · simp [ht] at htraining
  · exact ⟨congrArg (· + 1) h.counted, hroom⟩

theorem encStep_encRunWritten {a : EncArgs} {b : Symbol} {r r' : EncRun} (ht : a.training = false)
    (h : EncRunWritten a r) (hs : encStep a b r = .ok r') : EncRunWritten a r' := by
  obtain ⟨-, rfl⟩ | ⟨p, c, -, -, rfl⟩ | ⟨p, r₁, -, -, hemit, rfl⟩ := encStep_cases hs
  · exact ⟨h.counted, h.room⟩
  · exact ⟨h.counted, h.room⟩
  · obtain ⟨hcounted, hroom⟩ := emit_encRunWritten ht h hemit
    unfold encInsert
    split <;> exact ⟨hcounted, hroom⟩

theorem encFlush_encRunWritten {a : EncArgs} {r r' : EncRun} (ht : a.training = false) (h : EncRunWritten a r)
    (hf : encFlush a r = .ok r') : EncRunWritten a r' := by
  unfold encFlush at hf
  split at hf
  · cases hf
    exact h
  · exact emit_encRunWritten ht h hf

theorem encodeRun_encRunWritten {k : Nat} {keep testing : Bool} {s : State} {r : EncRun}
    (h : encodeRun k keep testing false s = .ok r) : EncRunWritten (encArgs k testing false s) r := by
  obtain ⟨size, r₁, -, hscan, hflush⟩ := encodeRun_ok h
  have hinit : EncRunWritten (encArgs k testing false s) (encInit size s.encTable) := ⟨rfl, Nat.zero_le _⟩
  exact encFlush_encRunWritten rfl (encScan_induct (fun _ _ _ => encStep_encRunWritten rfl) _ hinit hscan) hflush

/-- The symbols that a DECODE has written are counted by `WP` and fit in `RAW` (R158). -/
structure DecRunWritten (rawCap : Nat) (r : DecRun) : Prop where
  counted : r.out.length = r.wp
  room : r.wp ≤ rawCap

theorem appendSyms_decRunWritten {rawCap : Nat} {xs : List Symbol} {r r' : DecRun} (h : DecRunWritten rawCap r)
    (ha : appendSyms rawCap xs r = .ok r') : DecRunWritten rawCap r' := by
  obtain ⟨hfits | rfl, rfl⟩ := appendSyms_ok ha
  · exact ⟨by simp [h.counted, Nat.add_comm], hfits⟩
  · exact h

theorem decStep_decRunWritten {k rawCap c : Nat} {r r' : DecRun} (h : DecRunWritten rawCap r)
    (hs : decStep k rawCap c r = .ok r') : DecRunWritten rawCap r' := by
  obtain ⟨entry, r₁, -, happend, rfl⟩ := decStep_cases hs
  obtain ⟨hcounted, hroom⟩ := appendSyms_decRunWritten h happend
  unfold decInsert
  split <;> exact ⟨hcounted, hroom⟩

theorem decCodes_decRunWritten {k rawCap : Nat} {t : Table} {codes : List Nat} {r : DecRun}
    (h : decCodes k rawCap t codes = .ok r) : DecRunWritten rawCap r := by
  have hinit (c0 : Nat) : DecRunWritten rawCap (decInit c0 t) := ⟨rfl, Nat.zero_le _⟩
  unfold decCodes at h
  split at h
  · cases h
    exact hinit 0
  · split at h
    · cases h
    · split at h
      · cases h
      · next r₁ happend =>
        obtain ⟨hcounted, hroom⟩ := appendSyms_decRunWritten (hinit _) happend
        have hstart : DecRunWritten rawCap { r₁ with pos := 1 } := ⟨hcounted, hroom⟩
        exact decScan_induct (fun _ _ _ => decStep_decRunWritten) _ hstart h

/-- A count that fits a capacity fits its length register (R7, R26 to R28). -/
theorem toNat_ofNat_of_le_cap {n : Nat} {cap : Word} (h : n ≤ cap.toNat) : (BitVec.ofNat 32 n).toNat = n :=
  Nat.mod_eq_of_lt (Nat.lt_of_le_of_lt h cap.isLt)

/-- Beyond an output that fits its buffer no element is known (R65 (b)). -/
theorem cellGet_cellsFrom_of_length_le {α : Type} {out : List α} {cap : Word} {i n : Nat} (hn : out.length = n)
    (hroom : n ≤ cap.toNat) (hi : (BitVec.ofNat 32 n).toNat ≤ i) : cellGet (cellsFrom 0 out) i = none := by
  rw [toNat_ofNat_of_le_cap hroom, ← hn] at hi
  rw [cellGet_cellsFrom_zero, List.getElem?_eq_none_iff.mpr hi]

theorem exec_encode_unknown_beyond {k : Nat} {keep testing : Bool} {s t : State}
    (h : exec (.encode k keep testing false) s = .next t) {i : Nat} (hi : t.codeLen.toNat ≤ i) :
    cellGet t.code.cells i = none := by
  obtain ⟨e, -, he⟩ | ⟨r, hr, he⟩ := execEncode_cases k keep testing false s <;> cases h.symm.trans he
  · rfl
  · obtain ⟨hcounted, hroom⟩ := encodeRun_encRunWritten hr
    exact cellGet_cellsFrom_of_length_le (r.out.length_reverse.trans hcounted) hroom hi

theorem exec_decode_unknown_beyond {k : Nat} {s t : State} (h : exec (.decode k) s = .next t) {i : Nat}
    (hi : t.rawLen.toNat ≤ i) : cellGet t.raw.cells i = none := by
  obtain ⟨e, -, he⟩ | ⟨r, hr, he⟩ := execDecode_cases k s <;> cases h.symm.trans he
  · rfl
  · obtain ⟨-, -, hcodes⟩ := decodeRun_ok hr
    obtain ⟨hcounted, hroom⟩ := decCodes_decRunWritten hcodes
    exact cellGet_cellsFrom_of_length_le (r.out.length_reverse.trans hcounted) hroom hi

theorem exec_pack_unknown_beyond {k : Nat} {s t : State} (h : exec (.pack k) s = .next t) {i : Nat}
    (hi : t.streamLen.toNat ≤ i) : cellGet t.stream.cells i = none := by
  obtain ⟨e, -, he⟩ | ⟨bytes, hr, he⟩ := execPack_cases k s <;> cases h.symm.trans he
  · rfl
  · exact cellGet_cellsFrom_of_length_le rfl (packRun_length_le hr) hi

theorem exec_unpack_unknown_beyond {k : Nat} {s t : State} (h : exec (.unpack k) s = .next t) {i : Nat}
    (hi : t.codeLen.toNat ≤ i) : cellGet t.code.cells i = none := by
  obtain ⟨e, -, he⟩ | ⟨codes, hr, he⟩ := execUnpack_cases k s <;> cases h.symm.trans he
  · rfl
  · exact cellGet_cellsFrom_of_length_le rfl (unpackRun_length_le hr) hi

/-- Settles O47: what R23 does not let a command write is kept (`exec_kept`), and an output reaches up to its
length. -/
theorem commandsWriteOnlyTheirOutput : Obligations.CommandsWriteOnlyTheirOutput := by
  refine ⟨fun k keep testing training s t h => ?_, fun k s t h => ?_, fun k s t h => ?_, fun k s t h => ?_,
    fun s t h => ?_⟩
  · have hkept (p : Part) (hp : ¬commandWrites (.encode k keep testing training) p) : p.Kept s t := exec_kept h hp
    refine ⟨hkept .rawLen id, hkept .streamLen id, hkept .decSize id, hkept .decTable id,
      readRaw_congr (hkept .raw id), readStream_congr (hkept .stream id), ?_, ?_⟩
    · rintro rfl
      exact ⟨hkept .codeLen Bool.noConfusion, readCode_congr (hkept .code Bool.noConfusion)⟩
    · rintro rfl i
      exact exec_encode_unknown_beyond h
  · have hkept (p : Part) (hp : ¬commandWrites (.decode k) p) : p.Kept s t := exec_kept h hp
    exact ⟨hkept .codeLen id, hkept .streamLen id, hkept .encSize id, hkept .encTable id,
      readCode_congr (hkept .code id), readStream_congr (hkept .stream id), fun _ => exec_decode_unknown_beyond h⟩
  · have hkept (p : Part) (hp : ¬commandWrites (.pack k) p) : p.Kept s t := exec_kept h hp
    exact ⟨hkept .rawLen id, hkept .codeLen id, hkept .encSize id, hkept .encTable id, hkept .decSize id,
      hkept .decTable id, readRaw_congr (hkept .raw id), readCode_congr (hkept .code id),
      fun _ => exec_pack_unknown_beyond h⟩
  · have hkept (p : Part) (hp : ¬commandWrites (.unpack k) p) : p.Kept s t := exec_kept h hp
    exact ⟨hkept .rawLen id, hkept .streamLen id, hkept .encSize id, hkept .encTable id, hkept .decSize id,
      hkept .decTable id, readRaw_congr (hkept .raw id), readStream_congr (hkept .stream id),
      fun _ => exec_unpack_unknown_beyond h⟩
  · have hkept (p : Part) (hp : ¬commandWrites .reset p) : p.Kept s t := exec_kept h hp
    exact ⟨hkept .encTable id, hkept .decTable id, readRaw_congr (hkept .raw id), readCode_congr (hkept .code id),
      readStream_congr (hkept .stream id)⟩

end Sys2Proof.Machine

/-! # The compressed stream bit by bit (O37, O45)

R73 numbers the bits of the stream's body and the bits of the codes by one position. `bodyBit` and `codeBit` read a
state at such a position: PACK makes the first what the second is (`packFinish_packed`), UNPACK the second what the
first is (`unpackFinish_unpacked`). Bitstrings are read with `getD`, so that positions beyond the end, which are the
pad bits, read 0 like any other position. -/

namespace Sys2Proof.Machine

/-! ## Bitstrings by position -/

theorem testBit_val_eq_reverse (bits : List Bool) (i : Nat) : (val bits).testBit i = bits.reverse.getD i false := by
  induction bits using List.reverseRecOn generalizing i with
  | nil => simp [val]
  | append_singleton bits b ih =>
    rw [val_append_singleton, List.reverse_append, List.reverse_singleton, List.singleton_append]
    cases i with
    | zero => cases b <;> simp [bitNat, Nat.testBit_zero]
    | succ i =>
      have hhalf : (2 * val bits + bitNat b) / 2 = val bits := by
        have := bitNat_le_one b
        omega
      rw [Nat.testBit_succ, hhalf, ih, List.getD_cons_succ]

/-- The leftmost bit is the most significant (R11). -/
theorem testBit_val {bits : List Bool} {i : Nat} (h : i < bits.length) :
    (val bits).testBit i = bits.getD (bits.length - 1 - i) false := by
  rw [testBit_val_eq_reverse, List.getD_reverse i h]

theorem val_lt (bits : List Bool) : val bits < 2 ^ bits.length :=
  Nat.lt_pow_two_of_testBit _ fun i hi => by simp [testBit_val_eq_reverse, hi]

/-- Position `t` of a sequence of N-bit bitstrings lies in element `t div N` (R73). -/
theorem getD_flatMap_binN {α : Type} {n : Nat} (hn : 0 < n) (f : α → Nat) {d : α} (hd : f d = 0) (xs : List α)
    (t : Nat) :
    (xs.flatMap fun x => binN n (f x)).getD t false = (f (xs.getD (t / n) d)).testBit (n - 1 - t % n) := by
  induction xs generalizing t with
  | nil => simp [hd]
  | cons x xs ih =>
    rw [List.flatMap_cons]
    by_cases ht : t < n
    · rw [List.getD_append _ _ _ _ (by simpa using ht), List.getD_eq_getElem?_getD, getElem?_binN ht,
        Nat.div_eq_of_lt ht, Nat.mod_eq_of_lt ht]
      rfl
    · have hle : n ≤ t := Nat.le_of_not_lt ht
      rw [List.getD_append_right _ _ _ _ (by simpa using hle), length_binN, ih, Nat.div_eq_sub_div hn hle,
        List.getD_cons_succ, Nat.mod_eq_sub_mod hle]

theorem length_flatMap_binN {α : Type} (n : Nat) (f : α → Nat) (xs : List α) :
    (xs.flatMap fun x => binN n (f x)).length = n * xs.length := by
  simp [List.length_flatMap, Nat.mul_comm]

/-- Bit `i` of a group, its rightmost bit being bit 0 (R184, R204). -/
theorem testBit_val_group {size j i : Nat} {bits : List Bool} (hi : i < size)
    (hfit : size * j + size ≤ bits.length) :
    (val ((bits.drop (size * j)).take size)).testBit i = bits.getD (size * j + (size - 1 - i)) false := by
  have hsize : ((bits.drop (size * j)).take size).length = size := by
    rw [List.length_take, List.length_drop]
    omega
  rw [testBit_val (by rw [hsize]; exact hi), hsize, List.getD_eq_getElem?_getD, List.getElem?_take_of_lt (by omega),
    List.getElem?_drop, List.getD_eq_getElem?_getD]

/-! ## The two formats -/

theorem length_packBits (k : Nat) (codes : List Nat) : (packBits k codes).length = 8 * bodyLen k codes.length := by
  have hcodes : (codes.flatMap (binN k)).length = k * codes.length := length_flatMap_binN k id codes
  rw [packBits, List.length_append, List.length_replicate, hcodes, eight_mul_bodyLen]

/-- The pad bits read as the bits of codes beyond the last, which are 0 (R73, R183). -/
theorem getD_packBits {k : Nat} (hk : 0 < k) (codes : List Nat) (t : Nat) :
    (packBits k codes).getD t false = (codes.getD (t / k) 0).testBit (k - 1 - t % k) := by
  have hcodes : (codes.flatMap (binN k)).getD t false = _ := getD_flatMap_binN hk id rfl codes t
  rw [packBits, ← id_eq (codes.getD (t / k) 0), ← hcodes]
  by_cases ht : t < (codes.flatMap (binN k)).length
  · exact List.getD_append _ _ _ _ ht
  · have hpast : (codes.flatMap (binN k)).length ≤ t := Nat.le_of_not_lt ht
    rw [List.getD_append_right _ _ _ _ hpast, List.getD_eq_default _ _ hpast]
    exact List.getElem?_getD_replicate_default_eq ..

/-- Every bit of a stream's body, the pad bits included (R73). -/
theorem getLsbD_packStream {k j i : Nat} {codes : List Nat} (hk : 0 < k) (hj : j < bodyLen k codes.length)
    (hi : i < 8) :
    ((packStream k codes).getD (1 + j) 0).getLsbD i =
      (codes.getD ((8 * j + (7 - i)) / k) 0).testBit (k - 1 - (8 * j + (7 - i)) % k) := by
  have hbyte : (packStream k codes).getD (1 + j) 0 =
      BitVec.ofNat 8 (val (((packBits k codes).drop (8 * j)).take 8)) := by
    rw [packStream, Nat.add_comm, List.getD_cons_succ, List.getD_eq_getElem?_getD, List.getElem?_map,
      getElem?_groups _ _ _ hj]
    rfl
  rw [hbyte, BitVec.getLsbD_ofNat, decide_eq_true hi, Bool.true_and,
    testBit_val_group hi (by rw [length_packBits]; omega), getD_packBits hk]

/-- The code that UNPACK forms from group `q` (R204). -/
theorem getD_unpackCodes {k payload q : Nat} (body : List Symbol) (hq : q < payload / k) :
    (unpackCodes k payload body).getD q 0 =
      BitVec.ofNat 16 (val ((((bodyBits body).take payload).drop (k * q)).take k)) := by
  rw [unpackCodes, List.getD_eq_getElem?_getD, List.getElem?_map, getElem?_groups _ _ _ hq]
  rfl

theorem toNat_unpackCodes_lt {k payload q : Nat} (body : List Symbol) (hq : q < payload / k) :
    ((unpackCodes k payload body).getD q 0).toNat < 2 ^ k := by
  rw [getD_unpackCodes body hq, BitVec.toNat_ofNat]
  refine (Nat.mod_le _ _).trans_lt ((val_lt _).trans_le (Nat.pow_le_pow_right (by decide) ?_))
  exact List.length_take_le ..

/-- Every bit of an unpacked code (R204). -/
theorem getLsbD_unpackCodes {k payload q m : Nat} {body : List Symbol} (hk : k ≤ 16) (hq : q < payload / k)
    (hm : m < k) (hpayload : payload ≤ 8 * body.length) :
    ((unpackCodes k payload body).getD q 0).getLsbD m =
      (body.getD ((k * q + (k - 1 - m)) / 8) 0).getLsbD (7 - (k * q + (k - 1 - m)) % 8) := by
  have hfit : k * q + k ≤ payload := (Nat.mul_le_mul_left k hq).trans (Nat.mul_div_le payload k)
  have hlen : ((bodyBits body).take payload).length = payload := by
    rw [List.length_take, length_bodyBits]
    omega
  rw [getD_unpackCodes body hq, BitVec.getLsbD_ofNat, decide_eq_true (hm.trans_le hk), Bool.true_and,
    testBit_val_group hm (hfit.trans_eq hlen.symm), List.getD_eq_getElem?_getD, List.getElem?_take_of_lt (by omega),
    ← List.getD_eq_getElem?_getD]
  exact getD_flatMap_binN (by decide) BitVec.toNat rfl body _

/-! ## The inputs of the two commands -/

@[simp] theorem length_codeInput (s : State) : (codeInput s).length = s.codeLen.toNat := by simp [codeInput]

@[simp] theorem length_streamInput (s : State) : (streamInput s).length = s.streamLen.toNat := by simp [streamInput]

theorem getD_codeInput {s : State} {q : Nat} (h : q < s.codeLen.toNat) :
    (codeInput s).getD q 0 = (readCode s q).toNat := by
  simp [codeInput, h]

theorem getD_streamInput {s : State} {j : Nat} (h : j < s.streamLen.toNat) :
    (streamInput s).getD j 0 = readStream s j := by
  simp [streamInput, h]

theorem codeOutOfRange_eq_none {k : Nat} {s : State}
    (h : ∀ i, i < s.codeLen.toNat → (readCode s i).toNat < 2 ^ k) : codeOutOfRange k (codeInput s) = none := by
  rw [codeOutOfRange, List.findIdx?_eq_none_iff]
  intro c hc
  obtain ⟨i, hi, rfl⟩ := List.mem_map.mp hc
  exact decide_eq_false (Nat.not_le.mpr (h i (List.mem_range.mp hi)))

theorem legalWidth_iff {k : Nat} : legalWidth k = true ↔ 9 ≤ k ∧ k ≤ 16 := by simp [legalWidth]

/-- `nbody` in the terms of the statements (R184). -/
theorem bodyLen_eq (k n : Nat) : bodyLen k n = (k * n + 7) / 8 := by
  unfold bodyLen padSize
  omega

/-! ## A state by bit positions -/

/-- Bit `p` of the body of the stream, most-significant bit first (R73, R204). -/
def bodyBit (s : State) (p : Nat) : Bool := (readStream s (1 + p / 8)).getLsbD (7 - p % 8)

/-- Bit `p` of the codes written as K bits each (R73). -/
def codeBit (k : Nat) (s : State) (p : Nat) : Bool := (readCode s (p / k)).getLsbD (k - 1 - p % k)

theorem bodyBit_of_byte (s : State) (j : Nat) {i : Nat} (hi : i < 8) :
    bodyBit s (8 * j + (7 - i)) = (readStream s (1 + j)).getLsbD i := by
  have hdiv : (8 * j + (7 - i)) / 8 = j := by omega
  have hmod : 7 - (8 * j + (7 - i)) % 8 = i := by omega
  rw [bodyBit, hdiv, hmod]

theorem codeBit_of_code {k : Nat} (s : State) (q : Nat) {m : Nat} (hm : m < k) :
    codeBit k s (q * k + (k - 1 - m)) = (readCode s q).getLsbD m := by
  have hlt : k - 1 - m < k := by omega
  have hdiv : (q * k + (k - 1 - m)) / k = q := by
    rw [Nat.add_comm, Nat.add_mul_div_right _ _ (by omega), Nat.div_eq_of_lt hlt, Nat.zero_add]
  have hmod : k - 1 - (q * k + (k - 1 - m)) % k = m := by
    rw [Nat.add_comm, Nat.add_mul_mod_self_right, Nat.mod_eq_of_lt hlt]
    omega
  rw [codeBit, hdiv, hmod]

/-- The bits of code `q` lie among the first `K*n` positions. -/
theorem position_lt {k n q r : Nat} (hq : q < n) (hr : r < k) : q * k + r < k * n := by
  have := Nat.mul_le_mul_left k hq
  rw [Nat.mul_succ] at this
  rw [Nat.mul_comm q k]
  omega

/-! ## PACK -/

/-- The stream in `t` is the one of R72 for the codes in `s`. -/
structure Packed (k : Nat) (s t : State) : Prop where
  streamLen : t.streamLen.toNat = 1 + (k * s.codeLen.toNat + 7) / 8
  header : (readStream t 0).toNat = (8 - k * s.codeLen.toNat % 8) % 8
  body : ∀ p, p < 8 * ((k * s.codeLen.toNat + 7) / 8) →
    bodyBit t p = if p < k * s.codeLen.toNat then codeBit k s p else false

/-- PACK without a fault: its checks pass (R181, R186). -/
theorem exec_pack_of_fits {k : Nat} {s : State} (hlow : 9 ≤ k) (hhigh : k ≤ 16)
    (hcode : s.codeLen.toNat ≤ s.caps.code.toNat)
    (hstream : 1 + (k * s.codeLen.toNat + 7) / 8 ≤ s.caps.stream.toNat)
    (hcodes : ∀ i, i < s.codeLen.toNat → (readCode s i).toNat < 2 ^ k) :
    exec (.pack k) s = .next (packFinish (packStream k (codeInput s)) s) := by
  have hwidth : legalWidth k = true := legalWidth_iff.mpr ⟨hlow, hhigh⟩
  have hrun : packRun k s = .ok (packStream k (codeInput s)) := by
    rw [← bodyLen_eq] at hstream
    simp only [packRun, hwidth, codeOutOfRange_eq_none hcodes, Nat.not_lt.mpr hcode, Nat.not_lt.mpr hstream,
      Bool.not_true, Bool.false_eq_true, if_false]
  simp only [exec, execPack, hrun]

/-- What PACK leaves in `STREAM` (R185). -/
theorem readStream_packFinish {bytes : List Symbol} {j : Nat} (s : State) (hj : j < bytes.length) :
    readStream (packFinish bytes s) j = bytes.getD j 0 := by
  rw [List.getD_eq_getElem _ _ hj]
  exact readStream_produceStream s hj

theorem packFinish_packed {k : Nat} {s : State} (hk : 0 < k)
    (hstream : 1 + (k * s.codeLen.toNat + 7) / 8 ≤ s.caps.stream.toNat) :
    Packed k s (packFinish (packStream k (codeInput s)) s) := by
  have hlen : (packStream k (codeInput s)).length = 1 + (k * s.codeLen.toNat + 7) / 8 := by
    rw [length_packStream, length_codeInput, bodyLen_eq]
  refine ⟨?_, ?_, fun p hp => ?_⟩
  · exact (toNat_ofNat_of_le_cap (hlen ▸ hstream)).trans hlen
  · have hpad := padSize_lt k s.codeLen.toNat
    rw [readStream_packFinish s (by omega), packStream, List.getD_cons_zero, length_codeInput, BitVec.toNat_ofNat,
      Nat.mod_eq_of_lt (by omega), padSize]
  · have hj : p / 8 < bodyLen k (codeInput s).length := by
      rw [length_codeInput, bodyLen_eq]
      omega
    have hpos : 8 * (p / 8) + (7 - (7 - p % 8)) = p := by omega
    rw [bodyBit, readStream_packFinish s (by omega), getLsbD_packStream hk hj (by omega), hpos]
    split
    · next hin =>
      have hq : p / k < s.codeLen.toNat := Nat.div_lt_of_lt_mul hin
      rw [getD_codeInput hq]
      rfl
    · next hpast =>
      have hq : (codeInput s).length ≤ p / k := by
        rw [length_codeInput, Nat.le_div_iff_mul_le hk, Nat.mul_comm]
        exact Nat.le_of_not_lt hpast
      rw [List.getD_eq_default _ _ hq, Nat.zero_testBit]

/-- Settles O37: the body by bytes, and the body by codes. -/
theorem packWritesTheStream : Obligations.PackWritesTheStream := by
  intro k s hlow hhigh hcode hstream hcodes
  obtain ⟨hlen, hheader, hbody⟩ := packFinish_packed (by omega) hstream
  refine ⟨_, exec_pack_of_fits hlow hhigh hcode hstream hcodes, ⟨rfl, rfl⟩, hlen, hheader, fun j i hj hi => ?_,
    fun q m hq hm => ?_⟩
  · rw [← bodyBit_of_byte _ j hi, hbody _ (by omega)]
    rfl
  · have hpos : q * k + (k - 1 - m) < k * s.codeLen.toNat := position_lt hq (by omega)
    have hbit := hbody _ (show q * k + (k - 1 - m) < _ by omega)
    rw [if_pos hpos, codeBit_of_code s q hm] at hbit
    exact hbit.symm

/-! ## UNPACK -/

/-- An UNPACK that completes: the framing of its stream and the codes (R201, R203, R204). -/
structure Unpacked (k : Nat) (s t : State) : Prop where
  low : 9 ≤ k
  high : k ≤ 16
  caps : t.caps = s.caps
  streamRoom : s.streamLen.toNat ≤ s.caps.stream.toNat
  codeRoom : t.codeLen.toNat ≤ s.caps.code.toNat
  header : (readStream s 0).toNat ≤ 7
  streamLen : 8 * (s.streamLen.toNat - 1) = k * t.codeLen.toNat + (readStream s 0).toNat
  nonempty : 0 < s.streamLen.toNat
  codes : ∀ q, q < t.codeLen.toNat → (readCode t q).toNat < 2 ^ k
  bits : ∀ p, p < k * t.codeLen.toNat → codeBit k t p = bodyBit s p

/-- What UNPACK leaves in `CODE` (R205). -/
theorem readCode_unpackFinish {codes : List Half} {q : Nat} (s : State) (hq : q < codes.length) :
    readCode (unpackFinish codes s) q = codes.getD q 0 := by
  rw [List.getD_eq_getElem _ _ hq]
  exact readCode_produceCode s hq

theorem unpackFinish_unpacked {k : Nat} {s : State} {codes : List Half} (h : unpackRun k s = .ok codes) :
    Unpacked k s (unpackFinish codes s) := by
  have hroom := unpackRun_length_le h
  obtain ⟨hwidth, hstream, hrun⟩ := unpackRun_ok h
  obtain ⟨hlow, hhigh⟩ := legalWidth_iff.mp hwidth
  obtain ⟨header, body, payload, hinput, hframe, -, rfl⟩ := unpackStream_ok hrun
  obtain ⟨hheader, hfit, hwhole, hpayload⟩ := framePayload_ok hframe
  have hlen : s.streamLen.toNat = body.length + 1 := by simpa using congrArg List.length hinput
  have hzero : readStream s 0 = header := by rw [← getD_streamInput (by omega), hinput, List.getD_cons_zero]
  have hcount : (unpackFinish (unpackCodes k payload body) s).codeLen.toNat = payload / k :=
    (toNat_ofNat_of_le_cap hroom).trans (length_unpackCodes ..)
  have htotal : k * (payload / k) = payload := Nat.mul_div_cancel' (Nat.dvd_of_mod_eq_zero (hpayload ▸ hwhole))
  have hcode (q : Nat) (hq : q < payload / k) :
      readCode (unpackFinish (unpackCodes k payload body) s) q = (unpackCodes k payload body).getD q 0 :=
    readCode_unpackFinish s (by rw [length_unpackCodes]; exact hq)
  refine ⟨hlow, hhigh, rfl, hstream, ?_, ?_, ?_, by omega, fun q hq => ?_, fun p hp => ?_⟩
  · exact (toNat_ofNat_of_le_cap hroom).trans_le hroom
  · exact hzero ▸ hheader
  · rw [hcount, htotal, hzero]
    omega
  · rw [hcount] at hq
    rw [hcode q hq]
    exact toNat_unpackCodes_lt body hq
  · rw [hcount, htotal] at hp
    have hq : p / k < payload / k := Nat.div_lt_of_lt_mul (htotal.symm ▸ hp)
    have hmod : p % k < k := Nat.mod_lt p (by omega)
    have hpos : k * (p / k) + (k - 1 - (k - 1 - p % k)) = p := by
      have := Nat.div_add_mod p k
      omega
    rw [codeBit, hcode _ hq, getLsbD_unpackCodes hhigh hq (by omega) (by omega), hpos, bodyBit,
      ← getD_streamInput (j := 1 + p / 8) (by omega), hinput, Nat.add_comm 1, List.getD_cons_succ]

theorem exec_unpack_unpacked {k : Nat} {s t : State} (h : exec (.unpack k) s = .next t)
    (hfault : t.status.fault = false) : Unpacked k s t := by
  obtain ⟨e, -, he⟩ | ⟨codes, hr, he⟩ := execUnpack_cases k s <;> cases h.symm.trans he
  · cases hfault
  · exact unpackFinish_unpacked hr

/-- A byte of the body that PACK makes of unpacked codes: the byte UNPACK read, with its pad bits 0 (R72, R206). -/
theorem Unpacked.getLsbD_repacked {k : Nat} {s t u : State} (ht : Unpacked k s t) (hu : Packed k t u) {j i : Nat}
    (hj : 1 + j < s.streamLen.toNat) (hi : i < 8) :
    (readStream u (1 + j)).getLsbD i =
      if 8 * j + (7 - i) < k * t.codeLen.toNat then (readStream s (1 + j)).getLsbD i else false := by
  have hheader := ht.header
  have hlen := ht.streamLen
  rw [← bodyBit_of_byte u j hi, ← bodyBit_of_byte s j hi, hu.body _ (by omega)]
  split
  · next hin => exact ht.bits _ hin
  · rfl

/-- The header is restored too: it is the only pad size that makes the stream a whole number of bytes (R72, R203). -/
theorem Unpacked.header_repacked {k : Nat} {s t u : State} (ht : Unpacked k s t) (hu : Packed k t u) :
    readStream u 0 = readStream s 0 := by
  have hheader := ht.header
  have hlen := ht.streamLen
  refine BitVec.eq_of_toNat_eq ?_
  rw [hu.header]
  omega

/-- Settles O45: the header, the bytes before the last, and the last, which is the header if there is no body. -/
theorem packRestoresTheUnpackedStream : Obligations.PackRestoresTheUnpackedStream := by
  intro k s t h hfault
  have ht := exec_unpack_unpacked h hfault
  have hlow := ht.low
  have hheader := ht.header
  have hlen := ht.streamLen
  have hpos := ht.nonempty
  have hroom : 1 + (k * t.codeLen.toNat + 7) / 8 ≤ t.caps.stream.toNat := by
    have hstream := ht.streamRoom
    rw [ht.caps]
    omega
  have hu : Packed k t (packFinish (packStream k (codeInput t)) t) := packFinish_packed (by omega) hroom
  have hfirst := ht.header_repacked hu
  refine ⟨_, exec_pack_of_fits hlow ht.high (ht.caps ▸ ht.codeRoom) hroom ht.codes, ⟨rfl, rfl⟩,
    BitVec.eq_of_toNat_eq (by rw [hu.streamLen]; omega), fun j hj => ?_, fun i hi => ?_⟩
  · cases j with
    | zero => exact hfirst
    | succ j =>
      refine BitVec.eq_of_getLsbD_eq fun i hi => ?_
      rw [Nat.add_comm j 1, ht.getLsbD_repacked hu (by omega) hi, if_pos (by omega)]
  · by_cases hbody : s.streamLen.toNat = 1
    · rw [hbody, hfirst, if_neg (by omega)]
    · obtain ⟨j, hj⟩ : ∃ j, s.streamLen.toNat - 1 = 1 + j := ⟨s.streamLen.toNat - 2, by omega⟩
      rw [hj, ht.getLsbD_repacked hu (by omega) hi]
      by_cases hpad : i < (readStream s 0).toNat
      · rw [if_pos hpad, if_neg (by omega)]
      · rw [if_neg hpad, if_pos (by omega)]

end Sys2Proof.Machine

/-! # The command words (O1 to O4)

A command word is read as a number: `toNat_encode_encode` and `toNat_or_kBits` say which number the word of a command
is, and the fields of R91 are digits of it (`wordFields_of_toNat`, `toNat_eq_fields`). Decoding and encoding are then
inverse because a number is determined by its digits. -/

namespace Sys2Proof.Machine

/-! ## The fields of a word as digits of its number -/

theorem opField_eq (w : CmdWord) : opField w = w.toNat % 16 := by
  simp [opField, BitVec.extractLsb'_toNat]

theorem kField_eq (w : CmdWord) : kField w = w.toNat / 256 % 32 := by
  simp [kField, BitVec.extractLsb'_toNat, Nat.shiftRight_eq_div_pow]

theorem flagField_eq (w : CmdWord) : flagField w = w.toNat / 16 % 8 := by
  simp [flagField, BitVec.extractLsb'_toNat, Nat.shiftRight_eq_div_pow]

theorem highField_eq (w : CmdWord) : highField w = w.toNat / 8192 := by
  have := w.isLt
  simp [highField, BitVec.extractLsb'_toNat, Nat.shiftRight_eq_div_pow]
  omega

theorem bitNat_getLsbD (w : CmdWord) (n : Nat) : bitNat (w.getLsbD n) = w.toNat / 2 ^ n % 2 := by
  rw [BitVec.getLsbD, Nat.testBit_eq_decide_div_mod_eq]
  rcases Nat.mod_two_eq_zero_or_one (w.toNat / 2 ^ n) with h | h <;> simp [h, bitNat]

theorem bitNat_inj {b c : Bool} : bitNat b = bitNat c ↔ b = c := by
  cases b <;> cases c <;> decide

theorem getLsbD_seven_iff (w : CmdWord) : w.getLsbD 7 = true ↔ w.toNat / 128 % 2 = 1 := by
  rw [← bitNat_inj, bitNat_getLsbD]
  rfl

/-! ## The number of a command's word -/

/-- K stands above a low byte (R91). -/
theorem toNat_or_kBits {w : CmdWord} {k : Nat} (hw : w.toNat < 256) (hk : k < 32) :
    (w ||| kBits k).toNat = w.toNat + 256 * k := by
  have hbits : (kBits k).toNat = 2 ^ 8 * k := by
    simp [kBits, Nat.shiftLeft_eq]
    omega
  rw [BitVec.toNat_or, hbits, Nat.or_comm, ← Nat.two_pow_add_eq_or_of_lt hw, Nat.add_comm]

/-- The flag bits of a command as the number in bits 6:4 (R91). -/
def flagsNat (keep testing training : Bool) : Nat := bitNat training + 2 * bitNat testing + 4 * bitNat keep

theorem flagsNat_lt (keep testing training : Bool) : flagsNat keep testing training < 8 := by
  revert keep testing training
  decide

theorem toNat_encode_encode {k : Nat} (hk : k < 32) (keep testing training : Bool) :
    (encode (.encode k keep testing training)).toNat = 1 + 16 * flagsNat keep testing training + 256 * k := by
  have hlow : (0x0001#16 ||| flagBit training 4 ||| flagBit testing 5 ||| flagBit keep 6).toNat =
      1 + 16 * flagsNat keep testing training := by
    revert keep testing training
    decide
  have hflags := flagsNat_lt keep testing training
  have hword : encode (.encode k keep testing training) =
      0x0001#16 ||| flagBit training 4 ||| flagBit testing 5 ||| flagBit keep 6 ||| kBits k := by
    simp only [encode]
    ac_rfl
  rw [hword, toNat_or_kBits (by omega) hk, hlow]

theorem flagsNat_getLsbD (w : CmdWord) : flagsNat (w.getLsbD 6) (w.getLsbD 5) (w.getLsbD 4) = flagField w := by
  simp only [flagsNat, bitNat_getLsbD, flagField_eq]
  omega

theorem flagsNat_inj {keep testing training keep' testing' training' : Bool}
    (h : flagsNat keep testing training = flagsNat keep' testing' training') :
    keep = keep' ∧ testing = testing' ∧ training = training' := by
  revert keep testing training keep' testing' training'
  decide

/-! ## Decoding and encoding -/

/-- The word is one of a data command, with these fields (R91, R92). -/
structure WordFields (w : CmdWord) (op flags k : Nat) : Prop where
  op : opField w = op
  flags : flagField w = flags
  k : kField w = k
  legal : ¬(highField w ≠ 0 ∨ w.getLsbD 7 = true)
  notReset : w ≠ 0x000F#16

theorem wordFields_of_toNat {w : CmdWord} {op flags k : Nat} (h : w.toNat = op + 16 * flags + 256 * k)
    (hop : op < 15) (hflags : flags < 8) (hk : k < 32) : WordFields w op flags k where
  op := by rw [opField_eq]; omega
  flags := by rw [flagField_eq]; omega
  k := by rw [kField_eq]; omega
  legal := by rw [highField_eq, getLsbD_seven_iff]; omega
  notReset := by
    rintro rfl
    change 15 = _ at h
    omega

theorem wordFields_encode {k : Nat} (hk : k < 32) (keep testing training : Bool) :
    WordFields (encode (.encode k keep testing training)) 1 (flagsNat keep testing training) k :=
  wordFields_of_toNat (toNat_encode_encode hk keep testing training) (by decide) (flagsNat_lt ..) hk

/-- The words of the commands without flags (R92). -/
theorem wordFields_or_kBits {op k : Nat} (hop : op < 15) (hk : k < 32) :
    WordFields (BitVec.ofNat 16 op ||| kBits k) op 0 k := by
  have hlow : (BitVec.ofNat 16 op).toNat = op := Nat.mod_eq_of_lt (by omega)
  refine wordFields_of_toNat ?_ hop (by decide) hk
  rw [toNat_or_kBits (by omega) hk, hlow, Nat.mul_zero, Nat.add_zero]

/-- Settles O1: the fields of a command's word give the command back. -/
theorem decodeInvertsEncode : Obligations.DecodeInvertsEncode := by
  intro i hi
  cases i with
  | encode k keep testing training =>
    have h := wordFields_encode (of_decide_eq_true hi) keep testing training
    obtain ⟨hkeep, htesting, htraining⟩ := flagsNat_inj ((flagsNat_getLsbD _).trans h.flags)
    simp only [decode, h.notReset, h.legal, h.op, h.k, hkeep, htesting, htraining, if_true, if_false]
  | decode k =>
    have h : WordFields (encode (.decode k)) 2 0 k := wordFields_or_kBits (by decide) (of_decide_eq_true hi)
    simp only [decode, decodePlain, h.notReset, h.legal, h.op, h.flags, h.k, Nat.reduceEqDiff, if_true, if_false]
  | pack k =>
    have h : WordFields (encode (.pack k)) 3 0 k := wordFields_or_kBits (by decide) (of_decide_eq_true hi)
    simp only [decode, decodePlain, h.notReset, h.legal, h.op, h.flags, h.k, Nat.reduceEqDiff, if_true, if_false]
  | unpack k =>
    have h : WordFields (encode (.unpack k)) 4 0 k := wordFields_or_kBits (by decide) (of_decide_eq_true hi)
    simp only [decode, decodePlain, h.notReset, h.legal, h.op, h.flags, h.k, Nat.reduceEqDiff, if_true, if_false]
  | reset => rfl

theorem kField_lt (w : CmdWord) : kField w < 32 := by
  rw [kField_eq]
  omega

/-- A word whose reserved bits are 0 is its three fields (R91). -/
theorem toNat_eq_fields {w : CmdWord} (h : ¬(highField w ≠ 0 ∨ w.getLsbD 7 = true)) :
    w.toNat = opField w + 16 * flagField w + 256 * kField w := by
  rw [highField_eq, getLsbD_seven_iff] at h
  rw [opField_eq, flagField_eq, kField_eq]
  omega

theorem or_kBits_kField {w : CmdWord} {op : Nat} (h : ¬(highField w ≠ 0 ∨ w.getLsbD 7 = true))
    (hop : opField w = op) (hflags : flagField w = 0) : BitVec.ofNat 16 op ||| kBits (kField w) = w := by
  have hword := toNat_eq_fields h
  have hlow : (BitVec.ofNat 16 op).toNat = op := Nat.mod_eq_of_lt (by rw [← hop, opField_eq]; omega)
  refine BitVec.eq_of_toNat_eq ?_
  rw [toNat_or_kBits (by rw [hlow, ← hop, opField_eq]; omega) (kField_lt w), hlow]
  omega

/-- Settles O2: a word that decodes has no reserved bit set, so it is the fields that were read. -/
theorem encodeInvertsDecode : Obligations.EncodeInvertsDecode := by
  intro w i h
  have hk := kField_lt w
  have hwell : kFits (kField w) = true := decide_eq_true hk
  unfold decode decodePlain at h
  split_ifs at h with hreset hreserved hop hop hflags hop hflags hop hflags <;> cases h
  · exact ⟨rfl, hreset.symm⟩
  · refine ⟨hwell, BitVec.eq_of_toNat_eq ?_⟩
    rw [toNat_encode_encode hk, flagsNat_getLsbD, toNat_eq_fields hreserved, hop]
  · exact ⟨hwell, or_kBits_kField hreserved hop hflags⟩
  · exact ⟨hwell, or_kBits_kField hreserved hop hflags⟩
  · exact ⟨hwell, or_kBits_kField hreserved hop hflags⟩

/-! ## Illegal words -/

/-- The branches of `decode` that give no command are the groups of R96. -/
theorem decode_error_iff (w : CmdWord) : (∃ r, decode w = .error r) ↔ ReservedWord w := by
  have hreset : w = 0x000F#16 ↔ w.toNat = 15 := BitVec.toNat_inj.symm
  unfold decode decodePlain ReservedWord
  simp only [hreset, getLsbD_seven_iff, opField_eq, flagField_eq, highField_eq]
  split_ifs <;> simp only [exists_false, false_iff, Except.error.injEq, exists_eq', true_iff] <;> omega

/-- In an unfaulted block an illegal word raises `IllegalCommand` (R249). -/
theorem issue_of_decode_error {s : State} {w : CmdWord} {r : Illegal} (hfault : s.status.fault = false)
    (hd : decode w = .error r) :
    issue w s = .next (faultEntry .illegal ⟨.illegalCommand, 0⟩ (accept s)) := by
  simp [issue, hfault, hd]

/-- Settles O3: the word issues `IllegalCommand` (R249), whose fault entry touches the flags and `ERR_INDEX` only. -/
theorem reservedWordsRaiseIllegalCommand : Obligations.ReservedWordsRaiseIllegalCommand := by
  refine ⟨decode_error_iff, fun s op rest w hp hw hidle hfault hreserved => ?_⟩
  obtain ⟨r, hr⟩ := (decode_error_iff w).mpr hreserved
  rw [step_issue hp hw hidle, issue_of_decode_error (by exact hfault) hr]
  rfl

/-! ## The words of R99 -/

/-- Settles O4: each word decoded. -/
theorem exampleWordsDecode : Obligations.ExampleWordsDecode := by
  unfold Obligations.ExampleWordsDecode
  decide

end Sys2Proof.Machine

/-! # The source's decoder inverts the source's encoder

The decoder is one insertion behind the encoder: the entry it adds with a code is the previous sequence extended by the
first symbol of the code's own sequence. So its state is told by the dictionary it is about to have, given that first
symbol (`SrcDec.grown`): a code has an entry exactly when it is a place of that dictionary, the special case included
(`srcDecEntry_eq_some_iff`). The encoder's dictionary is the one the decoder is about to have as long as it grows, and
the beginning of it afterwards (`DecoderFollows`), which every symbol keeps. -/

namespace Sys2Proof.Machine

/-! ## The source's encoder -/

/-- What every symbol keeps of the source's encoder, from any dictionary that has the roots: `seq` is a key unless
nothing is pending, and the codes emitted are codes of the dictionary, which is not larger than R6 allows. -/
structure SrcRunSound (k : Nat) (q : SrcRun) : Prop where
  roots : ∀ b, [b] ∈ q.dict
  bounded : q.dict.length ≤ capacity k
  pending : q.seq = [] ∨ q.seq ∈ q.dict
  codes : ∀ c ∈ q.codes, c < capacity k

theorem keyCode_lt {dict : List (List Symbol)} {w : List Symbol} (h : w ∈ dict) : keyCode dict w < dict.length :=
  List.idxOf_lt_length_of_mem h

/-- The code of a key leads back to the key. -/
theorem getElem?_keyCode {dict : List (List Symbol)} {w : List Symbol} (h : w ∈ dict) :
    dict[keyCode dict w]? = some w := by
  rw [List.getElem?_eq_getElem (keyCode_lt h)]
  exact congrArg some (List.getElem_idxOf _)

/-- A miss is only possible with a match pending (R124), because every one-symbol candidate is a key. -/
theorem SrcRunSound.seq_mem_of_miss {k : Nat} {q : SrcRun} {b : Symbol} (h : SrcRunSound k q)
    (hmiss : q.seq ++ [b] ∉ q.dict) : q.seq ∈ q.dict :=
  h.pending.resolve_left fun hnil => hmiss (by rw [hnil]; exact h.roots b)

theorem SrcRunSound.emit {k : Nat} {q : SrcRun} (h : SrcRunSound k q) (hseq : q.seq ∈ q.dict) :
    ∀ c ∈ q.codes ++ [keyCode q.dict q.seq], c < capacity k := by
  intro c hc
  rcases List.mem_append.mp hc with hc | hc
  · exact h.codes c hc
  · rw [List.mem_singleton.mp hc]
    exact (keyCode_lt hseq).trans_le h.bounded

theorem srcStep_sound {k : Nat} {q : SrcRun} (testing : Bool) (b : Symbol) (h : SrcRunSound k q) :
    SrcRunSound k (srcStep k testing b q) := by
  by_cases hmem : q.seq ++ [b] ∈ q.dict
  · rw [srcStep_hit hmem]
    exact ⟨h.roots, h.bounded, .inr hmem, h.codes⟩
  · have hcodes := h.emit (h.seq_mem_of_miss hmem)
    rw [srcStep_miss hmem]
    by_cases hroom : q.dict.length < capacity k ∧ testing = false
    · rw [if_pos hroom]
      exact ⟨fun x => List.mem_append_left _ (h.roots x), by simpa using hroom.1,
        .inr (List.mem_append_left _ (h.roots b)), hcodes⟩
    · rw [if_neg hroom]
      exact ⟨h.roots, h.bounded, .inr (h.roots b), hcodes⟩

theorem srcScan_sound {k : Nat} {q : SrcRun} (testing : Bool) (bs : List Symbol) (h : SrcRunSound k q) :
    SrcRunSound k (srcScan k testing bs q) := by
  induction bs generalizing q with
  | nil => exact h
  | cons b bs ih => exact ih (srcStep_sound testing b h)

theorem srcInit_sound {k : Nat} {dict : List (List Symbol)} (hroots : ∀ b, [b] ∈ dict)
    (hbounded : dict.length ≤ capacity k) : SrcRunSound k (srcInit dict) :=
  ⟨hroots, hbounded, .inl rfl, by simp [srcInit]⟩

/-- Every code of the source's encoder fits its width (R130). -/
theorem srcEncode_codes_lt {k : Nat} {dict : List (List Symbol)} (testing : Bool) (msg : List Symbol)
    (hroots : ∀ b, [b] ∈ dict) (hbounded : dict.length ≤ capacity k) :
    ∀ c ∈ (srcEncode k testing dict msg).codes, c < capacity k := by
  have h := srcScan_sound testing msg (srcInit_sound hroots hbounded)
  simp only [srcEncode]
  split
  · exact h.codes
  · next hne => exact h.emit (h.pending.resolve_left hne)

theorem srcScan_codes_length_le (k : Nat) (testing : Bool) (bs : List Symbol) (q : SrcRun) :
    (srcScan k testing bs q).codes.length ≤ q.codes.length + bs.length := by
  induction bs generalizing q with
  | nil => exact le_rfl
  | cons b bs ih =>
    have hstep := (srcStep_codes_length k testing b q).2
    have hrest := ih (srcStep k testing b q)
    rw [List.length_cons]
    exact hrest.trans (by omega)

/-- The first symbol is a key, so it only becomes the pending match. -/
theorem srcStep_first {k : Nat} {testing : Bool} {dict : List (List Symbol)} {b : Symbol} (h : [b] ∈ dict) :
    srcStep k testing b (srcInit dict) = { srcInit dict with seq := [b] } :=
  srcStep_hit (q := srcInit dict) h

/-- At most one code per symbol (R134): the first symbol emits none, the flush at most one. -/
theorem srcEncode_codes_length_le {k : Nat} {dict : List (List Symbol)} (testing : Bool) (msg : List Symbol)
    (hroots : ∀ b, [b] ∈ dict) : (srcEncode k testing dict msg).codes.length ≤ msg.length := by
  cases msg with
  | nil => exact le_rfl
  | cons b bs =>
    have hscan := srcScan_codes_length_le k testing bs { srcInit dict with seq := [b] }
    have hzero : { srcInit dict with seq := [b] }.codes.length + bs.length = bs.length := Nat.zero_add _
    simp only [srcEncode, srcScan, srcStep_first (hroots b)]
    split
    · exact (hscan.trans_eq hzero).trans (Nat.le_succ _)
    · rw [List.length_append]
      exact Nat.succ_le_succ (hscan.trans_eq hzero)

theorem roots_le_capacity {k : Nat} (h : 9 ≤ k) : 256 ≤ capacity k :=
  Nat.pow_le_pow_right (n := 2) (by decide) (show 8 ≤ k by omega)

theorem singleton_mem_rootKeys (b : Symbol) : [b] ∈ rootKeys :=
  List.mem_map.mpr ⟨b.toNat, List.mem_range.mpr b.isLt, by simp⟩

/-! ## The source's decoder -/

/-- The decoder's dictionary once it has read one more code, whose sequence begins with `x` (R158). -/
def SrcDec.grown (k : Nat) (d : SrcDec) (x : Symbol) : List (List Symbol) :=
  if d.dict.length < capacity k then d.dict ++ [d.seq ++ [x]] else d.dict

theorem firstSym_append {w : List Symbol} (h : w ≠ []) (v : List Symbol) : firstSym (w ++ v) = firstSym w := by
  cases w with
  | nil => exact absurd rfl h
  | cons x w => rfl

theorem SrcDec.dict_prefix_grown (k : Nat) (d : SrcDec) (x : Symbol) : d.dict <+: d.grown k x := by
  unfold SrcDec.grown
  split
  · exact List.prefix_append _ _
  · exact List.prefix_rfl

theorem SrcDec.getElem?_grown (k : Nat) (d : SrcDec) (x : Symbol) {c : Nat} (hc : c < d.dict.length) :
    (d.grown k x)[c]? = d.dict[c]? := by
  obtain ⟨rest, hrest⟩ := d.dict_prefix_grown k x
  rw [← hrest, List.getElem?_append_left hc]

/-- The codes that have an entry are those of the dictionary that is about to be: a known code (R155), or the one to
be inserted, whose sequence begins as the previous one does (R156). -/
theorem srcDecEntry_eq_some_iff {k c : Nat} {d : SrcDec} {w : List Symbol} (hseq : d.seq ≠ []) :
    srcDecEntry k c d = some w ↔ (d.grown k (firstSym w))[c]? = some w := by
  by_cases hknown : c < d.dict.length
  · rw [srcDecEntry, if_pos hknown, d.getElem?_grown k _ hknown]
  by_cases hspecial : c = d.dict.length ∧ d.dict.length < capacity k
  · obtain ⟨rfl, hroom⟩ := hspecial
    rw [srcDecEntry, if_neg hknown, if_pos ⟨rfl, hroom⟩, SrcDec.grown, if_pos hroom, List.getElem?_concat_length,
      Option.some_inj, Option.some_inj]
    constructor
    · rintro rfl
      rw [firstSym_append hseq]
    · intro hw
      rw [← firstSym_append hseq [firstSym w], hw, hw]
  · have hpast : (d.grown k (firstSym w)).length ≤ c := by
      unfold SrcDec.grown
      split
      · rw [List.length_append, List.length_singleton]
        omega
      · omega
    rw [srcDecEntry, if_neg hknown, if_neg hspecial, List.getElem?_eq_none hpast]

theorem srcDecode_snoc {k c : Nat} {codes : List Nat} {d : SrcDec} {w : List Symbol} (hne : codes ≠ [])
    (hd : srcDecode k codes = some d) (hentry : srcDecEntry k c d = some w) :
    srcDecode k (codes ++ [c]) = some (srcDecUpdate k w d) := by
  cases codes with
  | nil => exact absurd rfl hne
  | cons c0 cs =>
    simp only [srcDecode, List.cons_append] at hd ⊢
    split at hd
    · cases hd
    · rw [srcDecScan_append, hd, Option.bind_some, srcDecScan, hentry]
      rfl

/-- The decoder has read `codes` and written `out`, and whatever code of `dict` comes next, if its sequence begins with
`x`, it is read as that sequence, and then the dictionary is `dict`. -/
def Awaits (k : Nat) (codes : List Nat) (out : List Symbol) (dict : List (List Symbol)) (x : Symbol) : Prop :=
  ∀ c w, dict[c]? = some w → firstSym w = x →
    ∃ d, srcDecode k (codes ++ [c]) = some d ∧ d.seq = w ∧ d.dict = dict ∧ d.output = out ++ w

/-- The first code (R154). -/
theorem awaits_first (k : Nat) (x : Symbol) : Awaits k [] [] rootKeys x := by
  intro c w hw _
  refine ⟨{ seq := w, dict := rootKeys, entries := [w] }, ?_, rfl, rfl, List.append_nil w⟩
  simp only [List.nil_append, srcDecode, hw]
  rfl

/-- A later code (R155, R156, R158). -/
theorem awaits_later {k : Nat} {codes : List Nat} {d : SrcDec} (hne : codes ≠ []) (hd : srcDecode k codes = some d)
    (hseq : d.seq ≠ []) (x : Symbol) : Awaits k codes d.output (d.grown k x) x := by
  rintro c w hw rfl
  exact ⟨srcDecUpdate k w d, srcDecode_snoc hne hd ((srcDecEntry_eq_some_iff hseq).mpr hw), rfl, rfl,
    srcDecUpdate_output k w d⟩

/-! ## The decoder follows the encoder -/

/-- The encoder, at width `ke`, has read `read`; the decoder, at width `kd`, has the codes emitted so far. The
dictionary the decoder is about to have begins with the encoder's, and is the encoder's as long as that grows. -/
structure DecoderFollows (ke kd : Nat) (testing : Bool) (read : List Symbol) (q : SrcRun) : Prop where
  sound : SrcRunSound ke q
  nonempty : q.seq ≠ []
  follows : ∃ out dict, Awaits kd q.codes out dict (firstSym q.seq) ∧ out ++ q.seq = read ∧ q.dict <+: dict ∧
    (testing = false → q.dict.length < capacity ke → dict = q.dict)

/-- The code of the pending match is read as the pending match, which completes the output (R162). -/
theorem DecoderFollows.emit {ke kd : Nat} {testing : Bool} {read : List Symbol} {q : SrcRun}
    (h : DecoderFollows ke kd testing read q) :
    ∃ d, srcDecode kd (q.codes ++ [keyCode q.dict q.seq]) = some d ∧ d.seq = q.seq ∧ d.output = read ∧
      q.dict <+: d.dict ∧ (testing = false → q.dict.length < capacity ke → d.dict = q.dict) := by
  obtain ⟨out, dict, hawaits, hread, hprefix, hgrows⟩ := h.follows
  have hpending := h.sound.pending.resolve_left h.nonempty
  have hcode : dict[keyCode q.dict q.seq]? = some q.seq := by
    obtain ⟨rest, rfl⟩ := hprefix
    rw [List.getElem?_append_left (keyCode_lt hpending), getElem?_keyCode hpending]
  obtain ⟨d, hd, hseq, rfl, houtput⟩ := hawaits _ _ hcode rfl
  exact ⟨d, hd, hseq, houtput.trans hread, hprefix, hgrows⟩

theorem decoderFollows_first {ke kd : Nat} {testing : Bool} (hroots : 256 ≤ capacity ke) (b : Symbol) :
    DecoderFollows ke kd testing [b] (srcStep ke testing b (srcInit rootKeys)) := by
  have hinit : SrcRunSound ke (srcInit rootKeys) := srcInit_sound singleton_mem_rootKeys (by simpa using hroots)
  refine ⟨srcStep_sound testing b hinit, ?_, ?_⟩ <;> rw [srcStep_first (singleton_mem_rootKeys b)]
  · exact List.cons_ne_nil b []
  · exact ⟨[], rootKeys, awaits_first kd b, rfl, List.prefix_rfl, fun _ _ => rfl⟩

/-- A hit lengthens the pending match. A miss emits it, and then both dictionaries get the pending match extended by
the new symbol: the encoder at once, the decoder with the code after, which begins with that symbol. -/
theorem srcStep_decoderFollows {ke kd : Nat} {testing : Bool} {read : List Symbol} {q : SrcRun} (hk : ke ≤ kd)
    (b : Symbol) (h : DecoderFollows ke kd testing read q) :
    DecoderFollows ke kd testing (read ++ [b]) (srcStep ke testing b q) := by
  have hsound := srcStep_sound testing b h.sound
  by_cases hmem : q.seq ++ [b] ∈ q.dict
  · obtain ⟨out, dict, hawaits, hread, hprefix, hgrows⟩ := h.follows
    rw [srcStep_hit hmem] at hsound ⊢
    exact ⟨hsound, by simp, out, dict, by rwa [firstSym_append h.nonempty], by rw [← hread, List.append_assoc],
      hprefix, hgrows⟩
  · obtain ⟨d, hd, hseq, houtput, hprefix, hgrows⟩ := h.emit
    have hawaits : Awaits kd _ d.output (d.grown kd b) b :=
      awaits_later (by simp) hd (by rw [hseq]; exact h.nonempty) b
    rw [srcStep_miss hmem] at hsound ⊢
    refine ⟨hsound, List.cons_ne_nil b [], d.output, d.grown kd b, hawaits, by rw [houtput], ?_⟩
    by_cases hroom : q.dict.length < capacity ke ∧ testing = false
    · have hdict := hgrows hroom.2 hroom.1
      have hcap : capacity ke ≤ capacity kd := Nat.pow_le_pow_right (by decide) hk
      have hgrown : d.grown kd b = q.dict ++ [q.seq ++ [b]] := by
        rw [SrcDec.grown, hdict, hseq, if_pos (by omega)]
      rw [if_pos hroom]
      exact ⟨hgrown ▸ List.prefix_rfl, fun _ _ => hgrown⟩
    · rw [if_neg hroom]
      exact ⟨hprefix.trans (d.dict_prefix_grown kd b), fun ht hlt => absurd ⟨hlt, ht⟩ hroom⟩

theorem srcScan_decoderFollows {ke kd : Nat} {testing : Bool} {read : List Symbol} {q : SrcRun} (hk : ke ≤ kd)
    (bs : List Symbol) (h : DecoderFollows ke kd testing read q) :
    DecoderFollows ke kd testing (read ++ bs) (srcScan ke testing bs q) := by
  induction bs generalizing read q with
  | nil => rwa [List.append_nil]
  | cons b bs ih =>
    rw [List.append_cons]
    exact ih (srcStep_decoderFollows hk b h)

/-- R162 on the source's algorithms: the codes of an encoder that started from the roots are decoded to its input, at
its own width or a larger one, and the decoder's dictionary begins with the encoder's. -/
theorem srcDecode_srcEncode {ke kd : Nat} (hroots : 256 ≤ capacity ke) (hk : ke ≤ kd) (testing : Bool)
    (msg : List Symbol) :
    ∃ d, srcDecode kd (srcEncode ke testing rootKeys msg).codes = some d ∧ d.output = msg ∧
      (srcEncode ke testing rootKeys msg).dict <+: d.dict := by
  cases msg with
  | nil => exact ⟨_, rfl, rfl, List.prefix_rfl⟩
  | cons b bs =>
    have h : DecoderFollows ke kd testing (b :: bs) (srcScan ke testing (b :: bs) (srcInit rootKeys)) :=
      srcScan_decoderFollows hk bs (decoderFollows_first hroots b)
    obtain ⟨d, hd, -, houtput, hprefix, -⟩ := h.emit
    rw [srcEncode, if_neg h.nonempty]
    exact ⟨d, hd, houtput, hprefix⟩

end Sys2Proof.Machine

/-! # DECODE and the source's decoder

A simulation like that of ENCODE: the table of the machine's run is the list of sequences of the source's run, and
`PREV` is the code of `seq` (`DecSimulates`). The sequences need not be distinct (R41), so nothing here rests on R35. -/

namespace Sys2Proof.Machine

/-! ## The simulation -/

/-- The machine's run and the source's run hold the same dictionary and the same previous entry, and have written the
same output. -/
structure DecSimulates (k : Nat) (r : DecRun) (d : SrcDec) : Prop where
  parents : parentsSmaller r.table r.size
  seeded : 256 ≤ r.size
  bounded : r.size ≤ capacity k
  dict : tableKeys r.table r.size = d.dict
  prev : r.prev < r.size ∧ seqOf r.table r.prev = d.seq
  output : r.out.reverse = d.output
  counted : r.wp = d.output.length

theorem DecSimulates.dict_length {k : Nat} {r : DecRun} {d : SrcDec} (h : DecSimulates k r d) :
    d.dict.length = r.size := by
  rw [← h.dict, length_tableKeys]

theorem getElem?_tableKeys {t : Table} {size c : Nat} {w : List Symbol} :
    (tableKeys t size)[c]? = some w ↔ c < size ∧ seqOf t c = w := by
  simp [tableKeys, List.getElem?_eq_some_iff]

/-- The classification is the source's (R155 to R157). -/
theorem DecSimulates.decEntry_eq {k : Nat} {r : DecRun} {d : SrcDec} (h : DecSimulates k r d) (c : Nat) :
    decEntry k c r = srcDecEntry k c d := by
  obtain ⟨-, hprev⟩ := h.prev
  rw [decEntry, srcDecEntry, h.dict_length, hprev, ← h.dict]
  by_cases hc : c < r.size
  · rw [if_pos hc, if_pos hc, getElem?_tableKeys.mpr ⟨hc, rfl⟩]
  · rw [if_neg hc, if_neg hc]

theorem DecSimulates.seq_ne_nil {k : Nat} {r : DecRun} {d : SrcDec} (h : DecSimulates k r d) : d.seq ≠ [] := by
  obtain ⟨-, hprev⟩ := h.prev
  exact hprev ▸ seqOf_ne_nil r.table r.prev

/-- `append` of a sequence that fits (R158). -/
theorem DecSimulates.append {k rawCap : Nat} {r : DecRun} {d : SrcDec} {w : List Symbol} (h : DecSimulates k r d)
    (hroom : (d.output ++ w).length ≤ rawCap) :
    ∃ r', appendSyms rawCap w r = .ok r' ∧ DecSimulates k r' { d with entries := d.entries ++ [w] } := by
  obtain ⟨hparents, hseeded, hbounded, hdict, hprev, houtput, hcounted⟩ := h
  have houtput' : SrcDec.output { d with entries := d.entries ++ [w] } = d.output ++ w := by simp [SrcDec.output]
  rw [List.length_append, ← hcounted] at hroom
  refine ⟨_, (appendSyms_eq ..).trans (if_pos (.inl hroom)), hparents, hseeded, hbounded, hdict, hprev, ?_, ?_⟩
  · rw [houtput', List.reverse_append, List.reverse_reverse, houtput]
  · rw [houtput', List.length_append, hcounted]

/-- The entry inserted at the size has the extended sequence, and the other sequences stay (R158). As
`KeysSound.tableKeys_insertEntry`, without distinct entries. -/
theorem tableKeys_insertEntry {t : Table} {size p : Nat} (h : parentsSmaller t size) (hseeded : 256 ≤ size)
    (hp : p < size) (hp' : p < 65536) (x : Symbol) :
    tableKeys (insertEntry t size p x) (size + 1) = tableKeys t size ++ [seqOf t p ++ [x]] := by
  have hins := parentsSmaller_insertEntry h hp x
  have hold : ∀ c, c < size → seqOf (insertEntry t size p x) c = seqOf t c := fun c hc =>
    seqOf_congr h (sameBelow_insertEntry t size p x) hc
  have hnew : seqOf (insertEntry t size p x) size = seqOf t p ++ [x] := by
    rw [seqOf_extended hins hseeded (Nat.lt_succ_self size) (cellGet_insertEntry_self t size p x),
      toNat_ofNat_code hp', hold p hp]
  rw [tableKeys, List.range_succ, List.map_append, List.map_singleton, hnew]
  exact congrArg (· ++ _) (List.map_congr_left fun c hc => hold c (List.mem_range.mp hc))

/-- The insertion makes the dictionary what it was about to be (R158). -/
theorem DecSimulates.insert {k : Nat} {r : DecRun} {d : SrcDec} (hk : capacity k ≤ 65536) (h : DecSimulates k r d)
    (x : Symbol) : DecSimulates k (decInsert k x r) { d with dict := d.grown k x } := by
  have hlen := h.dict_length
  obtain ⟨hparents, hseeded, hbounded, hdict, ⟨hprev, hseq⟩, houtput, hcounted⟩ := h
  unfold decInsert SrcDec.grown
  rw [hlen]
  split
  · next hroom =>
    exact ⟨parentsSmaller_insertEntry hparents hprev x, Nat.le_succ_of_le hseeded, hroom,
      by rw [tableKeys_insertEntry hparents hseeded hprev (by omega), hdict, hseq],
      ⟨Nat.lt_succ_of_lt hprev, (seqOf_congr hparents (sameBelow_insertEntry _ _ _ x) hprev).trans hseq⟩, houtput,
      hcounted⟩
  · exact ⟨hparents, hseeded, hbounded, hdict, ⟨hprev, hseq⟩, houtput, hcounted⟩

/-- The code that was read becomes the previous one (R158). -/
theorem DecSimulates.advance {k c : Nat} {r : DecRun} {d : SrcDec} {w : List Symbol} (h : DecSimulates k r d)
    (hc : d.dict[c]? = some w) (pos : Nat) :
    DecSimulates k { r with prev := c, pos := pos } { d with seq := w } :=
  ⟨h.parents, h.seeded, h.bounded, h.dict, getElem?_tableKeys.mp (h.dict ▸ hc), h.output, h.counted⟩

/-- One later code (R155 to R158), if its sequence fits. -/
theorem decStep_simulates {k rawCap c : Nat} {r : DecRun} {d : SrcDec} {w : List Symbol} (hk : capacity k ≤ 65536)
    (h : DecSimulates k r d) (hw : srcDecEntry k c d = some w)
    (hroom : (srcDecUpdate k w d).output.length ≤ rawCap) :
    ∃ r', decStep k rawCap c r = .ok r' ∧ DecSimulates k r' (srcDecUpdate k w d) := by
  rw [srcDecUpdate_output] at hroom
  obtain ⟨r₁, happend, h₁⟩ := h.append hroom
  have hheld : (d.grown k (firstSym w))[c]? = some w := (srcDecEntry_eq_some_iff h.seq_ne_nil).mp hw
  exact ⟨_, by simp only [decStep, h.decEntry_eq, hw, happend], (h₁.insert hk (firstSym w)).advance hheld (r.pos + 1)⟩

/-- The output only grows. -/
theorem srcDecScan_output_length {k : Nat} {cs : List Nat} {d d' : SrcDec} (h : srcDecScan k cs d = some d') :
    d.output.length ≤ d'.output.length := by
  induction cs generalizing d with
  | nil =>
    cases h
    exact le_rfl
  | cons c cs ih =>
    simp only [srcDecScan] at h
    split at h
    · cases h
    · exact (by simp : d.output.length ≤ (srcDecUpdate k _ d).output.length).trans (ih h)

theorem decScan_simulates {k rawCap : Nat} {cs : List Nat} {r : DecRun} {d d' : SrcDec} (hk : capacity k ≤ 65536)
    (h : DecSimulates k r d) (hd : srcDecScan k cs d = some d') (hroom : d'.output.length ≤ rawCap) :
    ∃ r', decScan k rawCap cs r = .ok r' ∧ DecSimulates k r' d' := by
  induction cs generalizing r d with
  | nil =>
    cases hd
    exact ⟨r, rfl, h⟩
  | cons c cs ih =>
    simp only [srcDecScan] at hd
    split at hd
    · cases hd
    · next w hw =>
      obtain ⟨r₁, hstep, h₁⟩ := decStep_simulates hk h hw ((srcDecScan_output_length hd).trans hroom)
      obtain ⟨r', hscan, h'⟩ := ih h₁ hd
      exact ⟨r', by simp only [decScan, hstep, hscan], h'⟩

/-- The first code (R154): before it is written. -/
theorem decInit_simulates {k c0 : Nat} (hroots : 256 ≤ capacity k) (hc : c0 < 256) (t : Table) :
    DecSimulates k (decInit c0 t) { seq := seqOf t c0, dict := rootKeys, entries := [] } :=
  ⟨fun _ hlow hc => absurd hc (Nat.not_lt.mpr hlow), le_rfl, hroots, tableKeys_root t, ⟨hc, rfl⟩, rfl, rfl⟩

/-- The codes as a whole (R153, R154, R160): the output and the dictionary are the source's. -/
theorem decCodes_simulates {k rawCap : Nat} {codes : List Nat} {d : SrcDec} (hroots : 256 ≤ capacity k)
    (hk : capacity k ≤ 65536) (t : Table) (hd : srcDecode k codes = some d) (hroom : d.output.length ≤ rawCap) :
    ∃ r, decCodes k rawCap t codes = .ok r ∧ r.out.reverse = d.output ∧ tableKeys r.table r.size = d.dict ∧
      r.size ≤ capacity k := by
  cases codes with
  | nil =>
    cases hd
    exact ⟨_, rfl, rfl, tableKeys_root t, hroots⟩
  | cons c0 cs =>
    simp only [srcDecode, rootKeys_getElem?] at hd
    by_cases hc : c0 < 256
    · rw [if_pos hc] at hd
      have hinit := decInit_simulates hroots hc t
      rw [seqOf_root t hc] at hinit
      obtain ⟨r₁, happend, h₁⟩ := hinit.append (w := [BitVec.ofNat 8 c0]) ((srcDecScan_output_length hd).trans hroom)
      have hstart : DecSimulates k { r₁ with pos := 1 } _ :=
        ⟨h₁.parents, h₁.seeded, h₁.bounded, h₁.dict, h₁.prev, h₁.output, h₁.counted⟩
      obtain ⟨r, hscan, h⟩ := decScan_simulates hk hstart hd hroom
      exact ⟨r, by simp only [decCodes, if_neg (Nat.not_le.mpr hc), happend, hscan], h.output, h.dict, h.bounded⟩
    · rw [if_neg hc] at hd
      cases hd

/-! ## The command -/

@[simp] theorem length_rawInput (s : State) : (rawInput s).length = s.rawLen.toNat := by simp [rawInput]

/-- A symbol sequence laid out in `RAW` with its length is what the host finds there (R26, R65). -/
theorem rawInput_of_cellsFrom {s : State} {syms : List Symbol} (hlen : s.rawLen.toNat = syms.length)
    (hcells : s.raw.cells = cellsFrom 0 syms) : rawInput s = syms := by
  refine List.ext_getElem (by simp [hlen]) fun i hi _ => ?_
  have hlt : i < syms.length := by simpa [hlen] using hi
  simp [rawInput, readRaw, hcells, hlt]

/-- DECODE of codes that the source's decoder reads, with room for its output (R154 to R159). -/
theorem exec_decode_of_srcDecode {k : Nat} {s : State} {d : SrcDec} (hlow : 9 ≤ k) (hhigh : k ≤ 16)
    (hcode : s.codeLen.toNat ≤ s.caps.code.toNat) (hd : srcDecode k (codeInput s) = some d)
    (hroom : d.output.length ≤ s.caps.raw.toNat) :
    ∃ t, exec (.decode k) s = .next t ∧ Completed s t ∧ rawInput t = d.output ∧
      tableKeys t.decTable t.decSize.toNat = d.dict := by
  have hwidth : legalWidth k = true := legalWidth_iff.mpr ⟨hlow, hhigh⟩
  have hk := capacity_le_of_legalWidth hwidth
  have hroots := roots_le_capacity hlow
  obtain ⟨r, hcodes, houtput, hdict, hbounded⟩ := decCodes_simulates hroots hk s.decTable hd hroom
  have hwritten := decCodes_decRunWritten hcodes
  have hrun : decodeRun k s = .ok r := by
    simp only [decodeRun, hwidth, Nat.not_lt.mpr hcode, Bool.not_true, Bool.false_eq_true, if_false, hcodes]
  refine ⟨decodeFinish r s, by simp only [exec, execDecode, hrun], ⟨rfl, rfl⟩, ?_, ?_⟩
  · rw [← houtput]
    refine rawInput_of_cellsFrom ?_ rfl
    rw [List.length_reverse, hwritten.counted]
    exact toNat_ofNat_of_le_cap hwritten.room
  · have hsize : (decodeFinish r s).decSize.toNat = r.size := Nat.mod_eq_of_lt (by omega)
    rw [hsize]
    exact hdict

end Sys2Proof.Machine

/-! # The round trip through all four units (O46)

COMPRESS leaves the codes of the source's encoder packed in `STREAM` (`compress_steps`), DECOMPRESS unpacks them
(`exec_unpack_of_packed`) and leaves the output of the source's decoder in `RAW` (`decompress_steps`); the source's
decoder inverts its encoder (`srcDecode_srcEncode`). -/

namespace Sys2Proof.Machine

/-! ## UNPACK after PACK -/

/-- UNPACK of a stream whose framing checks pass (R201, R203), `n` codes in all. -/
theorem exec_unpack_of_framed {k n : Nat} {s : State} (hlow : 9 ≤ k) (hhigh : k ≤ 16)
    (hstream : s.streamLen.toNat ≤ s.caps.stream.toNat) (hpos : 0 < s.streamLen.toNat)
    (hheader : (readStream s 0).toNat ≤ 7)
    (hlen : 8 * (s.streamLen.toNat - 1) = k * n + (readStream s 0).toNat) (hcode : n ≤ s.caps.code.toNat) :
    ∃ t, exec (.unpack k) s = .next t ∧ Completed s t ∧ t.codeLen.toNat = n ∧ Unpacked k s t := by
  have hwidth : legalWidth k = true := legalWidth_iff.mpr ⟨hlow, hhigh⟩
  obtain ⟨header, body, hinput⟩ : ∃ header body, streamInput s = header :: body :=
    List.exists_cons_of_length_pos (by rwa [length_streamInput])
  have hfirst : readStream s 0 = header := by rw [← getD_streamInput hpos, hinput, List.getD_cons_zero]
  have hbody : s.streamLen.toNat - 1 = body.length := by
    rw [← length_streamInput, hinput, List.length_cons, Nat.add_sub_cancel]
  rw [hbody, hfirst] at hlen
  rw [hfirst] at hheader
  have hpayload : 8 * body.length - header.toNat = k * n := by omega
  have hcount : k * n / k = n := Nat.mul_div_cancel_left n (by omega)
  have hframe : framePayload k header.toNat body.length = .ok (k * n) := by
    rw [framePayload, if_neg (by omega), if_neg (by omega), hpayload, if_neg (by simp)]
  have hrun : unpackRun k s = .ok (unpackCodes k (k * n) body) := by
    simp only [unpackRun, hwidth, Nat.not_lt.mpr hstream, Bool.not_true, Bool.false_eq_true, if_false, hinput,
      unpackStream, hframe, hcount, Nat.not_lt.mpr hcode]
  refine ⟨unpackFinish (unpackCodes k (k * n) body) s, by simp only [exec, execUnpack, hrun], ⟨rfl, rfl⟩, ?_,
    unpackFinish_unpacked hrun⟩
  exact (toNat_ofNat_of_le_cap (unpackRun_length_le hrun)).trans ((length_unpackCodes ..).trans hcount)

/-- The codes of a state can be packed: the checks of PACK pass (R181, R186). -/
structure Packable (k : Nat) (s : State) : Prop where
  low : 9 ≤ k
  high : k ≤ 16
  code : s.codeLen.toNat ≤ s.caps.code.toNat
  stream : 1 + (k * s.codeLen.toNat + 7) / 8 ≤ s.caps.stream.toNat
  codes : ∀ i, i < s.codeLen.toNat → (readCode s i).toNat < 2 ^ k

theorem exec_pack_of_packable {k : Nat} {s : State} (h : Packable k s) :
    ∃ t, exec (.pack k) s = .next t ∧ Completed s t ∧ Packed k s t :=
  ⟨_, exec_pack_of_fits h.low h.high h.code h.stream h.codes, ⟨rfl, rfl⟩,
    packFinish_packed (Nat.zero_lt_of_lt h.low) h.stream⟩

/-- UNPACK of a stream that PACK wrote gives the codes back (R209): the bits at each position are the same, and a code
below `2^K` has no others. -/
theorem exec_unpack_of_packed {k : Nat} {s t : State} (hs : Packable k s) (ht : Packed k s t)
    (hcaps : t.caps = s.caps) :
    ∃ u, exec (.unpack k) t = .next u ∧ Completed t u ∧ SameCode s u := by
  obtain ⟨hlow, hhigh, hcode, hstream, hcodes⟩ := hs
  obtain ⟨hlen, hheader, hbody⟩ := ht
  rw [← hcaps] at hcode hstream
  obtain ⟨u, hu, hdone, hcount, hunpacked⟩ := exec_unpack_of_framed (n := s.codeLen.toNat) hlow hhigh
    (hlen.trans_le hstream) (by omega) (by omega) (by omega) hcode
  have hcodes' := hunpacked.codes
  have hbits := hunpacked.bits
  rw [hcount] at hcodes' hbits
  refine ⟨u, hu, hdone, BitVec.eq_of_toNat_eq hcount, fun q hq => BitVec.eq_of_getLsbD_eq fun m _ => ?_⟩
  by_cases hm : m < k
  · have hpos : q * k + (k - 1 - m) < k * s.codeLen.toNat := position_lt hq (by omega)
    rw [← codeBit_of_code u q hm, ← codeBit_of_code s q hm, hbits _ hpos, hbody _ (by omega), if_pos hpos]
  · have hwide : 2 ^ k ≤ 2 ^ m := Nat.pow_le_pow_right (by decide) (Nat.le_of_not_lt hm)
    rw [BitVec.getLsbD, BitVec.getLsbD, Nat.testBit_lt_two_pow ((hcodes' q hq).trans_le hwide),
      Nat.testBit_lt_two_pow ((hcodes q hq).trans_le hwide)]

/-! ## The commands on the host's program -/

/-- A block that waits for the host's next operation: idle, with no fault on record. -/
structure Waiting (ops : List HostOp) (s : State) : Prop where
  pending : s.pending = ops
  idle : s.status.busy = false
  unfaulted : s.status.fault = false
  noCause : s.status.err = 0

/-- The state in which a command starts: its word is taken from the queue and accepted (R220). -/
def begun (ops : List HostOp) (s : State) : State := accept { s with pending := ops }

/-- The step that runs a command to its completion (R220, R225), and what the block is like after it. -/
theorem step_completes {i : Instr} {ops : List HostOp} {s t : State} (hi : i.wellFormed = true)
    (h : Waiting (issueOp (encode i) :: ops) s) (ht : exec i (begun ops s) = .next t)
    (hdone : Completed (begun ops s) t) :
    step s = .next t ∧ Waiting ops t ∧ t.caps = s.caps ∧ t.status.done = true := by
  obtain ⟨hpending, hidle, hfault, hcause⟩ := h
  have hissues : Issues (issueOp (encode i)) (encode i) := ⟨_, rfl, by simp⟩
  have hstep : step s = .next t := by
    rw [step_issue hpending hissues hidle, issue_of_decode_ok (by exact hfault) (decodeInvertsEncode i hi)]
    exact ht
  obtain ⟨hcaps, hops, -, -⟩ := exec_parametersKept ht
  obtain ⟨hstatus, -⟩ := hdone
  exact ⟨hstep, ⟨hops, by rw [hstatus], by rw [hstatus]; exact hfault, by rw [hstatus]; exact hcause⟩, hcaps,
    by rw [hstatus]⟩

theorem runSteps_two {n : Nat} {s t u : State} (hs : step s = .next t) (ht : step t = .next u) :
    runSteps (n + 2) s = runSteps n u := by
  simp only [runSteps, hs, ht]

/-- A compress-mode ENCODE (R124 to R127): the codes are the source's, as many as there are symbols at most (R134), and
fit K bits (R130). -/
theorem exec_encode_compress {k : Nat} {s : State} (hlow : 9 ≤ k) (hhigh : k ≤ 16) (hw : cellsWf s.encTable)
    (hraw : s.rawLen.toNat ≤ s.caps.raw.toNat) (hcode : s.rawLen.toNat ≤ s.caps.code.toNat) :
    ∃ t, exec (.encode k false false false) s = .next t ∧ Completed s t ∧
      codeInput t = (srcEncode k false rootKeys (rawInput s)).codes ∧ t.codeLen.toNat ≤ s.rawLen.toNat ∧
      ∀ i, i < t.codeLen.toNat → (readCode t i).toNat < 2 ^ k := by
  have hroots := roots_le_capacity hlow
  have hsize : startSize false s = 256 := rfl
  have hlen : (srcEncode k false rootKeys (rawInput s)).codes.length ≤ s.rawLen.toNat := by
    simpa using srcEncode_codes_length_le (k := k) false (rawInput s) singleton_mem_rootKeys
  obtain ⟨t, ht, hdone, hcodes, -⟩ := encodeMatchesTheSourceAlgorithm k false false false s
    (srcEncode k false rootKeys (rawInput s)) (by decide) hlow hhigh hraw hroots hw (.inl (.inl rfl))
    (by rw [hsize, tableKeys_root]) fun _ => hlen.trans hcode
  have hinput := hcodes rfl
  refine ⟨t, ht, hdone, hinput, ?_, fun i hi => ?_⟩
  · rwa [← length_codeInput, hinput]
  · refine srcEncode_codes_lt false (rawInput s) singleton_mem_rootKeys (by simpa using hroots) _ ?_
    rw [← hinput]
    exact List.mem_map.mpr ⟨i, List.mem_range.mpr hi, rfl⟩

/-- `COMPRESS k` (R100) leaves in `STREAM` the stream of the source's codes. -/
theorem compress_steps {k n : Nat} {ops : List HostOp} {s : State} (hlow : 9 ≤ k) (hhigh : k ≤ 16)
    (h : Waiting (issueAll (expandPseudo (.compress k)) ++ ops) s) (hw : cellsWf s.encTable)
    (hraw : s.rawLen.toNat ≤ s.caps.raw.toNat) (hcode : s.rawLen.toNat ≤ s.caps.code.toNat)
    (hstream : 1 + (k * s.rawLen.toNat + 7) / 8 ≤ s.caps.stream.toNat) :
    ∃ c t, runSteps (n + 2) s = runSteps n t ∧ Waiting ops t ∧ c.caps = s.caps ∧ t.caps = s.caps ∧
      Packable k c ∧ Packed k c t ∧ codeInput c = (srcEncode k false rootKeys (rawInput s)).codes := by
  have hfits : kFits k = true := decide_eq_true (show k < 32 by omega)
  obtain ⟨t₁, ht₁, hdone₁, hinput, hlen, hcodes⟩ :=
    exec_encode_compress (s := begun (issueOp (encode (.pack k)) :: ops) s) hlow hhigh hw hraw hcode
  obtain ⟨hstep₁, hwaits₁, hcaps₁, -⟩ := step_completes (i := .encode k false false false) hfits h ht₁ hdone₁
  have hroom : 1 + (k * t₁.codeLen.toNat + 7) / 8 ≤ t₁.caps.stream.toNat := by
    have hbits : k * t₁.codeLen.toNat ≤ k * s.rawLen.toNat := Nat.mul_le_mul_left k hlen
    rw [hcaps₁]
    omega
  have hpackable : Packable k (begun ops t₁) :=
    ⟨hlow, hhigh, (hlen.trans hcode).trans_eq (by rw [← hcaps₁]; rfl), hroom, hcodes⟩
  obtain ⟨t₂, ht₂, hdone₂, hpacked⟩ := exec_pack_of_packable hpackable
  obtain ⟨hstep₂, hwaits₂, hcaps₂, -⟩ := step_completes (i := .pack k) hfits hwaits₁ ht₂ hdone₂
  exact ⟨begun ops t₁, t₂, runSteps_two hstep₁ hstep₂, hwaits₂, hcaps₁, hcaps₂.trans hcaps₁, hpackable, hpacked, hinput⟩

/-- `DECOMPRESS k` (R100) of a packed stream leaves in `RAW` what the source's decoder makes of its codes. -/
theorem decompress_steps {k n : Nat} {ops : List HostOp} {c t : State} {d : SrcDec}
    (h : Waiting (issueAll (expandPseudo (.decompress k)) ++ ops) t) (hcaps : t.caps = c.caps) (hc : Packable k c)
    (ht : Packed k c t) (hd : srcDecode k (codeInput c) = some d) (hroom : d.output.length ≤ t.caps.raw.toNat) :
    ∃ u, runSteps (n + 2) t = runSteps n u ∧ Waiting ops u ∧ u.status.done = true ∧ rawInput u = d.output := by
  have hhigh := hc.high
  have hfits : kFits k = true := decide_eq_true (show k < 32 by omega)
  have hpacked : Packed k c (begun (issueOp (encode (.decode k)) :: ops) t) := ⟨ht.streamLen, ht.header, ht.body⟩
  obtain ⟨u₁, hu₁, hdone₁, hsame⟩ := exec_unpack_of_packed hc hpacked hcaps
  obtain ⟨hstep₁, hwaits₁, hcaps₁, -⟩ := step_completes (i := .unpack k) hfits h hu₁ hdone₁
  have hcode : (begun ops u₁).codeLen.toNat ≤ (begun ops u₁).caps.code.toNat := by
    rw [begun, accept_codeLen, accept_caps, hsame.len, hcaps₁, hcaps]
    exact hc.code
  obtain ⟨u₂, hu₂, hdone₂, houtput, -⟩ := exec_decode_of_srcDecode (s := begun ops u₁) hc.low hhigh hcode
    (hsame.codeInput_eq.symm ▸ hd) (by rw [begun, accept_caps, hcaps₁]; exact hroom)
  obtain ⟨hstep₂, hwaits₂, -, hdone⟩ := step_completes (i := .decode k) hfits hwaits₁ hu₂ hdone₂
  exact ⟨u₂, runSteps_two hstep₁ hstep₂, hwaits₂, hdone, houtput⟩

theorem sameRaw_of_rawInput_eq {s t : State} (h : rawInput t = rawInput s) : SameRaw s t := by
  have hlen : t.rawLen.toNat = s.rawLen.toNat := by simpa using congrArg List.length h
  refine ⟨BitVec.eq_of_toNat_eq hlen, fun i hi => ?_⟩
  have hget := congrArg (·[i]?) h
  simpa [rawInput, hlen, hi] using hget

theorem Status.word_completed {f : Status} (hidle : f.busy = false) (hdone : f.done = true) (hfault : f.fault = false)
    (hcause : f.err = 0) : f.word = 0x02#32 := by
  rw [Status.word, hidle, hdone, hfault, hcause]
  rfl

/-- Settles O46: COMPRESS leaves the source's codes packed, DECOMPRESS unpacks and decodes them, and the source's
decoder inverts its encoder. -/
theorem compressDecompressRoundTrip : Obligations.CompressDecompressRoundTrip := by
  intro k s hlow hhigh hsound hfault hw hraw hcode hstream hpending
  have hwaits : Waiting (issueAll (expandPseudo (.compress k)) ++ issueAll (expandPseudo (.decompress k))) s :=
    ⟨hpending, hsound.idle, hfault, (hsound.clear hfault).1⟩
  obtain ⟨c, t, hrun, hwaits', hcapsC, hcapsT, hpackable, hpacked, hinput⟩ :=
    compress_steps (n := 2) hlow hhigh hwaits hw hraw hcode hstream
  obtain ⟨d, hd, houtput, -⟩ := srcDecode_srcEncode (roots_le_capacity hlow) (le_refl k) false (rawInput s)
  have hroom : d.output.length ≤ t.caps.raw.toNat := by
    rw [houtput, hcapsT, length_rawInput]
    exact hraw
  obtain ⟨u, hrun', ⟨hempty, hidle, hunfaulted, hcause⟩, hdone, hraw'⟩ :=
    decompress_steps (n := 0) (ops := []) hwaits' (hcapsT.trans hcapsC.symm) hpackable hpacked (hinput ▸ hd) hroom
  exact ⟨u, hrun.trans hrun', hempty, Status.word_completed hidle hdone hunfaulted hcause,
    sameRaw_of_rawInput_eq (hraw'.trans houtput)⟩

end Sys2Proof.Machine

/-! # How ENCODE starts, answers and counts (O16, O17, O20, O25)

The start checks are read off `encodeStart` (O16). A run that gets past them is followed through `encStep_cases`: how
many symbols it has read and codes it has emitted (`EncRunCounted`, O17), and how its dictionary grows
(`EncRunGrows`, O20 and O25). -/

namespace Sys2Proof.Machine

/-! ## The start of the command -/

theorem exec_encode_of_run_error {k : Nat} {keep testing training : Bool} {s : State} {e : Raise}
    (h : encodeRun k keep testing training s = .error e) :
    exec (.encode k keep testing training) s = .next (faultEntry (.encode training) e s) := by
  simp only [exec, execEncode, h]

theorem exec_encode_of_run_ok {k : Nat} {keep testing training : Bool} {s : State} {r : EncRun}
    (h : encodeRun k keep testing training s = .ok r) :
    exec (.encode k keep testing training) s = .next (encodeFinish testing training r s) := by
  simp only [exec, execEncode, h]

/-- A start check that fails ends the command (R122). -/
theorem exec_encode_of_start_error {k : Nat} {keep testing training : Bool} {s : State} {e : Raise}
    (h : encodeStart k keep testing training s = .error e) :
    exec (.encode k keep testing training) s = .next (faultEntry (.encode training) e s) :=
  exec_encode_of_run_error (by simp only [encodeRun, h])

/-- Without a fault there is a run that ended, and its completion (R133). -/
theorem run_of_exec_encode {k : Nat} {keep testing training : Bool} {s t : State}
    (h : exec (.encode k keep testing training) s = .next t) (hfault : t.status.fault = false) :
    ∃ r, encodeRun k keep testing training s = .ok r ∧ t = encodeFinish testing training r s := by
  obtain ⟨e, -, he⟩ | ⟨r, hr, he⟩ := execEncode_cases k keep testing training s <;> cases h.symm.trans he
  · simp [Status.faulted] at hfault
  · exact ⟨r, hr, rfl⟩

/-- Settles O16: each check fails when the ones before it pass. -/
theorem encodeStartChecks : Obligations.EncodeStartChecks := by
  refine ⟨fun k keep s => exec_encode_of_start_error rfl, fun k keep testing training s hflags => ?_⟩
  have hmodes : (training && testing) = false :=
    Bool.eq_false_iff.mpr fun h => hflags (by simpa [and_comm] using h)
  refine ⟨fun hwidth => exec_encode_of_start_error ?_, fun hlow hhigh hraw => exec_encode_of_start_error ?_,
    fun hlow hhigh hraw hkeep hsize => exec_encode_of_start_error ?_⟩
  · have hillegal : legalWidth k = false := by
      rw [Bool.eq_false_iff, ne_eq, legalWidth_iff]
      omega
    simp [encodeStart, hmodes, hillegal]
  · simp [encodeStart, hmodes, legalWidth_iff.mpr ⟨hlow, hhigh⟩, hraw]
  · have hne : s.encSize ≠ 0#32 := fun hzero => by simp [hzero] at hsize
    simp [encodeStart, hmodes, legalWidth_iff.mpr ⟨hlow, hhigh⟩, Nat.not_lt.mpr hraw, hkeep, hne, capacity, hsize]

theorem startSize_of_freshStart {keep : Bool} {s : State} (h : FreshStart keep s) : startSize keep s = 256 := by
  rw [startSize, if_neg]
  rintro ⟨hkeep, hne⟩
  exact h.elim (fun hfalse => by simp [hkeep] at hfalse) hne

/-- The size the dictionary is seeded to fits K bits (R122, R123). -/
theorem encodeStart_size {k : Nat} {keep testing training : Bool} {s : State} {size : Nat}
    (h : encodeStart k keep testing training s = .ok size) : size = startSize keep s ∧ size ≤ capacity k := by
  obtain ⟨-, hwidth, -, ⟨hfresh, rfl⟩ | ⟨hkeep, hne, hsize, rfl⟩⟩ := encodeStart_ok h
  · exact ⟨(startSize_of_freshStart hfresh).symm, roots_le_capacity (legalWidth_iff.mp hwidth).1⟩
  · exact ⟨(if_pos ⟨hkeep, hne⟩).symm, hsize⟩

/-- A dictionary of a legal size has the root entries (R29, R123). -/
theorem seeded_startSize {keep : Bool} {s : State} (h : FreshStart keep s ∨ sizeLegal s.encSize) :
    256 ≤ startSize keep s := by
  unfold startSize
  split
  · next hheld =>
    have hlegal : sizeLegal s.encSize := h.resolve_left fun hfresh => by simp_all [FreshStart]
    exact (hlegal.resolve_left hheld.2).1
  · exact le_rfl

/-! ## Reading symbols -/

/-- A property of the symbols read and the run that every symbol keeps is kept by the scan. -/
theorem encScan_read_induct {a : EncArgs} {P : List Symbol → EncRun → Prop}
    (step : ∀ read b r r', P read r → encStep a b r = .ok r' → P (read ++ [b]) r') (bs : List Symbol)
    {read : List Symbol} {r r' : EncRun} (h0 : P read r) (h : encScan a bs r = .ok r') : P (read ++ bs) r' := by
  induction bs generalizing read r with
  | nil =>
    cases h
    rwa [List.append_nil]
  | cons b bs ih =>
    simp only [encScan] at h
    split at h
    · cases h
    · next hstep =>
      rw [List.append_cons]
      exact ih (step _ _ _ _ h0 hstep) h

/-- The insertion changes the table and the size only (R124): at most one entry, below capacity and not in testing
mode. -/
theorem encInsert_cases (a : EncArgs) (p : Nat) (b : Symbol) (r : EncRun) :
    (r.size < capacity a.k ∧ a.testing = false ∧
      encInsert a p b r = { r with table := insertEntry r.table r.size p b, size := r.size + 1 }) ∨
    encInsert a p b r = r := by
  unfold encInsert
  split
  · next hroom => exact .inl ⟨hroom.1, hroom.2, rfl⟩
  · exact .inr rfl

@[simp] theorem encInsert_pos (a : EncArgs) (p : Nat) (b : Symbol) (r : EncRun) :
    (encInsert a p b r).pos = r.pos := by
  obtain ⟨-, -, h⟩ | h := encInsert_cases a p b r <;> rw [h]

@[simp] theorem encInsert_nOut (a : EncArgs) (p : Nat) (b : Symbol) (r : EncRun) :
    (encInsert a p b r).nOut = r.nOut := by
  obtain ⟨-, -, h⟩ | h := encInsert_cases a p b r <;> rw [h]

@[simp] theorem encInsert_out (a : EncArgs) (p : Nat) (b : Symbol) (r : EncRun) :
    (encInsert a p b r).out = r.out := by
  obtain ⟨-, -, h⟩ | h := encInsert_cases a p b r <;> rw [h]

@[simp] theorem encAdvance_pos (c : Nat) (r : EncRun) : (encAdvance c r).pos = r.pos + 1 := rfl
@[simp] theorem encAdvance_nOut (c : Nat) (r : EncRun) : (encAdvance c r).nOut = r.nOut := rfl
@[simp] theorem encAdvance_cur (c : Nat) (r : EncRun) : (encAdvance c r).cur = some c := rfl
@[simp] theorem encAdvance_size (c : Nat) (r : EncRun) : (encAdvance c r).size = r.size := rfl
@[simp] theorem encAdvance_table (c : Nat) (r : EncRun) : (encAdvance c r).table = r.table := rfl
@[simp] theorem encAdvance_out (c : Nat) (r : EncRun) : (encAdvance c r).out = r.out := rfl

/-- An emission counts one code and reads no symbol (R125). -/
theorem emit_counts {a : EncArgs} {c : Nat} {r r' : EncRun} (h : emit a c r = .ok r') :
    r'.nOut = r.nOut + 1 ∧ r'.pos = r.pos := by
  obtain ⟨-, rfl⟩ | ⟨-, -, rfl⟩ := emit_cases h <;> exact ⟨rfl, rfl⟩

theorem encStep_pos {a : EncArgs} {b : Symbol} {r r' : EncRun} (h : encStep a b r = .ok r') :
    r'.pos = r.pos + 1 := by
  obtain ⟨-, rfl⟩ | ⟨p, c, -, -, rfl⟩ | ⟨p, r₁, -, -, hemit, rfl⟩ := encStep_cases h
  · rfl
  · rfl
  · simp [(emit_counts hemit).2]

/-- `POS` counts the symbols read (R133). -/
theorem encScan_pos {a : EncArgs} {bs : List Symbol} {r r' : EncRun} (h : encScan a bs r = .ok r') :
    r'.pos = r.pos + bs.length := by
  have hstep (read : List Symbol) (b : Symbol) (u u' : EncRun) (hu : u.pos = r.pos + read.length)
      (hs : encStep a b u = .ok u') : u'.pos = r.pos + (read ++ [b]).length := by
    rw [encStep_pos hs, hu, List.length_append, List.length_singleton, Nat.add_assoc]
  exact encScan_read_induct (P := fun read u => u.pos = r.pos + read.length) hstep bs (read := []) rfl h

/-! ## Counting emissions -/

/-- Once a symbol is read a match is pending, and it is not counted yet: fewer codes are emitted than symbols read
(R134). -/
structure EncRunCounted (r : EncRun) : Prop where
  pending : r.cur = none ↔ r.pos = 0
  counted : r.nOut ≤ r.pos - 1

theorem encInit_counted (size : Nat) (t : Table) : EncRunCounted (encInit size t) :=
  ⟨⟨fun _ => rfl, fun _ => rfl⟩, le_rfl⟩

theorem EncRunCounted.pos_pos {r : EncRun} {p : Nat} (h : EncRunCounted r) (hcur : r.cur = some p) : 0 < r.pos :=
  Nat.pos_of_ne_zero fun hzero => by simp [h.pending.mpr hzero] at hcur

theorem encStep_counted {a : EncArgs} {b : Symbol} {r r' : EncRun} (h : EncRunCounted r)
    (hs : encStep a b r = .ok r') : EncRunCounted r' := by
  have hcounted := h.counted
  obtain ⟨-, rfl⟩ | ⟨p, c, -, -, rfl⟩ | ⟨p, r₁, hcur, -, hemit, rfl⟩ := encStep_cases hs
  · exact ⟨by simp, by simp; omega⟩
  · exact ⟨by simp, by simp; omega⟩
  · have hpos := h.pos_pos hcur
    obtain ⟨hout, hread⟩ := emit_counts hemit
    exact ⟨by simp, by simp; omega⟩

theorem emit_ok_of_room {a : EncArgs} {r : EncRun} (c : Nat) (hroom : a.training = false → r.nOut < a.codeCap) :
    ∃ r', emit a c r = .ok r' := by
  cases htraining : a.training with
  | true => exact ⟨_, emit_of_training htraining c r⟩
  | false => exact ⟨_, emit_of_room htraining (hroom htraining) c⟩

/-- A symbol faults only where its emission does (R124). -/
theorem encStep_ok_of_emit {a : EncArgs} {r : EncRun} (b : Symbol)
    (h : ∀ p, r.cur = some p → ∃ r', emit a p r = .ok r') : ∃ r', encStep a b r = .ok r' := by
  cases hstep : encStep a b r with
  | ok r' => exact ⟨r', rfl⟩
  | error e =>
    obtain ⟨p, hcur, -, herror⟩ := encStep_error hstep
    obtain ⟨r', hok⟩ := h p hcur
    cases herror.symm.trans hok

/-- A scan with room for a code per symbol succeeds (R134, R248). -/
theorem encScan_ok_of_room {a : EncArgs} (bs : List Symbol) {r : EncRun} (h : EncRunCounted r)
    (hroom : a.training = false → r.pos + bs.length ≤ a.codeCap) : ∃ r', encScan a bs r = .ok r' := by
  induction bs generalizing r with
  | nil => exact ⟨r, rfl⟩
  | cons b bs ih =>
    have hcounted := h.counted
    obtain ⟨r₁, hstep⟩ := encStep_ok_of_emit (a := a) (r := r) b fun p _ => emit_ok_of_room p fun ht => by
      have hfits := hroom ht
      rw [List.length_cons] at hfits
      omega
    have hrest : a.training = false → r₁.pos + bs.length ≤ a.codeCap := fun ht => by
      have hfits := hroom ht
      rw [List.length_cons] at hfits
      rw [encStep_pos hstep]
      omega
    obtain ⟨r', hscan⟩ := ih (encStep_counted h hstep) hrest
    exact ⟨r', by simp only [encScan, hstep, hscan]⟩

/-- The flush emits the pending match, if a symbol was read (R126). -/
theorem encFlush_cases {a : EncArgs} {r r' : EncRun} (h : encFlush a r = .ok r') :
    (r.cur = none ∧ r' = r) ∨ ∃ p, r.cur = some p ∧ emit a p r = .ok r' := by
  unfold encFlush at h
  split at h
  · next hcur => exact .inl ⟨hcur, (Except.ok.inj h).symm⟩
  · next p hcur => exact .inr ⟨p, hcur, h⟩

theorem encFlush_ok_of_room {a : EncArgs} {r : EncRun} (h : EncRunCounted r)
    (hroom : a.training = false → r.pos ≤ a.codeCap) : ∃ r', encFlush a r = .ok r' := by
  unfold encFlush
  split
  · exact ⟨r, rfl⟩
  · next p hcur =>
    have hpos := h.pos_pos hcur
    have hcounted := h.counted
    exact emit_ok_of_room p fun ht => by have hfits := hroom ht; omega

/-- After the flush there is at most a code per symbol, and no symbol goes without one (R134). -/
theorem encFlush_counted {a : EncArgs} {r r' : EncRun} (h : EncRunCounted r) (hf : encFlush a r = .ok r') :
    r'.nOut ≤ r.pos ∧ (r.pos ≠ 0 → r'.nOut ≠ 0) := by
  have hcounted := h.counted
  obtain ⟨hcur, rfl⟩ | ⟨p, hcur, hemit⟩ := encFlush_cases hf
  · exact ⟨by omega, fun hne => absurd (h.pending.mp hcur) hne⟩
  · have hpos := h.pos_pos hcur
    have hout := (emit_counts hemit).1
    exact ⟨by omega, by omega⟩

/-- The command with its start checks passed and room for a code per symbol (R134, R248). -/
theorem encodeRun_ok_of_room {k : Nat} {keep testing training : Bool} {s : State}
    (hflags : ¬(testing = true ∧ training = true)) (hlow : 9 ≤ k) (hhigh : k ≤ 16)
    (hraw : s.rawLen.toNat ≤ s.caps.raw.toNat) (hsize : startSize keep s ≤ capacity k)
    (hroom : training = false → s.rawLen.toNat ≤ s.caps.code.toNat) :
    ∃ r, encodeRun k keep testing training s = .ok r ∧ r.nOut ≤ s.rawLen.toNat ∧
      (s.rawLen.toNat ≠ 0 → r.nOut ≠ 0) := by
  have hinit := encInit_counted (startSize keep s) s.encTable
  have hpos : (encInit (startSize keep s) s.encTable).pos + (rawInput s).length = s.rawLen.toNat := by
    rw [length_rawInput]
    exact Nat.zero_add _
  obtain ⟨r₁, hscan⟩ := encScan_ok_of_room (a := encArgs k testing training s) (rawInput s) hinit
    fun ht => hpos.trans_le (hroom ht)
  have hcounted₁ := encScan_induct (fun _ _ _ => encStep_counted) _ hinit hscan
  have hread : r₁.pos = s.rawLen.toNat := (encScan_pos hscan).trans hpos
  obtain ⟨r, hflush⟩ := encFlush_ok_of_room (a := encArgs k testing training s) hcounted₁
    fun ht => hread.trans_le (hroom ht)
  have hend := encFlush_counted hcounted₁ hflush
  rw [hread] at hend
  have hwidth : legalWidth k = true := legalWidth_iff.mpr ⟨hlow, hhigh⟩
  exact ⟨r, by simp only [encodeRun, encodeStart_eq_ok hflags hwidth hraw hsize, hscan, hflush], hend⟩

/-- Settles O17: there is room for a code per symbol, and the codes are counted. -/
theorem encodeCompletes : Obligations.EncodeCompletes := by
  intro k keep testing training s hflags hlow hhigh hraw hsize hroom
  obtain ⟨r, hrun, hle, hne⟩ := encodeRun_ok_of_room hflags hlow hhigh hraw hsize hroom
  refine ⟨_, exec_encode_of_run_ok hrun, encodeFinish_completed testing training r s, ?_, ?_⟩
  · rintro rfl
    have hlen : (encodeFinish testing false r s).codeLen.toNat = r.nOut := toNat_ofNat_of_le_cap hle
    refine ⟨hlen.trans_le hle, fun hraw' hzero => hne (fun h => hraw' (BitVec.eq_of_toNat_eq h)) ?_⟩
    rw [← hlen, hzero]
    rfl
  · rintro rfl
    exact ⟨rfl, rfl⟩

/-! ## The growth of the dictionary -/

/-- How the dictionary of a run `r` has grown since `r₀` (R131): never smaller, within 2^K, at most one entry per
emission, and the old entries are as they were. -/
structure EncRunGrows (a : EncArgs) (r₀ r : EncRun) : Prop where
  size_le : r₀.size ≤ r.size
  bounded : r.size ≤ capacity a.k
  emissions : r.size + r₀.nOut ≤ r₀.size + r.nOut
  entries : ∀ c, c < r₀.size → cellGet r.table c = cellGet r₀.table c

theorem EncRunGrows.refl {a : EncArgs} {r : EncRun} (h : r.size ≤ capacity a.k) : EncRunGrows a r r :=
  ⟨le_rfl, h, le_rfl, fun _ _ => rfl⟩

theorem encStep_grows {a : EncArgs} {b : Symbol} {r₀ r r' : EncRun} (h : EncRunGrows a r₀ r)
    (hs : encStep a b r = .ok r') : EncRunGrows a r₀ r' := by
  obtain ⟨hle, hbounded, hemissions, hentries⟩ := h
  obtain ⟨-, rfl⟩ | ⟨p, c, -, -, rfl⟩ | ⟨p, r₁, -, -, hemit, rfl⟩ := encStep_cases hs
  · exact ⟨hle, hbounded, hemissions, hentries⟩
  · exact ⟨hle, hbounded, hemissions, hentries⟩
  · obtain ⟨htable, hsize, -⟩ := emit_table hemit
    have hout := (emit_counts hemit).1
    obtain ⟨hroom, -, hins⟩ | hins := encInsert_cases a p b r₁ <;> rw [hins]
    · refine ⟨by simp; omega, hroom, by simp; omega, fun c hc => ?_⟩
      have hne : c ≠ r₁.size := by omega
      exact (cellGet_insertEntry_ne _ p b hne).trans (htable ▸ hentries c hc)
    · exact ⟨by simp; omega, by simp; omega, by simp; omega, fun c hc => htable ▸ hentries c hc⟩

theorem encScan_grows {a : EncArgs} {bs : List Symbol} {r r' : EncRun} (h : r.size ≤ capacity a.k)
    (hs : encScan a bs r = .ok r') : EncRunGrows a r r' :=
  encScan_induct (fun _ _ _ => encStep_grows) bs (.refl h) hs

theorem encFlush_size {a : EncArgs} {r r' : EncRun} (h : encFlush a r = .ok r') : r'.size = r.size := by
  obtain ⟨-, rfl⟩ | ⟨p, -, hemit⟩ := encFlush_cases h
  · rfl
  · exact (emit_table hemit).2.1

/-- Settles O20: the seeded size, and the growth of the scan. -/
theorem encodeCapacityBound : Obligations.EncodeCapacityBound := by
  refine ⟨fun k keep testing training s n hlegal hstart => ?_, fun a msg r r₁ r₂ hseeded hbounded hscan hflush => ?_⟩
  · obtain ⟨rfl, hfits⟩ := encodeStart_size hstart
    exact ⟨seeded_startSize (.inr hlegal), hfits⟩
  · obtain ⟨hle, hfits, hemissions, -⟩ := encScan_grows hbounded hscan
    exact ⟨hseeded.trans hle, hfits, hle, hemissions, fun hfull => hfits.antisymm (hfull.symm.trans_le hle),
      encFlush_size hflush⟩

/-! ## The dictionary after the command -/

/-- A dictionary size of a run fits its register (R29). -/
theorem toNat_ofNat_size {k size : Nat} (hwidth : legalWidth k = true) (h : size ≤ capacity k) :
    (BitVec.ofNat 32 size).toNat = size :=
  Nat.mod_eq_of_lt (Nat.lt_of_le_of_lt (h.trans (capacity_le_of_legalWidth hwidth)) (by decide))

/-- The dictionary of a whole run has grown from the one it was seeded with. -/
theorem encodeRun_grows {k : Nat} {keep testing training : Bool} {s : State} {r : EncRun}
    (h : encodeRun k keep testing training s = .ok r) :
    startSize keep s ≤ r.size ∧ (BitVec.ofNat 32 r.size).toNat = r.size ∧
      ∀ c, c < startSize keep s → cellGet r.table c = cellGet s.encTable c := by
  obtain ⟨size, r₁, hstart, hscan, hflush⟩ := encodeRun_ok h
  obtain ⟨rfl, hfits⟩ := encodeStart_size hstart
  obtain ⟨-, hwidth, -, -⟩ := encodeStart_ok hstart
  obtain ⟨hle, hbounded, -, hentries⟩ := encScan_grows hfits hscan
  rw [encFlush_size hflush, encFlush_table hflush]
  exact ⟨hle, toNat_ofNat_size hwidth hbounded, hentries⟩

theorem encStep_testing_size {a : EncArgs} {b : Symbol} {r r' : EncRun} (ht : a.testing = true)
    (h : encStep a b r = .ok r') : r'.size = r.size := by
  obtain ⟨-, rfl⟩ | ⟨p, c, -, -, rfl⟩ | ⟨p, r₁, -, -, hemit, rfl⟩ := encStep_cases h
  · rfl
  · rfl
  · obtain ⟨-, hfalse, -⟩ | hins := encInsert_cases a p b r₁
    · simp [ht] at hfalse
    · rw [hins]
      exact (emit_table hemit).2.1

/-- A testing run ends with the size it was seeded to (R128). -/
theorem encodeRun_testing_size {k : Nat} {keep training : Bool} {s : State} {r : EncRun}
    (h : encodeRun k keep true training s = .ok r) : r.size = startSize keep s := by
  obtain ⟨size, r₁, hstart, hscan, hflush⟩ := encodeRun_ok h
  rw [encFlush_size hflush, ← (encodeStart_size hstart).1]
  exact encScan_induct (P := fun u => u.size = size)
    (fun _ _ _ hu hstep => (encStep_testing_size rfl hstep).trans hu) _ rfl hscan

/-- Testing leaves the dictionary as it was seeded (R127, R128). -/
theorem exec_encode_testing_dict {k : Nat} {keep training : Bool} {s t : State}
    (h : exec (.encode k keep true training) s = .next t) (hfault : t.status.fault = false) :
    t.encTable = s.encTable ∧ t.encSize.toNat = startSize keep s := by
  obtain ⟨r, hrun, rfl⟩ := run_of_exec_encode h hfault
  rw [encodeFinish_encTable, encodeFinish_encSize, if_pos (by simp), (encodeRun_grows hrun).2.1]
  exact ⟨encodeRun_testing_table hrun, encodeRun_testing_size hrun⟩

/-- A command that R23 lets write neither `ENC_SIZE` nor the table keeps the encode dictionary. -/
theorem exec_keeps_encDict {i : Instr} {s t : State} (h : exec i s = .next t) (hsize : ¬commandWrites i .encSize)
    (htable : ¬commandWrites i .encTable) : t.encSize = s.encSize ∧ t.encTable = s.encTable :=
  ⟨exec_kept (p := .encSize) h hsize, exec_kept (p := .encTable) h htable⟩

/-- Settles O25: the modes of ENCODE by the end of the run, its faults by the fault entry, the other commands by what
they write. -/
theorem encodeDictionaryLifecycle : Obligations.EncodeDictionaryLifecycle := by
  refine ⟨fun k keep s t h => ?_, fun k keep testing training s t hs h hfault => ?_, fun k keep s t h hfault => ?_,
    fun k keep s t _ h hfault => ?_, fun k s t h => ?_, fun s t h => ?_, fun s t rest hp h => ?_⟩
  · obtain ⟨e, -, he⟩ | ⟨r, -, he⟩ := execEncode_cases k keep false false s <;> cases h.symm.trans he <;> rfl
  · obtain ⟨e, -, he⟩ | ⟨r, -, he⟩ := execEncode_cases k keep testing training s <;> cases h.symm.trans he
    · exact faultEntry_encSize_encode ..
    · rw [(encodeFinish_completed testing training r s).status, hs] at hfault
      cases hfault
  · exact (exec_encode_testing_dict h hfault).symm
  · obtain ⟨r, hrun, rfl⟩ := run_of_exec_encode h hfault
    obtain ⟨hle, hsize, hentries⟩ := encodeRun_grows hrun
    exact ⟨hle.trans_eq hsize.symm, hentries⟩
  · rcases h with h | h | h <;> exact exec_keeps_encDict h id id
  · cases h
    rfl
  · cases h.symm.trans (step_resetInput hp)
    rfl

end Sys2Proof.Machine

/-! # The codes of ENCODE (O19, O21, O22, O23)

That the codes fit K bits (O21) needs no sound table: a code that is found or inserted is below the size. Where the
codes do not fit `CODE` (O19) is told by the simulation of the source's run up to the symbol concerned. -/

namespace Sys2Proof.Machine

/-! ## The codes fit the width -/

/-- The pending code and the codes written are codes of a dictionary with the roots and of at most 2^K entries (R130,
R131). -/
structure EncRunFits (a : EncArgs) (r : EncRun) : Prop where
  seeded : 256 ≤ r.size
  bounded : r.size ≤ capacity a.k
  cur : ∀ p, r.cur = some p → p < r.size
  codes : ∀ c ∈ r.out, c.toNat < capacity a.k

theorem emit_fits {a : EncArgs} {p : Nat} {r r' : EncRun} (h : EncRunFits a r) (hcur : r.cur = some p)
    (he : emit a p r = .ok r') : EncRunFits a r' := by
  obtain ⟨-, rfl⟩ | ⟨-, -, rfl⟩ := emit_cases he
  · exact ⟨h.seeded, h.bounded, h.cur, h.codes⟩
  · have hp : (BitVec.ofNat 16 p).toNat < capacity a.k :=
      Nat.lt_of_le_of_lt (Nat.mod_le _ _) ((h.cur p hcur).trans_le h.bounded)
    exact ⟨h.seeded, h.bounded, h.cur, List.forall_mem_cons.mpr ⟨hp, h.codes⟩⟩

theorem encAdvance_fits {a : EncArgs} {c : Nat} {r : EncRun} (h : EncRunFits a r) (hc : c < r.size) :
    EncRunFits a (encAdvance c r) :=
  ⟨h.seeded, h.bounded, fun _ hp => Option.some.inj hp ▸ hc, h.codes⟩

theorem encInsert_fits {a : EncArgs} {r : EncRun} (p : Nat) (b : Symbol) (h : EncRunFits a r) :
    EncRunFits a (encInsert a p b r) := by
  obtain ⟨hroom, -, hins⟩ | hins := encInsert_cases a p b r <;> rw [hins]
  · exact ⟨Nat.le_succ_of_le h.seeded, hroom, fun q hq => Nat.lt_succ_of_lt (h.cur q hq), h.codes⟩
  · exact h

theorem EncRunFits.root_lt {a : EncArgs} {r : EncRun} (h : EncRunFits a r) (b : Symbol) : b.toNat < r.size :=
  b.isLt.trans_le h.seeded

theorem encStep_fits {a : EncArgs} {b : Symbol} {r r' : EncRun} (h : EncRunFits a r)
    (hs : encStep a b r = .ok r') : EncRunFits a r' := by
  obtain ⟨-, rfl⟩ | ⟨p, c, -, hfind, rfl⟩ | ⟨p, r₁, hcur, -, hemit, rfl⟩ := encStep_cases hs
  · exact encAdvance_fits h (h.root_lt b)
  · exact encAdvance_fits h (efind_lt hfind)
  · have hins := encInsert_fits p b (emit_fits h hcur hemit)
    exact encAdvance_fits hins (hins.root_lt b)

theorem encodeRun_fits {k : Nat} {keep testing training : Bool} {s : State} {r : EncRun}
    (hdict : FreshStart keep s ∨ sizeLegal s.encSize) (h : encodeRun k keep testing training s = .ok r) :
    EncRunFits (encArgs k testing training s) r := by
  obtain ⟨size, r₁, hstart, hscan, hflush⟩ := encodeRun_ok h
  obtain ⟨rfl, hbounded⟩ := encodeStart_size hstart
  have hinit : EncRunFits (encArgs k testing training s) (encInit (startSize keep s) s.encTable) :=
    ⟨seeded_startSize hdict, hbounded, by simp [encInit], by simp [encInit]⟩
  have h₁ := encScan_induct (fun _ _ _ => encStep_fits) _ hinit hscan
  obtain ⟨-, rfl⟩ | ⟨p, hcur, hemit⟩ := encFlush_cases hflush
  · exact h₁
  · exact emit_fits h₁ hcur hemit

/-- What an ENCODE with an output leaves in `CODE` (R127). -/
theorem readCode_encodeFinish {testing : Bool} {r : EncRun} {i : Nat} (s : State) (hi : i < r.out.reverse.length) :
    readCode (encodeFinish testing false r s) i = r.out.reverse[i] :=
  readCode_produceCode (encodeKeep testing false r s) hi

/-- `CODE_LEN` counts the codes written (R125, R127). -/
theorem codeLen_encodeFinish {k : Nat} {keep testing : Bool} {s : State} {r : EncRun}
    (h : encodeRun k keep testing false s = .ok r) :
    (encodeFinish testing false r s).codeLen.toNat = r.out.reverse.length := by
  obtain ⟨hcounted, hroom⟩ := encodeRun_encRunWritten h
  rw [List.length_reverse, hcounted]
  exact toNat_ofNat_of_le_cap hroom

/-- With a legal width and codes that fit it, only room can be missing in a PACK (R181, R186). -/
theorem packRun_error_of_codes_lt {k : Nat} {s : State} {e : Raise} (hwidth : legalWidth k = true)
    (hcodes : ∀ i, i < s.codeLen.toNat → (readCode s i).toNat < 2 ^ k) (h : packRun k s = .error e) :
    e.cause = .bufferOverflow := by
  simp only [packRun, hwidth, codeOutOfRange_eq_none hcodes, Bool.not_true, Bool.false_eq_true, if_false] at h
  split at h
  · cases h
    rfl
  · split at h
    · cases h
      rfl
    · cases h

/-- Settles O21: the codes written fit, so PACK finds none out of range, and K is legal for both commands. -/
theorem encodedCodesFitTheWidth : Obligations.EncodedCodesFitTheWidth := by
  intro k keep testing s t hdict h hfault
  obtain ⟨r, hrun, rfl⟩ := run_of_exec_encode h hfault
  have hcodes : ∀ i, i < (encodeFinish testing false r s).codeLen.toNat →
      (readCode (encodeFinish testing false r s) i).toNat < 2 ^ k := by
    intro i hi
    rw [codeLen_encodeFinish hrun] at hi
    rw [readCode_encodeFinish s hi]
    exact (encodeRun_fits (hdict.imp_right EncDictSound.size) hrun).codes _
      (List.mem_reverse.mp (List.getElem_mem hi))
  refine ⟨hcodes, fun u hu hufault => ?_⟩
  obtain ⟨size, -, hstart, -, -⟩ := encodeRun_ok hrun
  obtain ⟨-, hwidth, -, -⟩ := encodeStart_ok hstart
  obtain ⟨e, hpack, he⟩ | ⟨bytes, -, he⟩ := execPack_cases k (encodeFinish testing false r s) <;> cases hu.symm.trans he
  · rw [faultEntry_status, ← packRun_error_of_codes_lt hwidth hcodes hpack]
    rfl
  · cases hfault.symm.trans hufault

/-! ## Testing mode -/

/-- Among the roots alone nothing extended is found (R37). -/
theorem efind_roots (t : Table) (p : Nat) (b : Symbol) : efind t 256 p b = none := by
  cases h : efind t 256 p b with
  | none => rfl
  | some c =>
    simp only [efind, Option.map_eq_some_iff] at h
    obtain ⟨x, hx, -⟩ := h
    have hfound := List.find?_some hx
    simp only [Bool.and_eq_true, decide_eq_true_eq] at hfound
    omega

/-- Testing from the roots: the codes written and the pending one are the symbols read (R128). -/
structure EncRunCopies (read : List Symbol) (r : EncRun) : Prop where
  roots : r.size = 256
  codes : r.out.reverse ++ r.cur.toList.map (BitVec.ofNat 16) = read.map (BitVec.setWidth 16)

theorem encStep_copies {a : EncArgs} {read : List Symbol} {b : Symbol} {r r' : EncRun} (ht : a.testing = true)
    (hw : a.training = false) (h : EncRunCopies read r) (hs : encStep a b r = .ok r') :
    EncRunCopies (read ++ [b]) r' := by
  obtain ⟨hroots, hcodes⟩ := h
  refine ⟨(encStep_testing_size ht hs).trans hroots, ?_⟩
  rw [List.map_append, ← hcodes]
  obtain ⟨hcur, rfl⟩ | ⟨p, c, -, hfind, -⟩ | ⟨p, r₁, hcur, -, hemit, rfl⟩ := encStep_cases hs
  · simp [hcur]
  · rw [hroots, efind_roots] at hfind
    cases hfind
  · obtain ⟨htraining, -⟩ | ⟨-, -, rfl⟩ := emit_cases hemit
    · simp [hw] at htraining
    · simp [hcur]

theorem encodeRun_copies {k : Nat} {keep : Bool} {s : State} {r : EncRun} (hfresh : FreshStart keep s)
    (h : encodeRun k keep true false s = .ok r) : r.out.reverse = (rawInput s).map (BitVec.setWidth 16) := by
  obtain ⟨size, r₁, hstart, hscan, hflush⟩ := encodeRun_ok h
  obtain ⟨rfl, -⟩ := encodeStart_size hstart
  have hinit : EncRunCopies [] (encInit (startSize keep s) s.encTable) := ⟨startSize_of_freshStart hfresh, rfl⟩
  have h₁ : EncRunCopies (rawInput s) r₁ :=
    encScan_read_induct (fun _ _ _ _ => encStep_copies rfl rfl) _ hinit hscan
  rw [← h₁.codes]
  obtain ⟨hcur, rfl⟩ | ⟨p, hcur, hemit⟩ := encFlush_cases hflush
  · simp [hcur]
  · obtain ⟨htraining, -⟩ | ⟨-, -, rfl⟩ := emit_cases hemit
    · cases htraining
    · simp [hcur]

/-- Settles O22: the frozen dictionary, and from the roots the run that copies. -/
theorem testingModeFreezesTheDictionary : Obligations.TestingModeFreezesTheDictionary := by
  refine ⟨fun k keep training s t h hfault => exec_encode_testing_dict h hfault,
    fun k keep s hfresh hlow hhigh hraw hroom => ?_⟩
  have hstart := startSize_of_freshStart hfresh
  obtain ⟨r, hrun, -, -⟩ := encodeRun_ok_of_room (testing := true) (training := false) (by decide) hlow hhigh hraw
    (hstart.trans_le (roots_le_capacity hlow)) fun _ => hroom
  have hcopies := encodeRun_copies hfresh hrun
  have hlen : r.out.reverse.length = s.rawLen.toNat := by rw [hcopies, List.length_map, length_rawInput]
  refine ⟨_, exec_encode_of_run_ok hrun, encodeFinish_completed true false r s, ?_, ?_, fun i hi => ?_⟩
  · rw [encodeFinish_encSize, encodeRun_testing_size hrun, hstart]
    rfl
  · exact BitVec.eq_of_toNat_eq ((codeLen_encodeFinish hrun).trans hlen)
  · rw [readCode_encodeFinish s (hi.trans_eq hlen.symm)]
    simp [hcopies, rawInput]

/-! ## Training mode -/

/-- A run that has written no codes, for a run that has (R129). -/
def EncRun.unwritten (r : EncRun) : EncRun := { r with out := [] }

/-- The training command that reads the same input (R129). -/
def EncArgs.trained (a : EncArgs) : EncArgs := { a with training := true }

theorem emit_trained {a : EncArgs} {c : Nat} {r r' : EncRun} (h : emit a c r = .ok r') :
    emit a.trained c r.unwritten = .ok r'.unwritten := by
  rw [emit_of_training rfl]
  obtain ⟨-, rfl⟩ | ⟨-, -, rfl⟩ := emit_cases h <;> rfl

theorem encInsert_trained (a : EncArgs) (p : Nat) (b : Symbol) (r : EncRun) :
    encInsert a.trained p b r.unwritten = (encInsert a p b r).unwritten := by
  unfold encInsert
  by_cases hroom : r.size < capacity a.k ∧ a.testing = false
  · rw [if_pos hroom]
    exact if_pos hroom
  · rw [if_neg hroom]
    exact if_neg hroom

/-- One symbol takes the same branch, because the dictionaries are the same (R124, R129). -/
theorem encStep_trained {a : EncArgs} {b : Symbol} {r r' : EncRun} (h : encStep a b r = .ok r') :
    encStep a.trained b r.unwritten = .ok r'.unwritten := by
  have hcur : r.unwritten.cur = r.cur := rfl
  have hfind (p : Nat) : efind r.unwritten.table r.unwritten.size p b = efind r.table r.size p b := rfl
  obtain ⟨hnone, rfl⟩ | ⟨p, c, hsome, hhit, rfl⟩ | ⟨p, r₁, hsome, hmiss, hemit, rfl⟩ := encStep_cases h
  · simp only [encStep, hcur, hnone]
    rfl
  · simp only [encStep, hcur, hsome, hfind, hhit]
    rfl
  · simp only [encStep, hcur, hsome, hfind, hmiss, emit_trained hemit, encInsert_trained]
    rfl

theorem encScan_trained {a : EncArgs} {bs : List Symbol} {r r' : EncRun} (h : encScan a bs r = .ok r') :
    encScan a.trained bs r.unwritten = .ok r'.unwritten := by
  induction bs generalizing r with
  | nil =>
    cases h
    rfl
  | cons b bs ih =>
    simp only [encScan] at h ⊢
    split at h
    · cases h
    · next hstep =>
      simp only [encStep_trained hstep]
      exact ih h

theorem encFlush_trained {a : EncArgs} {r r' : EncRun} (h : encFlush a r = .ok r') :
    encFlush a.trained r.unwritten = .ok r'.unwritten := by
  have hcur : r.unwritten.cur = r.cur := rfl
  unfold encFlush
  obtain ⟨hnone, rfl⟩ | ⟨p, hsome, hemit⟩ := encFlush_cases h
  · rw [hcur, hnone]
  · rw [hcur, hsome]
    exact emit_trained hemit

/-- Where compress mode ends without a fault, training does, with the same dictionary (R129). -/
theorem encodeRun_trained {k : Nat} {keep : Bool} {s : State} {r : EncRun}
    (h : encodeRun k keep false false s = .ok r) : encodeRun k keep false true s = .ok r.unwritten := by
  obtain ⟨size, r₁, hstart, hscan, hflush⟩ := encodeRun_ok h
  have hscan' : encScan (encArgs k false true s) (rawInput s) (encInit size s.encTable) = .ok r₁.unwritten :=
    encScan_trained hscan
  have hflush' : encFlush (encArgs k false true s) r₁.unwritten = .ok r.unwritten := encFlush_trained hflush
  have hstart' : encodeStart k keep false true s = .ok size := hstart
  simp only [encodeRun, hstart', hscan', hflush']

/-- Settles O23: what training may not write is kept, and the compress-mode run without its codes is the training
run. -/
theorem trainingModeBuildsTheDictionary : Obligations.TrainingModeBuildsTheDictionary := by
  refine ⟨fun k keep testing s t h => ?_, fun k keep s r h => ?_⟩
  · exact ⟨exec_kept (p := .code) h Bool.noConfusion, exec_kept (p := .codeLen) h Bool.noConfusion⟩
  · exact ⟨_, exec_encode_of_run_ok (encodeRun_trained h), encodeFinish_completed .., rfl, rfl⟩

/-! ## Where the codes do not fit -/

/-- `CODE` is full when an emission comes (R125, R248 (c)). -/
theorem emit_of_full {a : EncArgs} {r : EncRun} (h : a.training = false) (hfull : a.codeCap ≤ r.nOut) (c : Nat) :
    emit a c r = .error ⟨.bufferOverflow, r.pos⟩ := by
  rw [emit, if_neg (by simp [h]), if_pos hfull]

/-- A symbol at which the source emits is a miss, and with `CODE` full its emission faults (R124, R125). -/
theorem encStep_of_full {a : EncArgs} {r : EncRun} {q : SrcRun} {b : Symbol} (h : EncSimulates a r q)
    (ht : a.training = false) (hfull : a.codeCap ≤ r.nOut)
    (hemits : q.codes.length < (srcStep a.k a.testing b q).codes.length) :
    encStep a b r = .error ⟨.bufferOverflow, r.pos⟩ := by
  cases hstep : encStep a b r with
  | error e =>
    obtain ⟨p, -, -, hemit⟩ := encStep_error hstep
    exact hemit.symm.trans (emit_of_full ht hfull p)
  | ok r' =>
    have hmiss : q.seq ++ [b] ∉ q.dict := fun hmem => by
      rw [srcStep_hit hmem] at hemits
      exact Nat.lt_irrefl _ hemits
    refine absurd ?_ hmiss
    rw [← h.dict]
    obtain ⟨hcur, -⟩ | ⟨p, c, hcur, hfind, -⟩ | ⟨p, r₁, -, -, hemit, -⟩ := encStep_cases hstep
    · obtain ⟨-, hseq⟩ | ⟨p, hsome, -⟩ := h.pending
      · rw [hseq]
        exact mem_tableKeys.mpr ⟨_, b.isLt.trans_le h.seeded, seqOf_symbol _ b⟩
      · simp [hcur] at hsome
    · obtain ⟨hnone, -⟩ | ⟨p', hsome, -, hseq⟩ := h.pending
      · simp [hcur] at hnone
      · obtain rfl : p = p' := Option.some.inj (hcur.symm.trans hsome)
        obtain ⟨hc, hkey⟩ := h.keys.seqOf_of_efind hfind
        exact mem_tableKeys.mpr ⟨c, hc, hkey.trans (by rw [hseq])⟩
    · rw [emit_of_full ht hfull p] at hemit
      cases hemit

theorem srcScan_take_succ {k p : Nat} {testing : Bool} {msg : List Symbol} (hp : p < msg.length) (q : SrcRun) :
    srcScan k testing (msg.take (p + 1)) q = srcStep k testing msg[p] (srcScan k testing (msg.take p) q) := by
  rw [← List.take_concat_get' _ _ hp, srcScan_append]
  rfl

/-- A symbol that faults ends the scan (R124, R257). -/
theorem encScan_of_step_error {a : EncArgs} {msg : List Symbol} {p : Nat} {r₀ r : EncRun} {e : Raise}
    (hp : p < msg.length) (hscan : encScan a (msg.take p) r₀ = .ok r) (hstep : encStep a msg[p] r = .error e) :
    encScan a msg r₀ = .error e := by
  have hcut : msg = msg.take p ++ msg[p] :: msg.drop (p + 1) := by
    rw [← List.drop_eq_getElem_cons hp, List.take_append_drop]
  rw [hcut, encScan_append, hscan]
  simp only [encScan, hstep]

/-- The run up to a symbol before which the codes fit (R125): it simulates the source's. -/
theorem encScan_take_simulates {k p : Nat} {keep testing : Bool} {s : State} (hlow : 9 ≤ k) (hhigh : k ≤ 16)
    (hsize : startSize keep s ≤ capacity k) (hw : cellsWf s.encTable) (hstart : FreshStart keep s ∨ EncDictSound s)
    (hp : p ≤ s.rawLen.toNat)
    (hroom : emittedBefore k testing (tableKeys s.encTable (startSize keep s)) (rawInput s) p ≤ s.caps.code.toNat) :
    ∃ r, encScan (encArgs k testing false s) ((rawInput s).take p) (encInit (startSize keep s) s.encTable) = .ok r ∧
      r.pos = p ∧ EncSimulates (encArgs k testing false s) r
        (srcScan k testing ((rawInput s).take p) (srcInit (tableKeys s.encTable (startSize keep s)))) := by
  obtain ⟨hkeys, hseeded⟩ := keysSound_startSize hw hstart
  have hk : capacity k ≤ 65536 := capacity_le_of_legalWidth (legalWidth_iff.mpr ⟨hlow, hhigh⟩)
  obtain ⟨r, hscan, hsim⟩ := encScan_simulates (a := encArgs k testing false s) ((rawInput s).take p) hk
    (.init hkeys hseeded hsize) fun _ => hroom
  refine ⟨r, hscan, ?_, hsim⟩
  rw [encScan_pos hscan, List.length_take_of_le (hp.trans_eq (length_rawInput s).symm)]
  exact Nat.zero_add p

/-- Settles O19: the run up to the symbol simulates the source's, so it has as many codes as the source counts; the
next emission faults. -/
theorem encodeOverflowsAtTheCodeThatDoesNotFit : Obligations.EncodeOverflowsAtTheCodeThatDoesNotFit := by
  rintro k keep testing s dict hlow hhigh hraw hsize hw hstart rfl
  have hbegin : encodeStart k keep testing false s = .ok (startSize keep s) :=
    encodeStart_eq_ok (by simp) (legalWidth_iff.mpr ⟨hlow, hhigh⟩) hraw hsize
  refine ⟨fun p hp hfull hnext => exec_encode_of_run_error ?_, fun hne hfull => exec_encode_of_run_error ?_⟩
  · obtain ⟨r, hscan, hpos, hsim⟩ := encScan_take_simulates hlow hhigh hsize hw hstart hp.le hfull.le
    have hlen : p < (rawInput s).length := by rwa [length_rawInput]
    have hcounted : s.caps.code.toNat ≤ r.nOut := (hsim.counted.trans hfull).ge
    have hemits := hfull.trans_lt ((Nat.lt_succ_self _).trans_eq hnext.symm)
    rw [emittedBefore, emittedBefore, srcScan_take_succ hlen] at hemits
    have hstep := encStep_of_full hsim rfl hcounted hemits
    simp only [encodeRun, hbegin, encScan_of_step_error hlen hscan hstep, hpos]
  · obtain ⟨r, hscan, hpos, hsim⟩ := encScan_take_simulates hlow hhigh hsize hw hstart le_rfl hfull.le
    have hcounted : s.caps.code.toNat ≤ r.nOut := (hsim.counted.trans hfull).ge
    have hpending : r.cur ≠ none := fun hnone => by
      have hzero := (encScan_induct (fun _ _ _ => encStep_counted) _ (encInit_counted _ _) hscan).pending.mp hnone
      exact hne (BitVec.eq_of_toNat_eq (hpos.symm.trans hzero))
    obtain ⟨c, hcur⟩ := Option.ne_none_iff_exists'.mp hpending
    rw [List.take_of_length_le (length_rawInput s).le] at hscan
    simp only [encodeRun, hbegin, hscan, encFlush, hcur, emit_of_full (a := encArgs k testing false s) rfl hcounted,
      hpos]

end Sys2Proof.Machine

/-! # The trained dictionary (O24)

From the roots the source's dictionary is the roots and, in order, the candidates that missed while there was room:
`GrownByMisses`. The training run simulates the source's run, so its size is the length of that list; and the keys of a
dictionary determine its entries (`KeysSound.sameBelow_of_tableKeys_eq`), so two training runs on one input have one
dictionary. -/

namespace Sys2Proof.Machine

/-! ## Distinct misses -/

/-- The keys inserted since the roots are distinct missed candidates, and all of them while there is room (R124,
R132). -/
def GrownByMisses (k : Nat) (q : SrcRun) : Prop :=
  ∃ new, q.dict = rootKeys ++ new ∧ new.Nodup ∧ new ⊆ q.missed ∧ q.dict.length ≤ capacity k ∧
    (q.dict.length < capacity k → q.missed ⊆ new)

theorem srcInit_grownByMisses {k : Nat} (h : 256 ≤ capacity k) : GrownByMisses k (srcInit rootKeys) :=
  ⟨[], (List.append_nil _).symm, List.nodup_nil, List.nil_subset _, length_rootKeys.trans_le h,
    fun _ => List.nil_subset _⟩

theorem srcStep_grownByMisses {k : Nat} {q : SrcRun} (b : Symbol) (h : GrownByMisses k q) :
    GrownByMisses k (srcStep k false b q) := by
  by_cases hmem : q.seq ++ [b] ∈ q.dict
  · rwa [srcStep_hit hmem]
  · obtain ⟨new, hdict, hnodup, hmissed, hbounded, hall⟩ := h
    have hgrown : new ⊆ q.missed ++ [q.seq ++ [b]] := List.subset_append_of_subset_left _ hmissed
    rw [srcStep_miss hmem]
    by_cases hroom : q.dict.length < capacity k
    · rw [if_pos ⟨hroom, rfl⟩]
      have hnew : q.seq ++ [b] ∉ new := fun h => hmem (hdict ▸ List.mem_append_right _ h)
      refine ⟨new ++ [q.seq ++ [b]], by rw [hdict, List.append_assoc], ?_, ?_, by simpa using hroom, fun _ => ?_⟩
      · exact hnodup.append (List.nodup_singleton _) (List.disjoint_singleton.mpr hnew)
      · exact List.append_subset.mpr ⟨hgrown, List.subset_append_right _ _⟩
      · exact List.append_subset.mpr
          ⟨List.subset_append_of_subset_left _ (hall hroom), List.subset_append_right _ _⟩
    · rw [if_neg fun h => hroom h.1]
      exact ⟨new, hdict, hnodup, hgrown, hbounded, fun h => absurd h hroom⟩

theorem srcScan_grownByMisses {k : Nat} {q : SrcRun} (bs : List Symbol) (h : GrownByMisses k q) :
    GrownByMisses k (srcScan k false bs q) := by
  induction bs generalizing q with
  | nil => exact h
  | cons b bs ih => exact ih (srcStep_grownByMisses b h)

/-- The flush adds neither a key nor a miss (R126). -/
theorem srcEncode_grownByMisses {k : Nat} (msg : List Symbol) (h : 256 ≤ capacity k) :
    GrownByMisses k (srcEncode k false rootKeys msg) := by
  have hscan := srcScan_grownByMisses msg (srcInit_grownByMisses h)
  simp only [srcEncode]
  split <;> exact hscan

/-- The size of R132: every distinct miss has its key, or the dictionary is full. -/
theorem GrownByMisses.dict_length {k : Nat} {q : SrcRun} (h : GrownByMisses k q) :
    q.dict.length = min (256 + q.missed.dedup.length) (capacity k) := by
  obtain ⟨new, hdict, hnodup, hmissed, hbounded, hall⟩ := h
  have hlen : q.dict.length = 256 + new.length := by rw [hdict, List.length_append, length_rootKeys]
  have hle : new.length ≤ q.missed.dedup.length :=
    (hnodup.subperm fun w hw => List.mem_dedup.mpr (hmissed hw)).length_le
  rcases hbounded.lt_or_eq with hroom | hfull
  · have hge : q.missed.dedup.length ≤ new.length :=
      ((List.nodup_dedup _).subperm fun w hw => hall hroom (List.mem_dedup.mp hw)).length_le
    omega
  · omega

/-! ## Keys determine entries -/

theorem seqOf_of_tableKeys_eq {t t' : Table} {size c : Nat} (h : tableKeys t size = tableKeys t' size)
    (hc : c < size) : seqOf t c = seqOf t' c := by
  have hget := congrArg (·[c]?) h
  simpa [tableKeys, hc] using hget

/-- The last symbol of a key is its entry's symbol, and the rest is the key of its parent, which no other code has
(R35, R36). -/
theorem KeysSound.sameBelow_of_tableKeys_eq {t t' : Table} {size : Nat} (h : KeysSound t size)
    (h' : KeysSound t' size) (heq : tableKeys t size = tableKeys t' size) : SameBelow size t t' := by
  intro c hlow hc
  obtain ⟨⟨parent, sym⟩, hget, hparent⟩ := h.parents c hlow hc
  obtain ⟨⟨parent', sym'⟩, hget', hparent'⟩ := h'.parents c hlow hc
  have hseq := seqOf_of_tableKeys_eq heq hc
  rw [seqOf_extended h.parents hlow hc hget, seqOf_extended h'.parents hlow hc hget'] at hseq
  obtain ⟨hprefix, hlast⟩ := List.append_inj' hseq rfl
  rw [← seqOf_of_tableKeys_eq heq (hparent'.trans hc)] at hprefix
  obtain rfl : parent = parent' :=
    BitVec.eq_of_toNat_eq (h.seqOf_inj (hparent.trans hc) (hparent'.trans hc) hprefix)
  obtain rfl : sym = sym' := List.singleton_inj.mp hlast
  rw [hget, hget']

/-! ## The training command -/

/-- A training run from the roots simulates the source's on the same input (R129, R132). -/
theorem encodeRun_training_simulates {k : Nat} {keep : Bool} {s : State} {r : EncRun} (hfresh : FreshStart keep s)
    (hw : cellsWf s.encTable) (h : encodeRun k keep false true s = .ok r) :
    EncSimulates (encArgs k false true s) r (srcEncode k false rootKeys (rawInput s)) := by
  obtain ⟨size, r₁, hstart, hscan, hflush⟩ := encodeRun_ok h
  obtain ⟨-, hwidth, -, -⟩ := encodeStart_ok hstart
  obtain ⟨hsize, hbounded⟩ := encodeStart_size hstart
  obtain rfl : size = 256 := hsize.trans (startSize_of_freshStart hfresh)
  obtain ⟨r₁', r', hscan', hflush', hsim⟩ := encScan_encFlush_simulates (a := encArgs k false true s) (rawInput s)
    (capacity_le_of_legalWidth hwidth) (.seed hw) le_rfl hbounded (by simp [encArgs])
  cases hscan.symm.trans hscan'
  cases hflush.symm.trans hflush'
  rwa [tableKeys_root] at hsim

/-- A successful training leaves the source's dictionary (R127, R129). -/
theorem exec_encode_training_dict {k : Nat} {keep : Bool} {s t : State} (hfresh : FreshStart keep s)
    (hw : cellsWf s.encTable) (h : exec (.encode k keep false true) s = .next t) (hfault : t.status.fault = false) :
    legalWidth k = true ∧ KeysSound t.encTable t.encSize.toNat ∧
      tableKeys t.encTable t.encSize.toNat = (srcEncode k false rootKeys (rawInput s)).dict := by
  obtain ⟨r, hrun, rfl⟩ := run_of_exec_encode h hfault
  obtain ⟨size, -, hstart, -, -⟩ := encodeRun_ok hrun
  obtain ⟨-, hwidth, -, -⟩ := encodeStart_ok hstart
  have hsim := encodeRun_training_simulates hfresh hw hrun
  rw [encodeFinish_encTable, encodeFinish_encSize, if_pos (by simp), toNat_ofNat_size hwidth hsim.bounded]
  exact ⟨hwidth, hsim.keys, hsim.dict⟩

/-- Settles O24: the trained keys are the source's, whose number counts the distinct misses; and they determine the
entries. -/
theorem trainedSizeCountsDistinctMisses : Obligations.TrainedSizeCountsDistinctMisses := by
  refine ⟨fun k keep s t hfresh hw h hfault => ?_,
    fun k keep₁ keep₂ s₁ s₂ t₁ t₂ hfresh₁ hfresh₂ hw₁ hw₂ hraw h₁ hfault₁ h₂ hfault₂ => ?_⟩
  · obtain ⟨hwidth, -, hdict⟩ := exec_encode_training_dict hfresh hw h hfault
    have hroots := roots_le_capacity (legalWidth_iff.mp hwidth).1
    rw [← length_tableKeys t.encTable t.encSize.toNat, hdict]
    exact (srcEncode_grownByMisses (rawInput s) hroots).dict_length
  · obtain ⟨-, hkeys₁, hdict₁⟩ := exec_encode_training_dict hfresh₁ hw₁ h₁ hfault₁
    obtain ⟨-, hkeys₂, hdict₂⟩ := exec_encode_training_dict hfresh₂ hw₂ h₂ hfault₂
    have hdict : tableKeys t₁.encTable t₁.encSize.toNat = tableKeys t₂.encTable t₂.encSize.toNat := by
      rw [hdict₁, hdict₂, hraw.rawInput_eq]
    have hsize : t₁.encSize.toNat = t₂.encSize.toNat := by simpa using congrArg List.length hdict
    rw [← hsize] at hkeys₂ hdict
    exact ⟨BitVec.eq_of_toNat_eq hsize, fun c hlow hc =>
      (hkeys₁.sameBelow_of_tableKeys_eq hkeys₂ hdict c hlow hc).symm⟩

end Sys2Proof.Machine

/-! # DECODE: where it ends and with what (O28, O29, O30, O31, O32)

On the source's side, which codes have an entry depends only on the size of the dictionary, and so on the index of the
code (`srcDecode_isSome_iff`); and either the whole input is read and its output fits, or there is a first code that has
no entry or whose sequence does not fit (`srcDecode_fits_or_stops`). On the machine's side, the run after the codes that
were read and fit is followed with the source's (`DecSimulates`) and with the record of what it read (`DecReads`); from
it the next code is looked at. -/

namespace Sys2Proof.Machine

/-! ## The start of the command -/

theorem exec_decode_of_run_error {k : Nat} {s : State} {e : Raise} (h : decodeRun k s = .error e) :
    exec (.decode k) s = .next (faultEntry .decode e s) := by
  simp only [exec, execDecode, h]

theorem exec_decode_of_run_ok {k : Nat} {s : State} {r : DecRun} (h : decodeRun k s = .ok r) :
    exec (.decode k) s = .next (decodeFinish r s) := by
  simp only [exec, execDecode, h]

/-- When the start checks pass, the codes are read (R151, R160). -/
theorem decodeRun_eq_decCodes {k : Nat} {s : State} (hlow : 9 ≤ k) (hhigh : k ≤ 16)
    (hcode : s.codeLen.toNat ≤ s.caps.code.toNat) :
    decodeRun k s = decCodes k s.caps.raw.toNat s.decTable (codeInput s) := by
  simp only [decodeRun, legalWidth_iff.mpr ⟨hlow, hhigh⟩, Nat.not_lt.mpr hcode, Bool.not_true, Bool.false_eq_true,
    if_false]

/-- Settles O28: each check fails when the ones before it pass. -/
theorem decodeStartChecks : Obligations.DecodeStartChecks := by
  refine fun k s => ⟨fun hwidth => exec_decode_of_run_error ?_, fun hlow hhigh hcode => exec_decode_of_run_error ?_⟩
  · have hillegal : legalWidth k = false := by
      rw [Bool.eq_false_iff, ne_eq, legalWidth_iff]
      omega
    simp [decodeRun, hillegal]
  · simp [decodeRun, legalWidth_iff.mpr ⟨hlow, hhigh⟩, hcode]

/-- Settles O29: with no code the run is the seeded one (R152, R153). -/
theorem decodeOfNothingIsEmpty : Obligations.DecodeOfNothingIsEmpty := by
  intro k s hlow hhigh hempty
  have hnone : codeInput s = [] := by simp [codeInput, hempty]
  have hrun : decodeRun k s = .ok (decInit 0 s.decTable) := by
    rw [decodeRun_eq_decCodes hlow hhigh (by simp [hempty]), hnone]
    rfl
  exact ⟨_, exec_decode_of_run_ok hrun, ⟨rfl, rfl⟩, rfl, rfl⟩

/-! ## Which codes the source's decoder reads -/

/-- The code `c` may stand at index `j` (R163 (c), (d)): `Admissible`, said of the code itself. -/
def MayStand (k j c : Nat) : Prop := c ≤ 255 + j ∧ c < capacity k

/-- With the dictionary of the size it has at a later index, a code has an entry exactly when it may stand there. -/
theorem srcDecEntry_isSome_iff_mayStand {k n c : Nat} {d : SrcDec} (hlen : d.dict.length = min (255 + n) (capacity k)) :
    (srcDecEntry k c d).isSome ↔ MayStand k n c := by
  rw [srcDecEntry_isSome_iff, hlen, MayStand]
  omega

/-- The later codes are read exactly when each may stand where it stands: the dictionary grows by one with every code
until it is full (R158). -/
theorem srcDecScan_isSome_iff {k n : Nat} {cs : List Nat} {d : SrcDec}
    (hlen : d.dict.length = min (255 + n) (capacity k)) :
    (∃ d', srcDecScan k cs d = some d') ↔ ∀ j c, cs[j]? = some c → MayStand k (n + j) c := by
  induction cs generalizing n d with
  | nil => simp [srcDecScan]
  | cons c cs ih =>
    have hhead := srcDecEntry_isSome_iff_mayStand (c := c) hlen
    simp only [srcDecScan]
    cases hentry : srcDecEntry k c d with
    | none =>
      rw [hentry] at hhead
      exact ⟨by simp, fun h => absurd (hhead.mpr (h 0 c rfl)) Bool.noConfusion⟩
    | some w =>
      have hgrown : (srcDecUpdate k w d).dict.length = min (255 + (n + 1)) (capacity k) := by
        rw [srcDecUpdate_dict_length, hlen]
        split <;> omega
      have hc : MayStand k n c := hhead.mp (by rw [hentry]; rfl)
      refine (ih hgrown).trans ⟨fun h j c' hget => ?_, fun h j c' hget => ?_⟩
      · cases j with
        | zero => exact Option.some.inj hget ▸ hc
        | succ j => exact (Nat.succ_add_eq_add_succ n j) ▸ h j c' hget
      · exact (Nat.succ_add_eq_add_succ n j) ▸ h (j + 1) c' hget

/-- R157, R163 (d): the source's decoder has a result exactly when every code may stand where it stands. -/
theorem srcDecode_isSome_iff {k : Nat} (hroots : 256 ≤ capacity k) (codes : List Nat) :
    (∃ d, srcDecode k codes = some d) ↔ ∀ j c, codes[j]? = some c → MayStand k j c := by
  cases codes with
  | nil => simp [srcDecode]
  | cons c0 cs =>
    have hfirst : MayStand k 0 c0 ↔ c0 < 256 := by
      unfold MayStand
      omega
    have hsplit : (∀ j c, (c0 :: cs)[j]? = some c → MayStand k j c) ↔
        MayStand k 0 c0 ∧ ∀ j c, cs[j]? = some c → MayStand k (1 + j) c := by
      refine ⟨fun h => ⟨h 0 c0 rfl, fun j c hget => Nat.add_comm j 1 ▸ h (j + 1) c hget⟩, fun ⟨h0, h⟩ j c hget => ?_⟩
      cases j with
      | zero => exact Option.some.inj hget ▸ h0
      | succ j => exact Nat.add_comm 1 j ▸ h j c hget
    simp only [srcDecode, rootKeys_getElem?]
    by_cases hc : c0 < 256
    · have hlen : rootKeys.length = min (255 + 1) (capacity k) := by
        rw [length_rootKeys]
        omega
      rw [if_pos hc, hsplit, hfirst]
      exact (srcDecScan_isSome_iff hlen).trans (and_iff_right hc).symm
    · rw [if_neg hc, hsplit, hfirst]
      exact ⟨by simp, fun ⟨h, _⟩ => absurd h hc⟩

theorem getElem?_codeInput {s : State} {j : Nat} (h : j < s.codeLen.toNat) :
    (codeInput s)[j]? = some (readCode s j).toNat := by
  simp [codeInput, h]

/-- The same of the first codes of the command's input, in the terms of the statements. -/
theorem srcDecode_take_isSome_iff {k n : Nat} {s : State} (hlow : 9 ≤ k) (hn : n ≤ s.codeLen.toNat) :
    (∃ d, srcDecode k ((codeInput s).take n) = some d) ↔ ∀ j, j < n → Admissible k s j := by
  rw [srcDecode_isSome_iff (roots_le_capacity hlow)]
  refine ⟨fun h j hj => h j _ ?_, fun h j c hget => ?_⟩
  · rw [List.getElem?_take_of_lt hj, getElem?_codeInput (hj.trans_le hn)]
  · have hj : j < n := (List.getElem?_eq_some_iff.mp hget).1.trans_le (List.length_take_le n _)
    rw [List.getElem?_take_of_lt hj, getElem?_codeInput (hj.trans_le hn)] at hget
    exact Option.some.inj hget ▸ h j hj

/-- All codes are read and their output fits, or there is a first one without an entry or without room (R157, R158). -/
theorem srcDecode_fits_or_stops (k room : Nat) (codes : List Nat) (m : Nat) :
    (∃ d, srcDecode k (codes.take m) = some d ∧ d.output.length ≤ room) ∨
    ∃ n d, n < m ∧ srcDecode k (codes.take n) = some d ∧ d.output.length ≤ room ∧
      ∀ d', srcDecode k (codes.take (n + 1)) = some d' → room < d'.output.length := by
  induction m with
  | zero => exact .inl ⟨_, rfl, Nat.zero_le room⟩
  | succ m ih =>
    obtain ⟨d, hd, hfits⟩ | ⟨n, d, hn, hstop⟩ := ih
    · by_cases hnext : ∃ d', srcDecode k (codes.take (m + 1)) = some d' ∧ d'.output.length ≤ room
      · exact .inl hnext
      · exact .inr ⟨m, d, Nat.lt_succ_self m, hd, hfits, fun d' hd' => Nat.lt_of_not_le fun h => hnext ⟨d', hd', h⟩⟩
    · exact .inr ⟨n, d, Nat.lt_succ_of_lt hn, hstop⟩

theorem srcDecode_append {k : Nat} {codes : List Nat} (hne : codes ≠ []) (more : List Nat) :
    srcDecode k (codes ++ more) = (srcDecode k codes).bind (srcDecScan k more) := by
  cases codes with
  | nil => exact absurd rfl hne
  | cons c0 cs =>
    simp only [srcDecode, List.cons_append]
    split
    · rfl
    · exact srcDecScan_append k cs more _

/-- The output of the first codes is no longer than that of all. -/
theorem srcDecode_take_output_length {k : Nat} {codes : List Nat} {d d' : SrcDec} (n : Nat)
    (hd : srcDecode k (codes.take n) = some d) (hd' : srcDecode k codes = some d') :
    d.output.length ≤ d'.output.length := by
  rcases eq_or_ne (codes.take n) [] with hnil | hne
  · rw [hnil] at hd
    cases hd
    exact Nat.zero_le _
  · rw [← List.take_append_drop n codes, srcDecode_append hne, hd] at hd'
    exact srcDecScan_output_length hd'

/-! ## What the run has read -/

/-- The run has read `codes`: their sequences are the output, and each later code has inserted the code before it
extended by its own first symbol, while there was room (R158). -/
structure DecReads (k : Nat) (codes : List Nat) (r : DecRun) : Prop where
  pos : r.pos = codes.length
  size : r.size = min (256 + (codes.length - 1)) (capacity k)
  last : ∀ h : codes ≠ [], codes.getLast h = r.prev
  held : ∀ c ∈ codes, c < r.size
  output : r.out.reverse = codes.flatMap (seqOf r.table)
  inserted : ∀ j, (h : j + 1 < codes.length) → 256 + j < capacity k →
    cellGet r.table (256 + j) =
      some { parent := BitVec.ofNat 16 codes[j], sym := firstSym (seqOf r.table codes[j + 1]) }

/-- What a later code does to the run, whatever its entry (R158). -/
theorem decStep_fields {k rawCap c : Nat} {r r' : DecRun} (h : decStep k rawCap c r = .ok r') :
    r'.prev = c ∧ r'.pos = r.pos + 1 ∧ ∃ entry, decEntry k c r = some entry ∧
      r'.size = (if r.size < capacity k then r.size + 1 else r.size) ∧
      r'.table = if r.size < capacity k then insertEntry r.table r.size r.prev (firstSym entry) else r.table := by
  obtain ⟨entry, r₁, hentry, happend, rfl⟩ := decStep_cases h
  obtain ⟨-, rfl⟩ := appendSyms_ok happend
  refine ⟨rfl, rfl, entry, hentry, ?_⟩
  unfold decInsert
  split <;> exact ⟨rfl, rfl⟩

/-- One later code that has an entry and fits (R155 to R158). -/
theorem decStep_reads {k rawCap c : Nat} {codes : List Nat} {r : DecRun} {d : SrcDec} {w : List Symbol}
    (hk : capacity k ≤ 65536) (hne : codes ≠ []) (hsim : DecSimulates k r d) (h : DecReads k codes r)
    (hw : srcDecEntry k c d = some w) (hroom : (srcDecUpdate k w d).output.length ≤ rawCap) :
    ∃ r', decStep k rawCap c r = .ok r' ∧ DecSimulates k r' (srcDecUpdate k w d) ∧ DecReads k (codes ++ [c]) r' := by
  obtain ⟨r', hstep, hsim'⟩ := decStep_simulates hk hsim hw hroom
  obtain ⟨hpos, hsize, hlast, hheld, houtput, hinserted⟩ := h
  obtain ⟨hprev', hpos', entry, hentry, hsize', htable'⟩ := decStep_fields hstep
  obtain rfl : w = entry := Option.some.inj (hw.symm.trans (hsim.decEntry_eq c ▸ hentry))
  have hlen := List.length_pos_iff.mpr hne
  have hsame : SameBelow r.size r.table r'.table := by
    rw [htable']
    split
    · exact sameBelow_insertEntry _ _ _ _
    · exact fun _ _ _ => rfl
  have hseq : ∀ x, x < r.size → seqOf r'.table x = seqOf r.table x := fun x => seqOf_congr hsim.parents hsame
  obtain ⟨hc, hseqc⟩ : c < r'.size ∧ seqOf r'.table c = w := hprev' ▸ hsim'.prev
  refine ⟨r', hstep, hsim', by rw [hpos', hpos, List.length_append, List.length_singleton], ?_, ?_, ?_, ?_, ?_⟩
  · rw [hsize', hsize, List.length_append, List.length_singleton]
    split <;> omega
  · exact fun _ => by rw [List.getLast_append_singleton, hprev']
  · intro x hx
    rcases List.mem_append.mp hx with hx | hx
    · exact (hheld x hx).trans_le (by rw [hsize']; split <;> omega)
    · rwa [List.mem_singleton.mp hx]
  · rw [hsim'.output, srcDecUpdate_output, ← hsim.output, houtput, List.flatMap_append, List.flatMap_singleton, hseqc]
    exact congrArg (· ++ w) (List.flatMap_congr fun x hx => (hseq x (hheld x hx)).symm)
  · intro j hj hfits
    rw [List.length_append, List.length_singleton] at hj
    rcases Nat.lt_or_ge (j + 1) codes.length with hold | hnew
    · rw [hsame _ (by omega) (by omega), hinserted j hold hfits, List.getElem_append_left (by omega),
        List.getElem_append_left hold, hseq _ (hheld _ (List.getElem_mem hold))]
    · obtain rfl : j = codes.length - 1 := by omega
      have hfull : r.size = 256 + (codes.length - 1) := by omega
      have hlatest : (codes ++ [c])[codes.length - 1 + 1] = c := by simp [Nat.sub_add_cancel hlen]
      have hbefore : (codes ++ [c])[codes.length - 1] = r.prev := by
        rw [List.getElem_append_left (by omega), ← List.getLast_eq_getElem hne, hlast hne]
      rw [hlatest, hbefore, hseqc, htable', if_pos (by omega), ← hfull, cellGet_insertEntry_self]

theorem decScan_reads {k rawCap : Nat} {codes cs : List Nat} {r : DecRun} {d d' : SrcDec} (hk : capacity k ≤ 65536)
    (hne : codes ≠ []) (hsim : DecSimulates k r d) (h : DecReads k codes r) (hd : srcDecScan k cs d = some d')
    (hroom : d'.output.length ≤ rawCap) :
    ∃ r', decScan k rawCap cs r = .ok r' ∧ DecSimulates k r' d' ∧ DecReads k (codes ++ cs) r' := by
  induction cs generalizing codes r d with
  | nil =>
    cases hd
    exact ⟨r, rfl, hsim, by rwa [List.append_nil]⟩
  | cons c cs ih =>
    simp only [srcDecScan] at hd
    split at hd
    · cases hd
    · next w hw =>
      obtain ⟨r₁, hstep, hsim₁, h₁⟩ := decStep_reads hk hne hsim h hw ((srcDecScan_output_length hd).trans hroom)
      obtain ⟨r', hscan, hsim', h'⟩ := ih (by simp) hsim₁ h₁ hd
      exact ⟨r', by simp only [decScan, hstep, hscan], hsim', by rwa [List.append_cons]⟩

/-- The seeded run has read nothing (R152). -/
theorem decInit_reads {k : Nat} (hroots : 256 ≤ capacity k) (t : Table) : DecReads k [] (decInit 0 t) :=
  ⟨rfl, (Nat.min_eq_left hroots).symm, fun h => absurd rfl h, fun _ h => absurd h List.not_mem_nil, rfl,
    fun _ h => absurd h (Nat.not_lt_zero _)⟩

/-- The first code (R154), if there is room for its symbol. -/
theorem decCodes_first_reads {k rawCap c0 : Nat} (hroots : 256 ≤ capacity k) (t : Table) (hc : c0 < 256)
    (hroom : 1 ≤ rawCap) :
    ∃ r, (∀ more, decCodes k rawCap t (c0 :: more) = decScan k rawCap more r) ∧
      DecSimulates k r { seq := [BitVec.ofNat 8 c0], dict := rootKeys, entries := [[BitVec.ofNat 8 c0]] } ∧
      DecReads k [c0] r := by
  have hinit := decInit_simulates hroots hc t
  rw [seqOf_root t hc] at hinit
  obtain ⟨r, happend, hsim⟩ := hinit.append (w := [BitVec.ofNat 8 c0]) hroom
  obtain ⟨-, rfl⟩ := appendSyms_ok happend
  refine ⟨{ decInit c0 t with pos := 1, wp := 1, out := [BitVec.ofNat 8 c0] }, fun more => ?_,
    ⟨hsim.parents, hsim.seeded, hsim.bounded, hsim.dict, hsim.prev, hsim.output, hsim.counted⟩, rfl,
    (Nat.min_eq_left hroots).symm, fun _ => rfl, ?_, ?_, ?_⟩
  · simp only [decCodes, if_neg (Nat.not_le.mpr hc), happend]
    rfl
  · exact fun c h => List.mem_singleton.mp h ▸ hc
  · exact (List.flatMap_singleton (seqOf t) c0 ▸ (seqOf_root t hc).symm)
  · exact fun j h => absurd h (by simp)

/-- The codes read so far (R154 to R158), if their output fits: the run that goes on with the codes after them. -/
theorem decCodes_append_reads {k rawCap : Nat} {codes : List Nat} {d : SrcDec} (hroots : 256 ≤ capacity k)
    (hk : capacity k ≤ 65536) (t : Table) (hne : codes ≠ []) (hd : srcDecode k codes = some d)
    (hroom : d.output.length ≤ rawCap) :
    ∃ r, (∀ more, decCodes k rawCap t (codes ++ more) = decScan k rawCap more r) ∧
      DecSimulates k r d ∧ DecReads k codes r := by
  cases codes with
  | nil => exact absurd rfl hne
  | cons c0 cs =>
    simp only [srcDecode, rootKeys_getElem?] at hd
    by_cases hc : c0 < 256
    · rw [if_pos hc] at hd
      obtain ⟨r₁, hcodes, hsim₁, h₁⟩ :=
        decCodes_first_reads hroots t hc (rawCap := rawCap) ((srcDecScan_output_length hd).trans hroom)
      obtain ⟨r, hscan, hsim, h⟩ := decScan_reads hk (List.cons_ne_nil c0 []) hsim₁ h₁ hd hroom
      refine ⟨r, fun more => ?_, hsim, h⟩
      rw [List.cons_append, hcodes, decScan_append, hscan]
    · rw [if_neg hc] at hd
      cases hd

/-! ## The code at which DECODE stops -/

/-- The codes `read` are read and fit, and the next code has no entry or does not fit: the fault it raises (R154 to
R158). -/
theorem decCodes_append_cons_error {k rawCap c : Nat} {read : List Nat} {d : SrcDec} (hroots : 256 ≤ capacity k)
    (hk : capacity k ≤ 65536) (t : Table) (rest : List Nat) (hd : srcDecode k read = some d)
    (hroom : d.output.length ≤ rawCap)
    (hstop : ∀ d', srcDecode k (read ++ [c]) = some d' → rawCap < d'.output.length) :
    decCodes k rawCap t (read ++ c :: rest) =
      .error ⟨if (srcDecode k (read ++ [c])).isSome then .bufferOverflow else .decodeError, read.length⟩ := by
  rcases eq_or_ne read [] with rfl | hne
  · simp only [List.nil_append, srcDecode, rootKeys_getElem?] at hstop ⊢
    by_cases hc : c < 256
    · rw [if_pos hc] at hstop
      have hfull : rawCap = 0 := Nat.lt_one_iff.mp (hstop _ rfl)
      simp [decCodes, Nat.not_le.mpr hc, hc, appendSyms, hfull, decInit, srcDecScan]
    · simp [decCodes, Nat.le_of_not_lt hc, hc]
  · obtain ⟨r, hrun, hsim, hreads⟩ := decCodes_append_reads hroots hk t hne hd hroom
    rw [srcDecode_append hne, hd, Option.bind_some, srcDecScan] at hstop ⊢
    rw [hrun, decScan, decStep, hsim.decEntry_eq c, ← hreads.pos]
    cases hentry : srcDecEntry k c d with
    | none => rfl
    | some w =>
      have hlonger : rawCap < r.wp + w.length := by
        rw [hsim.counted, ← List.length_append, ← srcDecUpdate_output]
        exact hstop (srcDecUpdate k w d) (by rw [hentry]; rfl)
      have hfull : ¬(r.wp + w.length ≤ rawCap ∨ w = []) := by
        rintro (hfits | rfl)
        · omega
        · exact absurd (hsim.counted ▸ hroom) (Nat.not_le.mpr hlonger)
      simp only [appendSyms_eq, if_neg hfull]
      rfl

/-- The same of a code of the input. -/
theorem decCodes_error_of_stop {k rawCap n : Nat} {codes : List Nat} {d : SrcDec} (hroots : 256 ≤ capacity k)
    (hk : capacity k ≤ 65536) (t : Table) (hn : n < codes.length) (hd : srcDecode k (codes.take n) = some d)
    (hroom : d.output.length ≤ rawCap)
    (hstop : ∀ d', srcDecode k (codes.take (n + 1)) = some d' → rawCap < d'.output.length) :
    decCodes k rawCap t codes =
      .error ⟨if (srcDecode k (codes.take (n + 1))).isSome then .bufferOverflow else .decodeError, n⟩ := by
  have hnext : codes.take (n + 1) = codes.take n ++ [codes[n]] := (List.take_concat_get' codes n hn).symm
  have herror := decCodes_append_cons_error hroots hk t (codes.drop (n + 1)) hd hroom (hnext ▸ hstop)
  rwa [← List.drop_eq_getElem_cons hn, List.take_append_drop, ← hnext, List.length_take_of_le hn.le] at herror

/-! ## The end of the command -/

/-- The command stops where the source's decoder has no entry or its output no longer fits (R157, R158). -/
theorem exec_decode_of_stop {k n : Nat} {s : State} {d : SrcDec} (hlow : 9 ≤ k) (hhigh : k ≤ 16)
    (hcode : s.codeLen.toNat ≤ s.caps.code.toNat) (hn : n < s.codeLen.toNat)
    (hd : srcDecode k ((codeInput s).take n) = some d) (hroom : d.output.length ≤ s.caps.raw.toNat)
    (hstop : ∀ d', srcDecode k ((codeInput s).take (n + 1)) = some d' → s.caps.raw.toNat < d'.output.length) :
    exec (.decode k) s = .next (faultEntry .decode
      ⟨if (srcDecode k ((codeInput s).take (n + 1))).isSome then .bufferOverflow else .decodeError, n⟩ s) := by
  refine exec_decode_of_run_error ?_
  rw [decodeRun_eq_decCodes hlow hhigh hcode]
  exact decCodes_error_of_stop (roots_le_capacity hlow)
    (capacity_le_of_legalWidth (legalWidth_iff.mpr ⟨hlow, hhigh⟩)) s.decTable (by rwa [length_codeInput]) hd hroom hstop

theorem run_of_exec_decode {k : Nat} {s t : State} (h : exec (.decode k) s = .next t) (hdone : t.status.done = true) :
    ∃ r, decodeRun k s = .ok r ∧ t = decodeFinish r s := by
  obtain ⟨e, -, he⟩ | ⟨r, hr, he⟩ := execDecode_cases k s <;> cases h.symm.trans he
  · simp [Status.faulted] at hdone
  · exact ⟨r, hr, rfl⟩

theorem fault_of_exec_decode {k : Nat} {s t : State} (h : exec (.decode k) s = .next t)
    (hdone : t.status.done = false) : ∃ e, decodeRun k s = .error e ∧ t = faultEntry .decode e s := by
  obtain ⟨e, hr, he⟩ | ⟨r, -, he⟩ := execDecode_cases k s <;> cases h.symm.trans he
  · exact ⟨e, hr, rfl⟩
  · exact absurd hdone Bool.noConfusion

/-- A run that ends has read the codes of the command. -/
theorem decCodes_reads {k rawCap : Nat} {t : Table} {codes : List Nat} {d : SrcDec} {r : DecRun}
    (hroots : 256 ≤ capacity k) (hk : capacity k ≤ 65536) (hd : srcDecode k codes = some d)
    (hroom : d.output.length ≤ rawCap) (h : decCodes k rawCap t codes = .ok r) : DecReads k codes r := by
  rcases eq_or_ne codes [] with rfl | hne
  · cases h
    exact decInit_reads hroots t
  · obtain ⟨r', hrun, -, hreads⟩ := decCodes_append_reads hroots hk t hne hd hroom
    rw [← List.append_nil codes, hrun] at h
    cases h
    exact hreads

/-- What a DECODE that ends leaves in `RAW` (R159). -/
theorem rawInput_decodeFinish {r : DecRun} {s : State} (h : DecRunWritten s.caps.raw.toNat r) :
    rawInput (decodeFinish r s) = r.out.reverse := by
  refine rawInput_of_cellsFrom ?_ rfl
  rw [List.length_reverse, h.counted]
  exact toNat_ofNat_of_le_cap h.room

/-- Settles O30: a code may stand where it stands exactly when the source's decoder has an entry for it; the run that
ends simulates the source's, and its record says what it has read and inserted. -/
theorem decodeWritesTheCodesSequences : Obligations.DecodeWritesTheCodesSequences := by
  refine ⟨fun k s hlow _ => ?_, fun k s d hlow hhigh hcode hd hroom => ?_⟩
  · have hall : (codeInput s).take s.codeLen.toNat = codeInput s := List.take_of_length_le (length_codeInput s).le
    exact hall ▸ srcDecode_take_isSome_iff hlow le_rfl
  · have hwidth : legalWidth k = true := legalWidth_iff.mpr ⟨hlow, hhigh⟩
    obtain ⟨t, ht, hdone, hraw, hdict⟩ := exec_decode_of_srcDecode hlow hhigh hcode hd hroom
    obtain ⟨r, hrun, rfl⟩ := run_of_exec_decode ht (by rw [hdone.status])
    obtain ⟨-, -, hcodes⟩ := decodeRun_ok hrun
    obtain ⟨-, hsize, -, -, houtput, hinserted⟩ :=
      decCodes_reads (roots_le_capacity hlow) (capacity_le_of_legalWidth hwidth) hd hroom hcodes
    have hsize' : (decodeFinish r s).decSize.toNat = r.size := toNat_ofNat_size hwidth (by omega)
    have hread := rawInput_decodeFinish (decCodes_decRunWritten hcodes)
    refine ⟨_, ht, hdone, hraw, hread.trans houtput, hdict, ?_, fun j hj hlt hfits => ?_⟩
    · rw [hsize', hsize, length_codeInput]
      rfl
    · obtain ⟨i, rfl⟩ := Nat.exists_eq_add_of_le' hj
      have hindex : 256 + i = 255 + (i + 1) := Nat.succ_add_eq_add_succ 255 i
      have hentry := hinserted i (by rwa [length_codeInput]) (hindex.trans_lt hfits)
      simp only [codeInput, List.getElem_map, List.getElem_range, BitVec.ofNat_toNat, BitVec.setWidth_eq] at hentry
      exact hindex ▸ hentry

theorem Cause.eq_decodeError_of_code {c : Cause} (h : c.code = Cause.decodeError.code) : c = .decodeError := by
  revert h
  cases c <;> decide

/-- Only a code raises `DecodeError` (R151, R157). -/
theorem decodeRun_decodeError {k i : Nat} {s : State} (h : decodeRun k s = .error ⟨.decodeError, i⟩) :
    legalWidth k = true ∧ s.codeLen.toNat ≤ s.caps.code.toNat ∧
      decCodes k s.caps.raw.toNat s.decTable (codeInput s) = .error ⟨.decodeError, i⟩ := by
  unfold decodeRun at h
  split at h
  · cases h
  · split at h
    · cases h
    · exact ⟨by simp_all, by omega, h⟩

/-- A run that ends with `DecodeError` has read the codes before its index and has no entry for the one there. -/
theorem decCodes_decodeError {k rawCap i : Nat} {t : Table} {codes : List Nat} (hroots : 256 ≤ capacity k)
    (hk : capacity k ≤ 65536) (h : decCodes k rawCap t codes = .error ⟨.decodeError, i⟩) :
    i < codes.length ∧ (∃ d, srcDecode k (codes.take i) = some d) ∧ srcDecode k (codes.take (i + 1)) = none := by
  obtain ⟨d, hd, hroom⟩ | ⟨n, d, hn, hd, hroom, hstop⟩ := srcDecode_fits_or_stops k rawCap codes codes.length
  · rw [List.take_length] at hd
    obtain ⟨r, hok, -⟩ := decCodes_simulates hroots hk t hd hroom
    cases h.symm.trans hok
  · have herror := h.symm.trans (decCodes_error_of_stop hroots hk t hn hd hroom hstop)
    split at herror
    · cases herror
    · next hnone =>
      cases herror
      exact ⟨hn, ⟨d, hd⟩, Option.not_isSome_iff_eq_none.mp hnone⟩

/-- Settles O31: the source's decoder has no result once the code that may not stand where it stands is read, and the
machine stops where the source's decoder does. -/
theorem decodeErrorNamesTheFirstBadCode : Obligations.DecodeErrorNamesTheFirstBadCode := by
  refine ⟨fun k s t ht hdone herr => ?_, fun k s n hlow hhigh hcode hn hbad hgood => ?_⟩
  · obtain ⟨⟨cause, i⟩, hrun, rfl⟩ := fault_of_exec_decode ht hdone
    obtain rfl : cause = .decodeError := Cause.eq_decodeError_of_code herr
    obtain ⟨hwidth, -, hcodes⟩ := decodeRun_decodeError hrun
    obtain ⟨hlow, -⟩ := legalWidth_iff.mp hwidth
    obtain ⟨hi, hread, hnone⟩ := decCodes_decodeError (roots_le_capacity hlow) (capacity_le_of_legalWidth hwidth) hcodes
    rw [length_codeInput] at hi
    have hgood := (srcDecode_take_isSome_iff hlow hi.le).mp hread
    have hindex : (faultEntry .decode ⟨.decodeError, i⟩ s).errIndex.toNat = i :=
      Nat.mod_eq_of_lt (hi.trans s.codeLen.isLt)
    rw [hindex]
    refine ⟨hi, fun hi' => ?_, hgood⟩
    obtain ⟨d, hd⟩ := (srcDecode_take_isSome_iff hlow hi).mpr fun j hj =>
      (Nat.lt_succ_iff_lt_or_eq.mp hj).elim (hgood j) fun h => h ▸ hi'
    cases hnone.symm.trans hd
  · obtain ⟨d, hd⟩ := (srcDecode_take_isSome_iff hlow hn.le).mpr hgood
    have hnone : srcDecode k ((codeInput s).take (n + 1)) = none := Option.eq_none_iff_forall_ne_some.mpr fun d' hd' =>
      hbad ((srcDecode_take_isSome_iff hlow hn).mp ⟨d', hd'⟩ n (Nat.lt_succ_self n))
    refine ⟨d, hd, fun hroom => ?_⟩
    rw [exec_decode_of_stop hlow hhigh hcode hn hd hroom (by simp [hnone]), hnone]
    rfl

/-- Settles O32: the source's decoder reads the code, and its output no longer fits. -/
theorem decodeOverflowsAtTheCodeThatDoesNotFit : Obligations.DecodeOverflowsAtTheCodeThatDoesNotFit := by
  intro k s n before withIt hlow hhigh hcode hn hbefore hwith hroom hfull
  rw [exec_decode_of_stop hlow hhigh hcode hn hbefore hroom
    fun d' hd' => Option.some.inj (hwith.symm.trans hd') ▸ hfull, hwith]
  rfl

end Sys2Proof.Machine

/-! # DECODE after ENCODE (O33, O34)

A run of ENCODE that ends with room for its codes simulates the source's encoder (`encodeRun_simulates`), whose codes
the source's decoder inverts at the same width or a larger one (`srcDecode_srcEncode`). At a smaller width the decoder
reads whatever it reads as the wider one does (`srcDecode_wider`), so it can only stop for want of an entry. -/

namespace Sys2Proof.Machine

/-! ## The command that wrote the codes -/

/-- A run with an output that ends simulates the source's: that its codes fit is what the same run without them counts
(`encScan_trained`). -/
theorem encodeRun_simulates {k : Nat} {keep testing : Bool} {s : State} {r : EncRun} (hfresh : FreshStart keep s)
    (hw : cellsWf s.encTable) (h : encodeRun k keep testing false s = .ok r) :
    EncSimulates (encArgs k testing false s) r (srcEncode k testing rootKeys (rawInput s)) := by
  obtain ⟨size, r₁, hstart, hscan, hflush⟩ := encodeRun_ok h
  obtain ⟨-, hwidth, -, -⟩ := encodeStart_ok hstart
  obtain ⟨hsize, hbounded⟩ := encodeStart_size hstart
  obtain rfl : size = 256 := hsize.trans (startSize_of_freshStart hfresh)
  have hk := capacity_le_of_legalWidth hwidth
  obtain ⟨r₁', r', hscan', hflush', hcounts⟩ := encScan_encFlush_simulates (a := (encArgs k testing false s).trained)
    (rawInput s) hk (.seed hw) le_rfl hbounded (by simp [EncArgs.trained])
  cases (encScan_trained hscan).symm.trans hscan'
  cases (encFlush_trained hflush).symm.trans hflush'
  have hroom : (srcEncode k testing (tableKeys s.encTable 256) (rawInput s)).codes.length ≤ s.caps.code.toNat :=
    hcounts.counted.symm.trans_le (encodeRun_encRunWritten h).room
  obtain ⟨r₁', r', hscan', hflush', hsim⟩ := encScan_encFlush_simulates (a := encArgs k testing false s) (rawInput s)
    hk (.seed hw) le_rfl hbounded fun _ => hroom
  cases hscan.symm.trans hscan'
  cases hflush.symm.trans hflush'
  rwa [tableKeys_root] at hsim

/-- What DECODE finds after an ENCODE from the roots (R127): the source's codes, and room for its input. -/
structure EncodedFrom (k : Nat) (testing : Bool) (s t : State) : Prop where
  width : legalWidth k = true
  code : t.codeLen.toNat ≤ t.caps.code.toNat
  raw : (rawInput s).length ≤ t.caps.raw.toNat
  codes : codeInput t = (srcEncode k testing rootKeys (rawInput s)).codes

theorem encodeFinish_encodedFrom {k : Nat} {keep testing : Bool} {s : State} {r : EncRun} (hfresh : FreshStart keep s)
    (hw : cellsWf s.encTable) (h : encodeRun k keep testing false s = .ok r) :
    EncodedFrom k testing s (encodeFinish testing false r s) := by
  obtain ⟨size, -, hstart, -, -⟩ := encodeRun_ok h
  obtain ⟨-, hwidth, hraw, -⟩ := encodeStart_ok hstart
  obtain ⟨hcounted, hroom⟩ := encodeRun_encRunWritten h
  have hlen := codeLen_encodeFinish h
  rw [List.length_reverse, hcounted] at hlen
  refine ⟨hwidth, hlen.trans_le hroom, (length_rawInput s).trans_le hraw, ?_⟩
  rw [codeInput_encodeFinish hcounted (Nat.lt_of_le_of_lt hroom s.caps.code.isLt)]
  exact (encodeRun_simulates hfresh hw h).written rfl

/-- DECODE at the encoder's width or a larger one (R162, R163 (h)). -/
theorem EncodedFrom.exec_decode {ke kd : Nat} {testing : Bool} {s t : State} (h : EncodedFrom ke testing s t)
    (hk : ke ≤ kd) (hhigh : kd ≤ 16) :
    ∃ u, exec (.decode kd) t = .next u ∧ Completed t u ∧ SameRaw s u ∧
      (srcEncode ke testing rootKeys (rawInput s)).dict <+: tableKeys u.decTable u.decSize.toNat := by
  obtain ⟨hlow, -⟩ := legalWidth_iff.mp h.width
  obtain ⟨d, hd, houtput, hprefix⟩ := srcDecode_srcEncode (roots_le_capacity hlow) hk testing (rawInput s)
  obtain ⟨u, hu, hdone, hraw, hdict⟩ :=
    exec_decode_of_srcDecode (hlow.trans hk) hhigh h.code (h.codes ▸ hd) (houtput ▸ h.raw)
  exact ⟨u, hu, hdone, sameRaw_of_rawInput_eq (hraw.trans houtput), hdict ▸ hprefix⟩

/-- Codes of a dictionary that another begins with have the same sequences there. -/
theorem seqOf_of_tableKeys_prefix {t t' : Table} {size size' c : Nat} (h : tableKeys t size <+: tableKeys t' size')
    (hc : c < size) : seqOf t' c = seqOf t c := by
  obtain ⟨rest, hrest⟩ := h
  have hget : (tableKeys t' size')[c]? = (tableKeys t size)[c]? := by
    rw [← hrest, List.getElem?_append_left (by rwa [length_tableKeys])]
  exact (getElem?_tableKeys.mp (hget.trans (getElem?_tableKeys.mpr ⟨hc, rfl⟩))).2

/-- Settles O33: both dictionaries are the source's, and the decoder's begins with the encoder's. -/
theorem decodeInvertsEncodeCommand : Obligations.DecodeInvertsEncodeCommand := by
  intro k keep testing s t r hfresh hw hrun ht
  cases ht.symm.trans (exec_encode_of_run_ok hrun)
  have hencoded := encodeFinish_encodedFrom hfresh hw hrun
  obtain ⟨-, hhigh⟩ := legalWidth_iff.mp hencoded.width
  obtain ⟨u, hu, hdone, hraw, hprefix⟩ := hencoded.exec_decode le_rfl hhigh
  rw [← (encodeRun_simulates hfresh hw hrun).dict] at hprefix
  exact ⟨u, hu, hdone, hraw, fun c hc _ => seqOf_of_tableKeys_prefix hprefix hc⟩

/-! ## Another width -/

/-- The decoder at a smaller width for the one at a larger: its dictionary is the beginning that it has room for. -/
def SrcDec.narrowed (k : Nat) (d : SrcDec) : SrcDec := { d with dict := d.dict.take (capacity k) }

theorem SrcDec.length_narrowed (k : Nat) (d : SrcDec) :
    (d.narrowed k).dict.length = min (capacity k) d.dict.length :=
  List.length_take

/-- A code that the narrower decoder has an entry for is the same entry to the wider one. -/
theorem srcDecEntry_of_narrowed {kd ke c : Nat} {d : SrcDec} {w : List Symbol} (hk : capacity kd ≤ capacity ke)
    (h : srcDecEntry kd c (d.narrowed kd) = some w) : srcDecEntry ke c d = some w := by
  unfold srcDecEntry at h ⊢
  rw [d.length_narrowed] at h
  split at h
  · next hknown =>
    rw [if_pos (by omega)]
    exact (List.getElem?_take_of_lt (by omega)).symm.trans h
  · split at h
    · rw [if_neg (by omega), if_pos (by omega)]
      exact h
    · cases h

/-- Both insert the same entry while the narrower has room (R163 (h)). -/
theorem srcDecUpdate_narrowed {kd ke : Nat} (w : List Symbol) (d : SrcDec) (hk : capacity kd ≤ capacity ke) :
    srcDecUpdate kd w (d.narrowed kd) = (srcDecUpdate ke w d).narrowed kd := by
  have hdict : (srcDecUpdate kd w (d.narrowed kd)).dict = (srcDecUpdate ke w d).dict.take (capacity kd) := by
    simp only [srcDecUpdate, d.length_narrowed]
    by_cases hroom : d.dict.length < capacity kd
    · rw [if_pos (by omega), if_pos (by omega), SrcDec.narrowed, List.take_of_length_le (by omega),
        List.take_of_length_le (by simpa using hroom)]
    · rw [if_neg (by omega)]
      split
      · exact (List.take_append_of_le_length (by omega)).symm
      · rfl
  simp only [SrcDec.narrowed, ← hdict]
  rfl

theorem srcDecScan_wider {kd ke : Nat} {cs : List Nat} {d d' : SrcDec} (hk : capacity kd ≤ capacity ke)
    (h : srcDecScan kd cs (d.narrowed kd) = some d') :
    ∃ d'', srcDecScan ke cs d = some d'' ∧ d''.output = d'.output := by
  induction cs generalizing d with
  | nil =>
    cases h
    exact ⟨d, rfl, rfl⟩
  | cons c cs ih =>
    simp only [srcDecScan] at h ⊢
    split at h
    · cases h
    · next w hw =>
      rw [srcDecUpdate_narrowed w d hk] at h
      simp only [srcDecEntry_of_narrowed hk hw]
      exact ih h

/-- R163 (h): what a decoder reads, one of a larger width reads with the same output. -/
theorem srcDecode_wider {kd ke : Nat} {codes : List Nat} {d : SrcDec} (hroots : 256 ≤ capacity kd)
    (hk : capacity kd ≤ capacity ke) (h : srcDecode kd codes = some d) :
    ∃ d', srcDecode ke codes = some d' ∧ d'.output = d.output := by
  cases codes with
  | nil => exact ⟨d, h, rfl⟩
  | cons c0 cs =>
    simp only [srcDecode] at h ⊢
    split at h
    · cases h
    · next q hq =>
      refine srcDecScan_wider hk ?_
      rwa [SrcDec.narrowed, List.take_of_length_le (length_rootKeys.trans_le hroots)]

/-- DECODE at a smaller width (R163 (h)): the right output, or no entry for some code. It cannot run out of room, since
what it has written is the beginning of the right output. -/
theorem EncodedFrom.exec_decode_narrower {ke kd : Nat} {testing : Bool} {s t : State} (h : EncodedFrom ke testing s t)
    (hlow : 9 ≤ kd) (hk : kd ≤ ke) :
    (∃ u, exec (.decode kd) t = .next u ∧ Completed t u ∧ SameRaw s u) ∨
    ∃ n, exec (.decode kd) t = .next (faultEntry .decode ⟨.decodeError, n⟩ t) := by
  obtain ⟨-, hhigh⟩ := legalWidth_iff.mp h.width
  have hhigh' := hk.trans hhigh
  have hroots := roots_le_capacity hlow
  have hcap : capacity kd ≤ capacity ke := Nat.pow_le_pow_right (by decide) hk
  obtain ⟨right, hright, houtput, -⟩ :=
    srcDecode_srcEncode (hroots.trans hcap) (le_refl ke) testing (rawInput s)
  rw [← h.codes] at hright
  obtain ⟨d, hd, hroom⟩ | ⟨n, d, hn, hd, hroom, hstop⟩ :=
    srcDecode_fits_or_stops kd t.caps.raw.toNat (codeInput t) (codeInput t).length
  · rw [List.take_length] at hd
    obtain ⟨u, hu, hdone, hraw, -⟩ := exec_decode_of_srcDecode hlow hhigh' h.code hd hroom
    obtain ⟨d', hd', hsame⟩ := srcDecode_wider hroots hcap hd
    cases hright.symm.trans hd'
    exact .inl ⟨u, hu, hdone, sameRaw_of_rawInput_eq (hraw.trans (hsame.symm.trans houtput))⟩
  · have hnone : srcDecode kd ((codeInput t).take (n + 1)) = none := by
      refine Option.eq_none_iff_forall_ne_some.mpr fun e he => ?_
      obtain ⟨e', he', hsame⟩ := srcDecode_wider hroots hcap he
      have hle := srcDecode_take_output_length (n + 1) he' hright
      rw [hsame, houtput] at hle
      exact Nat.not_le.mpr (hstop e he) (hle.trans h.raw)
    refine .inr ⟨n, ?_⟩
    rw [exec_decode_of_stop hlow hhigh' h.code (by rwa [length_codeInput] at hn) hd hroom hstop, hnone]
    rfl

/-- Settles O34: at a larger width the decoder inverts the encoder; at a smaller one it reads the same or stops. -/
theorem decodeAtAnotherWidthIsRightOrFaults : Obligations.DecodeAtAnotherWidthIsRightOrFaults := by
  intro ke kd keep testing s t u hfresh hw hlow hhigh ht hfault hu
  obtain ⟨r, hrun, rfl⟩ := run_of_exec_encode ht hfault
  have hencoded := encodeFinish_encodedFrom hfresh hw hrun
  have hwider : ke ≤ kd → Completed (encodeFinish testing false r s) u ∧ SameRaw s u := fun hk => by
    obtain ⟨u', hu', hdone, hraw, -⟩ := hencoded.exec_decode hk hhigh
    cases hu.symm.trans hu'
    exact ⟨hdone, hraw⟩
  refine ⟨?_, hwider⟩
  rcases le_total ke kd with hk | hk
  · exact .inl (hwider hk)
  · obtain ⟨u', hu', hright⟩ | ⟨n, hu'⟩ := hencoded.exec_decode_narrower hlow hk <;> cases hu.symm.trans hu'
    · exact .inl hright
    · exact .inr (faultEntry_status ..)

end Sys2Proof.Machine

/-! # PACK: its checks, its padding and its accumulator form (O35, O36, O38, O39)

Draining whole bytes from an accumulator early or late is the same (`drainBytes_append_drain`). So the loop of R188 is
one drain of all the codes' bits (`packLoop_drain`), and what is left of them is less than a byte, which the pad bits
fill (`withLastByte_drainBytes`). The checks and the padding are read off `packRun` and `Packed`. -/

namespace Sys2Proof.Machine

/-! ## The accumulator form -/

theorem drainBytes_of_short {acc : List Bool} (h : acc.length < 8) (out : List Symbol) :
    drainBytes acc out = (acc, out) := by
  unfold drainBytes
  split
  · simp only [List.length_cons] at h
    omega
  · rfl

theorem drainBytes_byte_append {byte : List Bool} (h : byte.length = 8) (rest : List Bool) (out : List Symbol) :
    drainBytes (byte ++ rest) out = drainBytes rest (BitVec.ofNat 8 (val byte) :: out) :=
  match byte, h with
  | [_, _, _, _, _, _, _, _], _ => rfl

/-- Bits that arrive after a drain may as well arrive before it. -/
theorem drainBytes_append_drain (acc more : List Bool) (out : List Symbol) :
    drainBytes ((drainBytes acc out).1 ++ more) (drainBytes acc out).2 = drainBytes (acc ++ more) out := by
  fun_induction drainBytes acc out with
  | case1 b7 b6 b5 b4 b3 b2 b1 b0 rest out ih => exact ih
  | case2 acc out hshort => rfl

theorem packLoop_drain (k : Nat) (codes : List Nat) (acc : List Bool) (out : List Symbol) :
    packLoop k codes (drainBytes acc out) = drainBytes (acc ++ codes.flatMap (binN k)) out := by
  induction codes generalizing acc with
  | nil => rw [packLoop, List.flatMap_nil, List.append_nil]
  | cons c cs ih => rw [packLoop, drainBytes_append_drain, ih, List.flatMap_cons, List.append_assoc]

/-- The body bytes after the loop of R188: those written, oldest first, and the pending bits filled with `pad` zeros. -/
def withLastByte (pad : Nat) (st : List Bool × List Symbol) : List Symbol :=
  st.2.reverse ++ if st.1.isEmpty then [] else [BitVec.ofNat 8 (val (st.1 ++ List.replicate pad false))]

theorem packByAccumulator_eq (k : Nat) (codes : List Nat) :
    packByAccumulator k codes =
      BitVec.ofNat 8 (padSize k codes.length) ::
        withLastByte (padSize k codes.length) (drainBytes (codes.flatMap (binN k)) []) :=
  congrArg (fun st => _ :: withLastByte _ st) (packLoop_drain k codes [] [])

/-- Draining bits that `pad` zeros fill to `n` bytes writes the groups of R184. -/
theorem withLastByte_drainBytes {pad n : Nat} {bits : List Bool} (hpad : pad < 8) (hfill : bits.length + pad = 8 * n)
    (out : List Symbol) :
    withLastByte pad (drainBytes bits out) =
      out.reverse ++ (groups 8 n (bits ++ List.replicate pad false)).map fun g => BitVec.ofNat 8 (val g) := by
  induction n generalizing bits out with
  | zero =>
    obtain ⟨rfl, rfl⟩ : bits = [] ∧ pad = 0 := ⟨List.eq_nil_of_length_eq_zero (by omega), by omega⟩
    rfl
  | succ n ih =>
    rcases Nat.lt_or_ge bits.length 8 with hshort | hbyte
    · obtain rfl : n = 0 := by omega
      have hpending : bits.isEmpty = false := List.isEmpty_eq_false_iff.mpr (List.ne_nil_of_length_pos (by omega))
      have hlast : (bits ++ List.replicate pad false).take 8 = bits ++ List.replicate pad false :=
        List.take_of_length_le (by rw [List.length_append, List.length_replicate]; omega)
      simp [drainBytes_of_short hshort, withLastByte, hpending, groups, hlast]
    · have hlen : (bits.take 8).length = 8 := List.length_take_of_le hbyte
      have hrest : (bits.drop 8).length + pad = 8 * n := by
        rw [List.length_drop]
        omega
      calc withLastByte pad (drainBytes bits out)
        _ = withLastByte pad (drainBytes (bits.drop 8) (BitVec.ofNat 8 (val (bits.take 8)) :: out)) := by
          rw [← drainBytes_byte_append hlen, List.take_append_drop]
        _ = _ := by
          rw [ih hrest, groups, List.take_append_of_le_length hbyte, List.drop_append_of_le_length hbyte]
          simp

/-- Settles O39: one drain of all the codes' bits, then the last byte, which the pad bits fill. -/
theorem packAccumulatorWritesTheSameBytes : Obligations.PackAccumulatorWritesTheSameBytes := by
  intro k codes _ _
  have hfill : (codes.flatMap (binN k)).length + padSize k codes.length = 8 * bodyLen k codes.length := by
    rw [← length_packBits, packBits, List.length_append, List.length_replicate]
  rw [packByAccumulator_eq, withLastByte_drainBytes (padSize_lt ..) hfill]
  rfl

/-! ## The checks -/

theorem exec_pack_of_run_error {k : Nat} {s : State} {e : Raise} (h : packRun k s = .error e) :
    exec (.pack k) s = .next (faultEntry .pack e s) := by
  simp only [exec, execPack, h]

theorem legalWidth_eq_false {k : Nat} (h : k < 9 ∨ 16 < k) : legalWidth k = false := by
  rw [Bool.eq_false_iff, ne_eq, legalWidth_iff]
  omega

/-- Settles O35: each check fails when the ones before it pass. -/
theorem packStartChecks : Obligations.PackStartChecks := by
  refine fun k s => ⟨fun hwidth => exec_pack_of_run_error ?_, fun hlow hhigh hcode => exec_pack_of_run_error ?_,
    fun hlow hhigh hcode hstream => exec_pack_of_run_error ?_⟩
  · simp [packRun, legalWidth_eq_false hwidth]
  · simp [packRun, legalWidth_iff.mpr ⟨hlow, hhigh⟩, hcode]
  · rw [← bodyLen_eq] at hstream
    simp [packRun, legalWidth_iff.mpr ⟨hlow, hhigh⟩, Nat.not_lt.mpr hcode, hstream]

theorem codeOutOfRange_eq_some {k i : Nat} {s : State} (hi : i < s.codeLen.toNat)
    (hwide : 2 ^ k ≤ (readCode s i).toNat) (hfirst : ∀ j, j < i → (readCode s j).toNat < 2 ^ k) :
    codeOutOfRange k (codeInput s) = some i := by
  rw [codeOutOfRange, List.findIdx?_eq_some_iff_getElem]
  refine ⟨by rwa [length_codeInput], ?_, fun j hj => ?_⟩
  · simpa [codeInput, capacity] using hwide
  · simpa [codeInput, capacity] using hfirst j hj

/-- Settles O36: at K = 16 every 16-bit code fits, so only the checks of room can fail. -/
theorem packFaultsAtTheFirstWideCode : Obligations.PackFaultsAtTheFirstWideCode := by
  refine ⟨fun k s i hlow hhigh hcode hstream hi hwide hfirst => exec_pack_of_run_error ?_, fun s t h hstatus => ?_⟩
  · rw [← bodyLen_eq] at hstream
    simp [packRun, legalWidth_iff.mpr ⟨hlow, hhigh⟩, Nat.not_lt.mpr hcode, Nat.not_lt.mpr hstream,
      codeOutOfRange_eq_some hi hwide hfirst]
  · obtain ⟨e, hrun, he⟩ | ⟨bytes, -, he⟩ := execPack_cases 16 s <;> cases h.symm.trans he
    · rw [faultEntry_status, packRun_error_of_codes_lt rfl (fun i _ => (readCode s i).isLt) hrun] at hstatus
      cases hstatus
    · cases congrArg Status.done hstatus

/-! ## The padding -/

theorem exec_pack_packed {k : Nat} {s t : State} (h : exec (.pack k) s = .next t) (hfault : t.status.fault = false) :
    9 ≤ k ∧ Packed k s t := by
  obtain ⟨e, -, he⟩ | ⟨bytes, hrun, he⟩ := execPack_cases k s <;> cases h.symm.trans he
  · cases hfault
  · obtain ⟨hwidth, -, hstream, -, rfl⟩ := packRun_ok hrun
    have hlow := (legalWidth_iff.mp hwidth).1
    exact ⟨hlow, packFinish_packed (by omega) (bodyLen_eq .. ▸ hstream)⟩

/-- Settles O38: the header and the length are those of R72. -/
theorem packPaddingIsCorrect : Obligations.PackPaddingIsCorrect := by
  intro k s t h hfault
  obtain ⟨hlow, hlen, hheader, -⟩ := exec_pack_packed h hfault
  rw [hheader, hlen]
  omega

end Sys2Proof.Machine

/-! # UNPACK: its accumulator form, its inverse, its codes, its pad bits and its checks (O40 to O44)

The loop of R208 cuts a code off as soon as K bits are pending, and so leaves what cutting all the body's bits into
codes at once leaves (`unpackLoop_eq_cutCodes`). The checks of UNPACK read the header and the number of body bytes only
(`unpackRun_of_nonempty`), and its codes the bits of the payload only (`unpackCodes_congr`). What the codes are bit by
bit, and that they are the ones PACK read, is `Unpacked` and `exec_unpack_of_packed`. -/

namespace Sys2Proof.Machine

/-! ## The accumulator form -/

/-- Every whole group of K bits cut off as a code: the bits left, and the codes in front of `out`, newest first. -/
def cutCodes (k : Nat) (bits : List Bool) (out : List Half) : List Bool × List Half :=
  (bits.drop (k * (bits.length / k)),
    ((groups k (bits.length / k) bits).map fun g => BitVec.ofNat 16 (val g)).reverse ++ out)

theorem cutCodes_of_short {k : Nat} {bits : List Bool} (h : bits.length < k) (out : List Half) :
    cutCodes k bits out = (bits, out) := by
  simp [cutCodes, Nat.div_eq_of_lt h, groups]

theorem cutCodes_append_of_long {k : Nat} {bits : List Bool} (hk : 0 < k) (h : k ≤ bits.length) (more : List Bool)
    (out : List Half) :
    cutCodes k (bits ++ more) out = cutCodes k (bits.drop k ++ more) (BitVec.ofNat 16 (val (bits.take k)) :: out) := by
  have hdrop : (bits ++ more).drop k = bits.drop k ++ more := List.drop_append_of_le_length h
  have hcount : (bits ++ more).length / k = (bits.drop k ++ more).length / k + 1 := by
    rw [← hdrop, List.length_drop, Nat.div_eq_sub_div hk (by rw [List.length_append]; omega)]
  rw [cutCodes, cutCodes, hcount, groups, hdrop, List.take_append_of_le_length h, Nat.mul_succ, Nat.add_comm,
    ← List.drop_drop, hdrop, List.map_cons, List.reverse_cons, List.append_assoc, List.singleton_append]

/-- A byte adds at most K bits to fewer than K, so cutting off one code leaves fewer than K again (R208). -/
theorem unpackLoop_eq_cutCodes {k : Nat} (hk : 8 ≤ k) (body : List Symbol) {acc : List Bool} (h : acc.length < k)
    (out : List Half) : unpackLoop k body (acc, out) = cutCodes k (acc ++ bodyBits body) out := by
  induction body generalizing acc out with
  | nil => rw [unpackLoop, bodyBits, List.flatMap_nil, List.append_nil, cutCodes_of_short h]
  | cons b bs ih =>
    have hbits : acc ++ bodyBits (b :: bs) = (acc ++ binN 8 b.toNat) ++ bodyBits bs := by
      rw [bodyBits, List.flatMap_cons, ← List.append_assoc, bodyBits]
    have hlen : (acc ++ binN 8 b.toNat).length = acc.length + 8 := by rw [List.length_append, length_binN]
    rw [unpackLoop, hbits]
    dsimp only [unpackByte]
    by_cases hlong : k ≤ (acc ++ binN 8 b.toNat).length
    · rw [if_pos hlong, ih (by rw [List.length_drop]; omega), cutCodes_append_of_long (by omega) hlong]
    · rw [if_neg hlong, ih (Nat.lt_of_not_le hlong)]

/-- The groups of R204 lie in the first `size * count` bits. -/
theorem groups_take (size count : Nat) (bits : List Bool) :
    groups size count (bits.take (size * count)) = groups size count bits := by
  induction count generalizing bits with
  | zero => rfl
  | succ n ih =>
    have hrest : (bits.take (size * (n + 1))).drop size = (bits.drop size).take (size * n) := by
      rw [List.drop_take, Nat.mul_succ, Nat.add_sub_cancel]
    have hfirst : (bits.take (size * (n + 1))).take size = bits.take size := by
      rw [List.take_take, Nat.min_eq_left (Nat.le_mul_of_pos_right size n.succ_pos)]
    rw [groups, groups, hrest, hfirst, ih]

/-- Settles O43: the pad is too short for a code, so the whole groups of the body are those of the payload. -/
theorem unpackAccumulatorGivesTheSameCodes : Obligations.UnpackAccumulatorGivesTheSameCodes := by
  intro k pad body hlow hhigh hpad hfit hwhole
  obtain ⟨n, hpayload⟩ := Nat.dvd_of_mod_eq_zero hwhole
  have hlen : (bodyBits body).length = k * n + pad := by
    rw [length_bodyBits]
    omega
  have hcount : (bodyBits body).length / k = n := by
    rw [hlen, Nat.mul_add_div (by omega), Nat.div_eq_of_lt (by omega), Nat.add_zero]
  have hloop : unpackLoop k body ([], []) = cutCodes k (bodyBits body) [] :=
    unpackLoop_eq_cutCodes (by omega) body (acc := []) (by rw [List.length_nil]; omega) []
  rw [hloop, cutCodes, hcount]
  constructor
  · rw [List.length_drop, hlen, Nat.add_sub_cancel_left]
  · rw [List.append_nil, List.reverse_reverse, hpayload, unpackCodes, Nat.mul_div_cancel_left n (by omega),
      groups_take]

/-! ## UNPACK after PACK -/

theorem packable_of_run {k : Nat} {s : State} {bytes : List Symbol} (h : packRun k s = .ok bytes) :
    Packable k s := by
  obtain ⟨hwidth, hcode, hstream, hfits, -⟩ := packRun_ok h
  obtain ⟨hlow, hhigh⟩ := legalWidth_iff.mp hwidth
  refine ⟨hlow, hhigh, hcode, bodyLen_eq .. ▸ hstream, fun i hi => ?_⟩
  rw [codeOutOfRange, List.findIdx?_eq_none_iff] at hfits
  have hmem : (readCode s i).toNat ∈ codeInput s := List.mem_map.mpr ⟨i, List.mem_range.mpr hi, rfl⟩
  exact Nat.lt_of_not_le (of_decide_eq_false (hfits _ hmem))

/-- Settles O44: what PACK wrote unpacks to the codes it read. -/
theorem unpackInvertsPack : Obligations.UnpackInvertsPack := by
  intro k s t h hfault
  obtain ⟨-, hpacked⟩ := exec_pack_packed h hfault
  obtain ⟨e, -, he⟩ | ⟨bytes, hrun, -⟩ := execPack_cases k s
  · cases h.symm.trans he
    cases hfault
  · exact exec_unpack_of_packed (packable_of_run hrun) hpacked (exec_parametersKept h).caps

/-! ## The codes bit by bit -/

theorem streamLen_pos {s : State} (h : s.streamLen ≠ 0) : 0 < s.streamLen.toNat :=
  Nat.pos_of_ne_zero fun hzero => h (BitVec.eq_of_toNat_eq hzero)

/-- Settles O41: the bits of a code at K and above are 0, because it is below `2^K`. -/
theorem unpackWritesTheCodes : Obligations.UnpackWritesTheCodes := by
  intro k s n hlow hhigh hstream hnonempty hheader hlen hcode
  have hpos : 0 < s.streamLen.toNat := streamLen_pos hnonempty
  obtain ⟨t, ht, hdone, rfl, hunpacked⟩ := exec_unpack_of_framed hlow hhigh hstream hpos hheader hlen hcode
  refine ⟨t, ht, hdone, rfl, fun q m hq _ => ?_⟩
  split
  · next hm => exact (codeBit_of_code t q hm).symm.trans (hunpacked.bits _ (position_lt hq (by omega)))
  · next hm =>
    have hwide : 2 ^ k ≤ 2 ^ m := Nat.pow_le_pow_right (by decide) (Nat.le_of_not_lt hm)
    exact Nat.testBit_lt_two_pow ((hunpacked.codes q hq).trans_le hwide)

/-! ## What a run of UNPACK reads -/

/-- The bytes of `STREAM` after the header (R72). -/
def streamBody (s : State) : List Symbol := (List.range (s.streamLen.toNat - 1)).map fun j => readStream s (1 + j)

@[simp] theorem length_streamBody (s : State) : (streamBody s).length = s.streamLen.toNat - 1 := by
  rw [streamBody, List.length_map, List.length_range]

theorem streamInput_eq_cons {s : State} (h : s.streamLen ≠ 0) :
    streamInput s = readStream s 0 :: streamBody s := by
  have hlen : s.streamLen.toNat = (s.streamLen.toNat - 1) + 1 := (Nat.succ_pred_eq_of_pos (streamLen_pos h)).symm
  rw [streamInput, hlen, List.range_succ_eq_map, List.map_cons, List.map_map, streamBody]
  congr 1
  exact List.map_congr_left fun j _ => congrArg (readStream s) (Nat.add_comm j 1)

theorem getD_bodyBits_streamBody {s : State} {p : Nat} (h : p < 8 * (s.streamLen.toNat - 1)) :
    (bodyBits (streamBody s)).getD p false = bodyBit s p := by
  have hbyte : (streamBody s).getD (p / 8) 0 = readStream s (1 + p / 8) := by
    have hj : p / 8 < s.streamLen.toNat - 1 := by omega
    simp [streamBody, hj]
  rw [bodyBit, ← hbyte]
  exact getD_flatMap_binN (by decide) BitVec.toNat rfl (streamBody s) p

/-- The start checks of R201, on a stream that has a header. -/
theorem unpackRun_of_nonempty {k : Nat} {s : State} (hlow : 9 ≤ k) (hhigh : k ≤ 16)
    (hstream : s.streamLen.toNat ≤ s.caps.stream.toNat) (h : s.streamLen ≠ 0) :
    unpackRun k s = unpackStream k s.caps.code.toNat (readStream s 0 :: streamBody s) := by
  simp [unpackRun, legalWidth_iff.mpr ⟨hlow, hhigh⟩, Nat.not_lt.mpr hstream, streamInput_eq_cons h]

/-! ## The pad bits -/

/-- Only the bits of the payload are examined (R204, R206). -/
theorem unpackCodes_congr {payload : Nat} {body₁ body₂ : List Symbol} (k : Nat)
    (hlen : body₂.length = body₁.length)
    (h : ∀ p, p < payload → (bodyBits body₂).getD p false = (bodyBits body₁).getD p false) :
    unpackCodes k payload body₂ = unpackCodes k payload body₁ := by
  have hpayload : (bodyBits body₂).take payload = (bodyBits body₁).take payload := by
    refine List.ext_getElem (by simp [hlen]) fun p hp₂ hp₁ => ?_
    rw [List.length_take] at hp₁ hp₂
    have hbit := h p (by omega)
    rw [List.getD_eq_getElem _ _ (by omega), List.getD_eq_getElem _ _ (by omega)] at hbit
    rwa [List.getElem_take, List.getElem_take]
  rw [unpackCodes, unpackCodes, hpayload]

theorem unpackStream_congr {k cap : Nat} {header : Symbol} {body₁ body₂ : List Symbol}
    (hlen : body₂.length = body₁.length)
    (h : ∀ p, p < 8 * body₁.length - header.toNat → (bodyBits body₂).getD p false = (bodyBits body₁).getD p false) :
    unpackStream k cap (header :: body₂) = unpackStream k cap (header :: body₁) := by
  rw [unpackStream, unpackStream, hlen]
  cases hframe : framePayload k header.toNat body₁.length with
  | error e => rfl
  | ok payload =>
    obtain ⟨-, -, -, rfl⟩ := framePayload_ok hframe
    dsimp only
    rw [unpackCodes_congr k hlen h]

theorem unpackRun_congr {k : Nat} {s₁ s₂ : State} (hset : SameSetting s₁ s₂) (hlen : s₂.streamLen = s₁.streamLen)
    (hnonempty : s₁.streamLen ≠ 0) (hheader : readStream s₂ 0 = readStream s₁ 0)
    (hbits : ∀ p, p < 8 * (s₁.streamLen.toNat - 1) - (readStream s₁ 0).toNat → bodyBit s₂ p = bodyBit s₁ p) :
    unpackRun k s₂ = unpackRun k s₁ := by
  have hstream : unpackStream k s₁.caps.code.toNat (streamInput s₂) =
      unpackStream k s₁.caps.code.toNat (streamInput s₁) := by
    rw [streamInput_eq_cons hnonempty, streamInput_eq_cons (hlen ▸ hnonempty), hheader]
    refine unpackStream_congr (by simp [hlen]) fun p hp => ?_
    rw [length_streamBody] at hp
    have hfit : p < 8 * (s₁.streamLen.toNat - 1) := hp.trans_le (Nat.sub_le ..)
    rw [getD_bodyBits_streamBody (hlen ▸ hfit), getD_bodyBits_streamBody hfit, hbits p hp]
  rw [unpackRun, unpackRun, hset.caps, hlen, hstream]

theorem exec_unpack_of_run_error {k : Nat} {s : State} {e : Raise} (h : unpackRun k s = .error e) :
    exec (.unpack k) s = .next (faultEntry .unpack e s) := by
  simp only [exec, execUnpack, h]

theorem exec_unpack_of_run_ok {k : Nat} {s : State} {codes : List Half} (h : unpackRun k s = .ok codes) :
    exec (.unpack k) s = .next (unpackFinish codes s) := by
  simp only [exec, execUnpack, h]

theorem unpackFinish_sameCode (codes : List Half) (s₁ s₂ : State) :
    SameCode (unpackFinish codes s₁) (unpackFinish codes s₂) :=
  ⟨rfl, fun i hi => by
    have hi' : i < codes.length := lt_of_lt_ofNat hi rfl
    rw [readCode_unpackFinish s₂ hi', readCode_unpackFinish s₁ hi']⟩

/-- Blocks with the same flags whose UNPACKs run alike are left with the same flags and codes (R205, R257). -/
theorem exec_unpack_congr {k : Nat} {s₁ s₂ t₁ t₂ : State} (hset : SameSetting s₁ s₂)
    (hrun : unpackRun k s₂ = unpackRun k s₁) (h₁ : exec (.unpack k) s₁ = .next t₁)
    (h₂ : exec (.unpack k) s₂ = .next t₂) : SameSetting t₁ t₂ ∧ SameCode t₁ t₂ := by
  cases hr : unpackRun k s₁ with
  | error e =>
    cases h₁.symm.trans (exec_unpack_of_run_error hr)
    cases h₂.symm.trans (exec_unpack_of_run_error (hrun.trans hr))
    exact ⟨faultEntry_sameSetting hset _ e, rfl, fun i hi => absurd hi (Nat.not_lt_zero i)⟩
  | ok codes =>
    cases h₁.symm.trans (exec_unpack_of_run_ok hr)
    cases h₂.symm.trans (exec_unpack_of_run_ok (hrun.trans hr))
    exact ⟨⟨hset.caps, congrArg Status.completed hset.status, hset.errIndex⟩, unpackFinish_sameCode codes s₁ s₂⟩

/-- Settles O42: the checks and the payload of the two streams are the same, so the two runs end alike. -/
theorem unpackIgnoresThePadBits : Obligations.UnpackIgnoresThePadBits := by
  intro k s₁ s₂ t₁ t₂ hset hlen htwo hbefore hlast h₁ h₂
  have hnonempty : s₁.streamLen ≠ 0 := fun h => by simp [h] at htwo
  have hbits (p : Nat) (hp : p < 8 * (s₁.streamLen.toNat - 1) - (readStream s₁ 0).toNat) :
      bodyBit s₂ p = bodyBit s₁ p := by
    unfold bodyBit
    by_cases hbyte : 1 + p / 8 = s₁.streamLen.toNat - 1
    · rw [hbyte]
      exact hlast _ (by omega) (by omega)
    · rw [hbefore _ (by omega)]
  have hrun : unpackRun k s₂ = unpackRun k s₁ := unpackRun_congr hset hlen hnonempty (hbefore 0 (by omega)) hbits
  obtain ⟨hsetting, hcode⟩ := exec_unpack_congr hset hrun h₁ h₂
  exact ⟨hsetting.status, hsetting.errIndex, hcode⟩

/-! ## The checks -/

theorem framePayload_eq_error {k header nbody : Nat}
    (h : 7 < header ∨ 8 * nbody < header ∨ (8 * nbody - header) % k ≠ 0) :
    framePayload k header nbody = .error ⟨.framingError, 0⟩ := by
  unfold framePayload
  obtain h | h | h := h <;> simp [h]

/-- Settles O40: each check fails when the ones before it pass. -/
theorem unpackStartChecks : Obligations.UnpackStartChecks := by
  refine fun k s => ⟨fun hwidth => exec_unpack_of_run_error ?_, fun hlow hhigh hstream => exec_unpack_of_run_error ?_,
    fun hlow hhigh hstream hframe => exec_unpack_of_run_error ?_,
    fun hlow hhigh hstream hnonempty hheader hfit hwhole hcode => exec_unpack_of_run_error ?_⟩
  · simp [unpackRun, legalWidth_eq_false hwidth]
  · simp [unpackRun, legalWidth_iff.mpr ⟨hlow, hhigh⟩, hstream]
  · by_cases hempty : s.streamLen = 0
    · simp [unpackRun, legalWidth_iff.mpr ⟨hlow, hhigh⟩, hempty, streamInput, unpackStream]
    · rw [unpackRun_of_nonempty hlow hhigh hstream hempty, unpackStream, length_streamBody,
        framePayload_eq_error (hframe.resolve_left hempty)]
  · rw [unpackRun_of_nonempty hlow hhigh hstream hnonempty, unpackStream, length_streamBody, framePayload,
      if_neg (Nat.not_lt.mpr hheader), if_neg (Nat.not_lt.mpr hfit), if_neg (not_not.mpr hwhole)]
    exact if_pos hcode

end Sys2Proof.Machine

/-! # The busy block, RESET and the way out of the fault state (O7, O8)

`step_busy` and `step_idle` reduce a step to the operation it takes. In the fault state a command word other than
RESET's is ignored (R259), and only the issue of a word and the reset input change the flags (`step_writes`). -/

namespace Sys2Proof.Machine

/-! ## The busy block -/

/-- What a busy block refuses (R220, R290): all but the `STATUS` read and the reset input. -/
theorem busyOp_refuses {op : HostOp} (hstatus : op ≠ .readReg 0x04) (hinput : op ≠ .resetInput) (s : State) :
    busyOp op s = .refused .hostAccessWhileBusy := by
  cases op with
  | readReg offset => exact if_neg fun h => hstatus (congrArg HostOp.readReg h)
  | resetInput => exact absurd rfl hinput
  | _ => rfl

/-- Settles O7: the two operations that a busy block answers, and the refusal of the others. -/
theorem busyBlockRefusesTheHost : Obligations.BusyBlockRefusesTheHost := by
  refine fun s op rest hp hbusy => ⟨?_, ?_, fun hstatus hinput => ?_⟩
  · rintro rfl
    exact step_busy hp hbusy
  · rintro rfl
    exact ⟨_, step_resetInput hp, powerOn_atReset _⟩
  · rw [step_busy hp hbusy, busyOp_refuses hstatus hinput]

/-! ## The fault state -/

theorem issue_of_fault {w : CmdWord} {s : State} (hfault : s.status.fault = true) (hw : w ≠ 0x000F#16) :
    issue w s = .next s := by
  obtain ⟨-, hreset, -⟩ | ⟨-, -, hi⟩ | ⟨hnone, -⟩ | ⟨hnone, -⟩ := issue_cases w s
  · exact absurd hreset hw
  · exact hi
  all_goals simp [hfault] at hnone

section

variable {s t : State} {op : HostOp} {rest : List HostOp} (hp : s.pending = op :: rest)
  (hfault : s.status.fault = true) (h : step s = .next t)

include hp hfault h

/-- A word that the fault state ignores changes the queue only (R259, log 20); a busy block does not answer its
write. -/
theorem step_issue_of_fault {w : CmdWord} (hissues : Issues op w) (hw : w ≠ 0x000F#16) :
    t = { s with pending := rest } := by
  cases hbusy : s.status.busy with
  | true =>
    obtain ⟨v, rfl, -⟩ := hissues
    rw [step_busy hp hbusy] at h
    cases h
  | false =>
    rw [step_issue hp hissues hbusy, issue_of_fault (by exact hfault) hw] at h
    cases h
    rfl

/-- In the fault state only RESET and the reset input change the flags, `ERR_INDEX` or a working register (R259,
R260). -/
theorem step_keeps_control_of_fault (hinput : op ≠ .resetInput) (hreset : ¬Issues op 0x000F#16) :
    Part.control.Kept s t := by
  have hignored : ∀ w, Issues op w → Part.control.Kept s t := fun w hw => by
    have hne : w ≠ 0x000F#16 := fun heq => hreset (heq ▸ hw)
    rw [step_issue_of_fault hp hfault h hw hne]
    exact ⟨rfl, rfl, rfl⟩
  by_contra hchanged
  cases step_writes (fun _ => Iff.rfl) hp h hchanged with
  | resetInput hop => exact hinput hop
  | issue w hw => exact hchanged (hignored w hw)
  | command i hi _ =>
    obtain ⟨w, hw, -⟩ := hi
    exact hchanged (hignored w hw)

end

/-- Settles O8: what RESET runs, when it is run, and that any other operation but the reset input keeps FAULT. -/
theorem resetCommandClearsTheRegisters : Obligations.ResetCommandClearsTheRegisters := by
  refine ⟨fun _ => rfl, fun s op rest hp hw hidle => ?_, fun s t op rest hp hfault h hcleared => ?_⟩
  · exact (step_issue hp hw hidle).trans (issue_reset _)
  · by_contra hneither
    obtain ⟨hinput, hreset⟩ := not_or.mp hneither
    obtain ⟨hstatus, -⟩ := step_keeps_control_of_fault hp hfault h hinput hreset
    simp [hstatus, hfault] at hcleared

end Sys2Proof.Machine

/-! # The fault state (O6, O12)

The way out of the fault state is RESET or the reset input (`step_keeps_control_of_fault`), and either clears FAULT, so
a step that stays in it keeps the fault record (R253). An access that is no command and no `STATUS` read uses the flags
in nothing (R259): `idleOp_setStatus` says that it answers the same under any flags. -/

namespace Sys2Proof.Machine

/-! ## The first fault is kept -/

/-- RESET ends the fault state (R222, R260); a busy block does not take it. -/
theorem step_reset_clears_fault {s t : State} {op : HostOp} {rest : List HostOp} (hp : s.pending = op :: rest)
    (hreset : Issues op 0x000F#16) (h : step s = .next t) : t.status.fault = false := by
  cases hbusy : s.status.busy with
  | true =>
    obtain ⟨v, rfl, -⟩ := hreset
    rw [step_busy hp hbusy] at h
    cases h
  | false =>
    rw [step_issue hp hreset hbusy, issue_reset] at h
    cases h
    rfl

/-- The reset input ends the fault state (R260, R280). -/
theorem step_resetInput_clears_fault {s t : State} {rest : List HostOp} (hp : s.pending = .resetInput :: rest)
    (h : step s = .next t) : t.status.fault = false := by
  rw [step_resetInput hp] at h
  cases h
  rfl

/-- Settles O12: the two ways out of the fault state clear FAULT, and any other operation keeps the flags. -/
theorem firstFaultIsKept : Obligations.FirstFaultIsKept := by
  intro s t hfault h hstays
  have hnot : t.status.fault ≠ false := ne_false_of_eq_true hstays
  cases hp : s.pending with
  | nil =>
    obtain ⟨-, hwaits⟩ := stepRunsTheIssuedCommand
    rw [hwaits s hp] at h
    cases h
    exact ⟨rfl, rfl⟩
  | cons op rest =>
    have hinput : op ≠ .resetInput := by
      rintro rfl
      exact hnot (step_resetInput_clears_fault hp h)
    have hreset : ¬Issues op 0x000F#16 := fun hissues => hnot (step_reset_clears_fault hp hissues h)
    obtain ⟨hstatus, herrIndex, -⟩ := step_keeps_control_of_fault hp hfault h hinput hreset
    exact ⟨hstatus, herrIndex⟩

/-! ## Accesses under other flags -/

section

variable {s t u : State} (f : Status)

theorem within_setStatus {i bound : Nat} (h : within i bound t = .next u) :
    within i bound { t with status := f } = .next { u with status := f } := by
  obtain ⟨hi, rfl⟩ := within_next h
  exact within_of_lt hi _

theorem readOffset_setStatus {offset : Nat} (hne : offset ≠ 0x04) :
    readOffset { s with status := f } offset = readOffset s offset := by
  rw [readOffset_eq, readOffset_eq, if_neg hne, if_neg hne]

theorem readDict_setStatus (c : Nat) : readDict c { s with status := f } = { readDict c s with status := f } := by
  cases hentry : dictEntry s c with
  | none => rw [readDict_of_none hentry, readDict_of_none (by exact hentry)]
  | some w => rw [readDict_of_some hentry, readDict_of_some (by exact hentry)]

/-- On an idle block only the issue of a command word, the reset input and the `STATUS` read use the flags (R220, R223,
R280). -/
theorem idleOp_setStatus {op : HostOp} (hissues : ∀ w, ¬Issues op w) (hinput : op ≠ .resetInput)
    (hstatus : op ≠ .readReg 0x04) (h : idleOp op s = .next t) :
    idleOp op { s with status := f } = .next { t with status := f } := by
  cases op with
  | writeReg offset v =>
    have hne : offset ≠ 0 := by
      rintro rfl
      exact hissues _ ⟨v, rfl, rfl⟩
    by_cases haligned : offset % 4 = 0
    · rw [idleOp, if_pos haligned, writeOffset_eq hne] at h ⊢
      cases h
      rfl
    · rw [idleOp, if_neg haligned] at h
      cases h
  | readReg offset =>
    have hne : offset ≠ 0x04 := fun heq => hstatus (congrArg HostOp.readReg heq)
    by_cases haligned : offset % 4 = 0
    · rw [idleOp, if_pos haligned] at h ⊢
      cases h
      rw [readOffset_setStatus f hne]
      rfl
    · rw [idleOp, if_neg haligned] at h
      cases h
  | readDict c =>
    rw [idleOp, readDict_setStatus]
    exact within_setStatus f h
  | resetInput => exact absurd rfl hinput
  | _ => exact within_setStatus f h

theorem hostOp_idle (hidle : s.status.busy = false) (op : HostOp) : hostOp op s = idleOp op s := by
  simp [hostOp, hidle]

end

/-! ## The fault state and the host -/

/-- The `STATUS` word of an idle block in the fault state (R25, R259). -/
theorem Status.word_fault {f : Status} (hidle : f.busy = false) (hdone : f.done = false) (hfault : f.fault = true) :
    f.word = BitVec.ofNat 32 (0x04 + 16 * f.err.toNat) := by
  simp [Status.word, bitNat, hidle, hdone, hfault]

/-- Settles O6: what the issue of a word does, that an access does not use the flags, and the `STATUS` word. -/
theorem faultStateIgnoresAllButReset : Obligations.FaultStateIgnoresAllButReset := by
  refine ⟨fun s op rest w hp hw hidle hfault => ⟨?_, fun hne => ?_⟩,
    fun s t op f hidle hf hissues hinput hstatus h => ?_, fun s hsound hfault => ?_⟩
  · rintro rfl
    exact (step_issue hp hw hidle).trans (issue_reset _)
  · exact (step_issue hp hw hidle).trans (issue_of_fault hfault hne)
  · rw [hostOp_idle hidle] at h
    rw [hostOp_idle (by exact hf)]
    exact idleOp_setStatus f hissues hinput hstatus h
  · have hdone : s.status.done = false := by
      by_contra hdone
      exact hsound.notBoth ⟨eq_true_of_ne_false hdone, hfault⟩
    exact ⟨Status.word_fault hsound.idle hdone hfault, hdone⟩

end Sys2Proof.Machine
